-- ==== Sys2Proof/Word.lean ====
section
/-! DEFINITION. The widths of the HUFF block's quantities (00_scope.md R4, R5). -/

namespace Sys2Proof

/-- A register word, a count, a weight: `DATA_W = WEIGHT_W = 32` bits, unsigned (R4, R5). -/
abbrev Word := BitVec 32

/-- A symbol: one byte, `SYM_W = 8` (R4). -/
abbrev Sym := BitVec 8

/-- A stored node index: `IDX_W = 9` bits (R4). -/
abbrev Idx := BitVec 9

/-- A word address of the register space: `ADDR_W = 12` bits (R4, R28). -/
abbrev Addr := BitVec 12

end Sys2Proof
end

