-- ==== Sys2Proof/Syntax.lean ====
section
/-! DEFINITION. The seven commands of the HUFF block (30_encoding.md R46), one constructor per row of the
opcode table. -/

namespace Sys2Proof

/-- A command. Only FIN has an operand (R45): the node index IDX, a number used unscaled. -/
inductive Instr where
  /-- CLR: return the block to its reset state (45_control.md R85). -/
  | clr
  /-- FREQ: count the symbols of SI into FT (40_freq.md R55). -/
  | freq
  /-- BUILD: reduce FT to one tree in NM (41_tree_build.md R58). -/
  | build
  /-- GEN: derive CT from the finalised tree (42_code_table.md R68). -/
  | gen
  /-- ENC: encode SI to BO with CT (43_encoder.md R73). -/
  | enc
  /-- DEC: decode BI to SO with the tree (44_decoder.md R78). -/
  | dec
  /-- FIN idx: check the tree at node `idx` and finalise it (41_tree_build.md R65). -/
  | fin (idx : Nat)
  deriving DecidableEq, Repr

end Sys2Proof
end

