-- ==== Sys2Proof/WellFormed.lean ====
section
/-! DEFINITION. Which terms of `Instr` are commands a word can spell (30_encoding.md R44, R45). -/

namespace Sys2Proof

/-- A command is well formed when its operand fits its field: IDX is an unsigned node index 0..511 (R45).
511 is encodable and is not the index of any record; FIN rejects it when it runs. -/
def Instr.wellFormed : Instr → Bool
  | .clr => true
  | .freq => true
  | .build => true
  | .gen => true
  | .enc => true
  | .dec => true
  | .fin idx => decide (idx < 512)

end Sys2Proof
end

