-- ==== Sys2Proof/Decode.lean ====
section
/-! DEFINITION. Command words: the decoder, total on every 32-bit word and rejecting by name, then the
encoder (30_encoding.md R44 to R47). -/

namespace Sys2Proof

/-- Why a word spells no command (30_encoding.md R47). -/
inductive Illegal where
  /-- OPC is 0x00 or 0x08..0xFF. -/
  | reservedOpcode
  /-- OPC is 0x01..0x07 and a must-be-zero bit of its format is set. -/
  | mustBeZero
  deriving DecidableEq, Repr

/-- OPC: bits 7:0 of every command word (R44). -/
def opcodeField (w : Word) : BitVec 8 := w.extractLsb' 0 8

/-- Bits 31:8, which must be 0 in format Z (R44). -/
def zeroFieldZ (w : Word) : BitVec 24 := w.extractLsb' 8 24

/-- Bits 15:8, which must be 0 in format X (R44). -/
def zeroFieldXLow (w : Word) : BitVec 8 := w.extractLsb' 8 8

/-- Bits 31:25, which must be 0 in format X (R44). -/
def zeroFieldXHigh (w : Word) : BitVec 7 := w.extractLsb' 25 7

/-- IDX: bits 24:16 of a format X word (R44, R45). -/
def indexField (w : Word) : Idx := w.extractLsb' 16 9

/-- A word of format Z spells `i` when its must-be-zero bits are 0 (R44, R47). -/
def decodeZ (w : Word) (i : Instr) : Except Illegal Instr :=
  if zeroFieldZ w = 0 then .ok i else .error .mustBeZero

/-- A word of format X spells FIN with the operand IDX when its must-be-zero bits are 0 (R44, R45, R47). -/
def decodeX (w : Word) : Except Illegal Instr :=
  if zeroFieldXLow w = 0 ∧ zeroFieldXHigh w = 0 then .ok (.fin (indexField w).toNat) else .error .mustBeZero

/-- The decoder: OPC selects the format, then the must-be-zero bits of that format are checked (R44, R46, R47). -/
def decode (w : Word) : Except Illegal Instr :=
  match (opcodeField w).toNat with
  | 1 => decodeZ w .clr
  | 2 => decodeZ w .freq
  | 3 => decodeZ w .build
  | 4 => decodeZ w .gen
  | 5 => decodeZ w .enc
  | 6 => decodeZ w .dec
  | 7 => decodeX w
  | _ => .error .reservedOpcode

/-- The command word of a well-formed command, from the opcode map and the two formats (R44, R46). -/
def encode : Instr → Word
  | .clr => 0#24 ++ 1#8
  | .freq => 0#24 ++ 2#8
  | .build => 0#24 ++ 3#8
  | .gen => 0#24 ++ 4#8
  | .enc => 0#24 ++ 5#8
  | .dec => 0#24 ++ 6#8
  | .fin idx => 0#7 ++ BitVec.ofNat 9 idx ++ 0#8 ++ 7#8

/-- The command word whose low `nbits` bits are those of `w` and whose other bits are 0; a command is one
32-bit word (R44), so more bits than that are no command word. -/
def tableWord (nbits w : Nat) : Option Word :=
  if nbits ≤ 32 then some (BitVec.ofNat 32 (w % 2 ^ nbits)) else none

/-- What the decoder reads from a table row's bits, bit 0 the least significant bit of the word (R5). -/
def decodeTableWord (nbits w : Nat) : Option Instr :=
  match tableWord nbits w with
  | some v =>
    match decode v with
    | .ok i => some i
    | .error _ => none
  | none => none

end Sys2Proof
end

