-- ==== Sys2Proof/Config.lean ====
section
/-! DEFINITION. The implementation parameters of 00_scope.md R4. The spec fixes every one of them and
leaves no value open (93_implementation_defined.md, end of part 1), so there is no free value here. -/

namespace Sys2Proof.Config

/-- `N_SYM`: possible symbols, entries of FT and of CT (R4). -/
abbrev nSymbols : Nat := 256

/-- `NODE_MAX`: node records in NM, indices 0..510 (R4). -/
abbrev nodeMax : Nat := 511

/-- `W_MAX`: the greatest count or weight (R4). -/
abbrev wMax : Nat := 4294967295

/-- `LEN_MAX`: the greatest code length in bits (R4, R50). -/
abbrev lenMax : Nat := 255

end Sys2Proof.Config
end

