-- ==== Sys2Proof/Machine/State.lean ====
section
/-! DEFINITION. The state of the HUFF block and of what stands around it, as plain data (10_state.md), the
reasons the model can stop, and the state after reset (R25). -/

namespace Sys2Proof.Machine

/-- An array of the block, as the list of its entries (index, value) that differ from the reset content, in
ascending index (log entry 1). FT, NM and CT each have one (10_state.md R10). -/
abbrev Memory (α : Type) := List (Nat × α)

/-- TS, the tree state (10_state.md R14). The value 3 is never held. -/
inductive TreeState where
  /-- NONE = 0: no tree. -/
  | noTree
  /-- OPEN = 1: the host has written NM and the content has not been checked. -/
  | openTree
  /-- FINAL = 2: NM holds a finalised tree entered at ROOT. -/
  | finalTree
  deriving DecidableEq, Repr

/-- PH, the run state of the engine (10_state.md R18). -/
inductive Phase where
  | idle
  | busy
  | fault
  deriving DecidableEq, Repr

/-- Where a running command stands between two micro-steps (40_freq.md R56, 43_encoder.md R74, 44_decoder.md
R79, R82): the request it is about to make. -/
inductive Point where
  /-- No request pending: no command is running, or one has just been accepted. -/
  | rest
  /-- FREQ, about to ask `SI.hasMore`. -/
  | f0
  /-- FREQ, answered true, about to `SI.read`. -/
  | f1
  /-- ENC, about to ask `SI.hasMore`. -/
  | e0
  /-- ENC, answered true, about to `SI.read`. -/
  | e1
  /-- ENC, holding ESYM, about to `BO.writeBit`. -/
  | e2
  /-- DEC with no tree, about to ask `BI.hasMore` once (R82). -/
  | dNoTree
  /-- DEC, about to ask `BI.hasMore`. -/
  | d0
  /-- DEC, answered true, about to `BI.readBit`. -/
  | d1
  /-- DEC, a symbol found, about to `SO.writeSym`. -/
  | d2
  deriving DecidableEq, Repr

/-- A node record of NM, seven fields, 61 bits (10_state.md R12). -/
structure Node where
  hasSym : Bool
  sym : Sym
  hasLeft : Bool
  left : Idx
  hasRight : Bool
  right : Idx
  weight : Word
  deriving DecidableEq, Repr

/-- The record with all fields 0: what NM holds after reset (10_state.md R25). -/
def Node.zero : Node :=
  { hasSym := false, sym := 0, hasLeft := false, left := 0, hasRight := false, right := 0, weight := 0 }

/-- An entry of CT (10_state.md R16): `bits` in travel order, the first step from the root first. -/
structure CodeEntry where
  valid : Bool
  len : BitVec 8
  bits : List Bool
  deriving DecidableEq, Repr

/-- The entry of a symbol that has no code: `len` and `bits` are 0 (10_state.md R16). -/
def CodeEntry.invalid : CodeEntry := { valid := false, len := 0, bits := [] }

/-- The twelve fault causes (60_exceptions.md R90). -/
inductive Cause where
  | countOvf
  | weightOvf
  | treeMalformed
  | noCode
  | truncated
  | noTreeBits
  | siErr
  | boErr
  | biErr
  | soErr
  | badCmd
  | treeOpen
  deriving DecidableEq, Repr

/-- What stands at a word address of the register space (20_memory.md R29). -/
inductive Region where
  | cmd
  | status
  | err
  | tree
  | cur
  | ctsel
  | ctlen
  /-- CTBITSj, j = 0..7. -/
  | ctbits (j : Nat)
  /-- FT[x], x = 0..255. -/
  | ft (x : Nat)
  /-- NM[i].ATTR, i = 0..510. -/
  | attr (i : Nat)
  /-- NM[i].WEIGHT, i = 0..510. -/
  | weight (i : Nat)
  | reserved
  deriving DecidableEq, Repr

/-- The host port's answer to an access (45_control.md R86, R87). -/
inductive HostAnswer where
  /-- No access has been answered yet. -/
  | quiet
  /-- A write was performed: `h_ack`, `h_err = 0`. -/
  | done
  /-- A read was performed: `h_ack`, `h_err = 0`, and the word on `h_rdata`. -/
  | data (w : Word)
  /-- The access was refused: `h_ack`, `h_err = 1`, no data (20_memory.md R31). -/
  | refused
  deriving DecidableEq, Repr

/-- How a collaborator meets the engine's pending request in one turn (20_memory.md R38 to R42). -/
inductive Reply where
  /-- It answers as its stream stands. -/
  | answer
  /-- It answers `err`. -/
  | err
  /-- It does not answer in this turn: the engine goes on waiting. -/
  | silent
  deriving DecidableEq, Repr

/-- What a request to a collaborator comes back with (20_memory.md R38 to R42). -/
inductive Answer (α : Type) where
  | got (a : α)
  | err
  /-- Unanswered: the engine has no step. -/
  | waiting
  deriving DecidableEq, Repr

/-- One act of the outside (00_scope.md R7, 10_state.md R24, 70_reset_and_hazards.md R101). -/
inductive Event where
  /-- The host reads the word at an address (45_control.md R86). -/
  | read (addr : Addr)
  /-- The host writes a word to an address (45_control.md R87). -/
  | write (addr : Addr) (v : Word)
  /-- The host attaches a symbol source holding these symbols (R24). -/
  | attachSI (xs : List Sym)
  /-- The host attaches an empty bit sink. -/
  | attachBO
  /-- The host attaches a bit source holding these bits. -/
  | attachBI (bs : List Bool)
  /-- The host attaches an empty symbol sink. -/
  | attachSO
  /-- Reset is applied (R101). -/
  | rst
  /-- The engine has the turn, and its pending request meets this reply. -/
  | turn (r : Reply)
  deriving DecidableEq, Repr

/-- Why the machine stops. The block's own faults (60_exceptions.md R90) are NOT here: they are next states
with `ph = .fault`. These three arise only in states that no run of the block reaches. -/
inductive Fault where
  /-- Raised by GEN and by DEC's bit step when they would have to use record 511, which does not exist
  (10_state.md R12). No finalised tree names it (41_tree_build.md R66 c1, c7). Safe: the model stops. -/
  | noSuchNode
  /-- Raised by GEN when its walk goes below depth 255, so that a path would have more than `LEN_MAX` bits. No
  finalised tree is that deep (30_encoding.md R50). Safe: the model stops. -/
  | codeTooLong
  /-- Raised by an engine turn when PH is BUSY and no command is at any point of its rule. Safe: the model stops. -/
  | noMicroStep
  deriving DecidableEq, Repr

/-- Why the machine gives no meaning to a step. -/
inductive Refusal where
  /-- Raised by `exec` for an instruction that has no meaning yet. Safe: the model stops. -/
  | notModelled (mnemonic : String)
  /-- Raised by `step` when the outside replaces a stream while PH is BUSY: the spec forbids it to the host
  (70_reset_and_hazards.md R106) and gives it no effect (log entry 5). Safe: the model stops. -/
  | attachWhileBusy
  deriving DecidableEq, Repr

/-- The block (10_state.md R10, R22), its collaborators (R24), the host port's last answer, and what the
outside will do next. -/
structure State where
  /-- FT, the frequency table (R11). -/
  ft : Memory Word
  /-- NM, the node memory (R12). -/
  nm : Memory Node
  /-- TS (R14). -/
  ts : TreeState
  /-- ROOT (R15). -/
  root : Idx
  /-- NSYM (R15). -/
  nsym : BitVec 9
  /-- CT, the code table (R16). -/
  ct : Memory CodeEntry
  /-- CUR, the decoder cursor (R17). -/
  cur : Idx
  /-- PH (R18). -/
  ph : Phase
  /-- OP (R18). -/
  op : BitVec 8
  /-- DONE (R18). -/
  done : Bool
  /-- ERR (R20). -/
  err : Word
  /-- CTSEL (R21). -/
  ctsel : Sym
  /-- PQ, hidden: the queue of BUILD, oldest member first (R22 (a)). -/
  pq : List Nat
  /-- n, hidden: the next free node index of BUILD (R22 (b)). -/
  next : Nat
  /-- ESYM, hidden (R22 (d)). -/
  esym : Sym
  /-- EPOS, hidden (R22 (d)). -/
  epos : BitVec 8
  /-- The point of the running command (R56, R74, R79). -/
  pt : Point
  /-- SI: what the symbol source still has to give (R24); `none`: nothing attached (R106). -/
  si : Option (List Sym)
  /-- BO: what the bit sink has received, first bit first (R24). -/
  bo : Option (List Bool)
  /-- BI: what the bit source still has to give (R24). -/
  bi : Option (List Bool)
  /-- SO: what the symbol sink has received, first symbol first (R24). -/
  so : Option (List Sym)
  /-- The host port's answer to the last access (R86, R87; log entry 12). -/
  resp : HostAnswer
  /-- What the outside does next, oldest first (log entry 2). -/
  plan : List Event
  deriving DecidableEq, Repr

/-- The machine right after reset (10_state.md R25). Nothing is attached and the outside has no plan (log
entries 2, 6, 12). -/
def State.reset : State :=
  { ft := [], nm := [], ts := .noTree, root := 0, nsym := 0, ct := [], cur := 0,
    ph := .idle, op := 0, done := false, err := 0, ctsel := 0,
    pq := [], next := 0, esym := 0, epos := 0, pt := .rest,
    si := none, bo := none, bi := none, so := none, resp := .quiet, plan := [] }

end Sys2Proof.Machine
end

