-- ==== Sys2Proof/Machine/Ops.lean ====
section
/-! DEFINITION. The named operations over the block's arrays, registers and streams, fault entry and the return
from a fault, which all the commands share. -/

namespace Sys2Proof.Machine

/-! ## Arrays in canonical form -/

/-- The canonical form of an array whose reset content is `d`: indices strictly rising, no entry equal to `d`. -/
abbrev Memory.wf {α : Type} (d : α) (m : Memory α) : Prop :=
  m.Pairwise (fun a b => a.1 < b.1) ∧ ∀ e ∈ m, e.2 ≠ d

/-- Read of the entry `k`; an unlisted entry reads as the reset content `d` (10_state.md R25). -/
def Memory.get {α : Type} (d : α) : Memory α → Nat → α
  | [], _ => d
  | (a, v) :: m, k => if k = a then v else Memory.get d m k

/-- Write of `v` to the entry `k`, keeping the canonical form. -/
def Memory.set {α : Type} [DecidableEq α] (d : α) : Memory α → Nat → α → Memory α
  | [], k, v => if v = d then [] else [(k, v)]
  | (a, w) :: m, k, v =>
    if k < a then
      if v = d then (a, w) :: m else (k, v) :: (a, w) :: m
    else if k = a then
      if v = d then m else (k, v) :: m
    else (a, w) :: Memory.set d m k v

/-- Every listed index is below `bound`: the array has `bound` entries. -/
abbrev Memory.within {α : Type} (bound : Nat) (m : Memory α) : Prop := ∀ e ∈ m, e.1 < bound

/-- `FT[x]` (00_scope.md R6). -/
def ftGet (m : Memory Word) (x : Nat) : Word := Memory.get 0 m x

/-- `FT[x] <- c` (R6). -/
def ftSet (m : Memory Word) (x : Nat) (c : Word) : Memory Word := Memory.set 0 m x c

/-- `NM[i]` (R6). -/
def nmGet (m : Memory Node) (i : Nat) : Node := Memory.get Node.zero m i

/-- `NM[i] <- rec` (R6). -/
def nmSet (m : Memory Node) (i : Nat) (nd : Node) : Memory Node := Memory.set Node.zero m i nd

/-- `CT[x]` (R6). -/
def ctGet (m : Memory CodeEntry) (x : Nat) : CodeEntry := Memory.get CodeEntry.invalid m x

/-- `CT[x] <- ent` (R6). -/
def ctSet (m : Memory CodeEntry) (x : Nat) (e : CodeEntry) : Memory CodeEntry := Memory.set CodeEntry.invalid m x e

/-- `leaf(i)`: both children absent (R6). -/
def Node.isLeaf (nd : Node) : Bool := !nd.hasLeft && !nd.hasRight

/-- The child a code bit leads to: 0 is left, 1 is right (30_encoding.md R50). -/
def Node.child (nd : Node) (b : Bool) : Idx := if b then nd.right else nd.left

/-- Indices 0..510 name a record, 511 names none (10_state.md R12, 41_tree_build.md R66 c1). -/
def isRecord (i : Nat) : Bool := decide (i < Config.nodeMax)

/-! ## The code of the tree state and of a cause -/

/-- The two-bit code of TS (10_state.md R14). -/
def TreeState.code : TreeState → BitVec 2
  | .noTree => 0
  | .openTree => 1
  | .finalTree => 2

/-- The cause codes (60_exceptions.md R90). -/
def Cause.code : Cause → BitVec 8
  | .countOvf => 0x10
  | .weightOvf => 0x11
  | .treeMalformed => 0x12
  | .noCode => 0x20
  | .truncated => 0x30
  | .noTreeBits => 0x31
  | .siErr => 0x40
  | .boErr => 0x41
  | .biErr => 0x42
  | .soErr => 0x43
  | .badCmd => 0x50
  | .treeOpen => 0x51

/-! ## Acceptance, completion, fault entry and the return from a fault -/

/-- Acceptance of the word `v`: `PH <- BUSY; DONE <- 0; OP <- v[7:0]` (45_control.md R88). -/
def accept (v : Word) (s : State) : State :=
  { s with ph := .busy, done := false, op := opcodeField v }

/-- `complete`: `PH <- IDLE; DONE <- 1`, no request pending (45_control.md R88). -/
def complete (s : State) : State :=
  { s with ph := .idle, done := true, pt := .rest }

/-- The fault record: INFO, STAGE, CAUSE (10_state.md R20, 60_exceptions.md R92). -/
def errWord (c : Cause) (stage : BitVec 8) (info : BitVec 16) : Word := info ++ stage ++ c.code

/-- `raise Fault(CAUSE, info)`: ERR is written, PH becomes FAULT, the command ends; nothing else changes
(60_exceptions.md R95). -/
def raiseFault (c : Cause) (info : BitVec 16) (s : State) : State :=
  { s with err := errWord c s.op info, ph := .fault, pt := .rest }

/-- Every piece of the block's state at its reset value (10_state.md R25); the collaborators, the host port's
answer and the outside's plan are no state of the block (R24). CLR (45_control.md R85) and reset
(70_reset_and_hazards.md R101) are the only returns from a fault (60_exceptions.md R97). -/
def blockReset (s : State) : State :=
  { State.reset with
    si := s.si, bo := s.bo, bi := s.bi, so := s.so, resp := s.resp, plan := s.plan }

/-! ## Small register operations -/

/-- The running command moves to its next point. -/
def goto (p : Point) (s : State) : State := { s with pt := p }

/-- What FIN and a host write to NM do to the tree: `TS <- OPEN; ROOT <- 0; NSYM <- 0`, every CT entry invalid
(20_memory.md R32 (d), 41_tree_build.md R65). -/
def reopenTree (s : State) : State := { s with ts := .openTree, root := 0, nsym := 0, ct := [] }

/-- A finalised tree is entered: ROOT, NSYM and TS are written together (10_state.md R15). -/
def finaliseTree (r : Nat) (leaves : Nat) (s : State) : State :=
  { s with ts := .finalTree, root := BitVec.ofNat 9 r, nsym := BitVec.ofNat 9 leaves }

/-- `CUR <- i` (10_state.md R17). -/
def setCur (i : Idx) (s : State) : State := { s with cur := i }

/-! ## Requests to the collaborators -/

/-- `hasMore()` of a source (20_memory.md R38, R40). A port with nothing attached never answers
(70_reset_and_hazards.md R106). -/
def askMore {α : Type} (r : Reply) (src : Option (List α)) : Answer Bool :=
  match src, r with
  | none, _ => .waiting
  | some _, .silent => .waiting
  | some _, .err => .err
  | some xs, .answer => .got (!xs.isEmpty)

/-- `read()` or `readBit()` of a source: the first item and what is left; made only after `hasMore()` answered
true, so an empty source has no answer to give (R38, R40). -/
def askItem {α : Type} (r : Reply) (src : Option (List α)) : Answer (α × List α) :=
  match src, r with
  | none, _ => .waiting
  | some _, .silent => .waiting
  | some _, .err => .err
  | some [], .answer => .waiting
  | some (x :: xs), .answer => .got (x, xs)

/-- `writeBit(x)` or `writeSym(x)` of a sink: what it then holds (R39, R41). -/
def askPut {α : Type} (r : Reply) (snk : Option (List α)) (x : α) : Answer (List α) :=
  match snk, r with
  | none, _ => .waiting
  | some _, .silent => .waiting
  | some _, .err => .err
  | some xs, .answer => .got (xs ++ [x])

end Sys2Proof.Machine
end

