-- ==== Sys2Proof/Machine/Operands.lean ====
section
/-! DEFINITION. What a word address names, who may reach it when, and how records and code entries are laid out
in words (20_memory.md R29, R31; 30_encoding.md R48, R49). -/

namespace Sys2Proof.Machine

/-- The registers at word addresses 0x000 to 0x00F (20_memory.md R29). -/
def registerAt : Nat → Region
  | 0 => .cmd
  | 1 => .status
  | 2 => .err
  | 3 => .tree
  | 4 => .cur
  | 5 => .ctsel
  | 6 => .ctlen
  | 7 => .reserved
  | j + 8 => .ctbits j

/-- The two words of the records at word addresses 0x400 to 0x7FD (20_memory.md R29). -/
def nodeWordAt (a : Nat) : Region :=
  if a % 2 = 0 then .attr ((a - 0x400) / 2) else .weight ((a - 0x400) / 2)

/-- What stands at the word address `a` (20_memory.md R29). -/
def regionAt (a : Nat) : Region :=
  if a < 0x010 then registerAt a
  else if a < 0x100 then .reserved
  else if a < 0x200 then .ft (a - 0x100)
  else if a < 0x400 then .reserved
  else if a < 0x7FE then nodeWordAt a
  else .reserved

/-- The address map (20_memory.md R29). -/
def regionOf (addr : Addr) : Region := regionAt addr.toNat

/-- Which reads are performed, by run state (20_memory.md R31). -/
def readPerformed (ph : Phase) : Region → Bool
  | .cmd => false
  | .reserved => false
  | .status => true
  | .err => true
  | .tree => decide (ph ≠ .busy)
  | .cur => decide (ph ≠ .busy)
  | .ctsel => decide (ph ≠ .busy)
  | .ctlen => decide (ph ≠ .busy)
  | .ctbits _ => decide (ph ≠ .busy)
  | .ft _ => decide (ph ≠ .busy)
  | .attr _ => decide (ph ≠ .busy)
  | .weight _ => decide (ph ≠ .busy)

/-- Which writes are performed, by run state and, for CMD in FAULT, by the word (20_memory.md R31). -/
def writePerformed (ph : Phase) (v : Word) : Region → Bool
  | .cmd =>
    match ph with
    | .idle => true
    | .busy => false
    | .fault => decide (v = 1)
  | .ctsel => decide (ph ≠ .busy)
  | .ft _ => decide (ph = .idle)
  | .attr _ => decide (ph = .idle)
  | .weight _ => decide (ph = .idle)
  | .status => false
  | .err => false
  | .tree => false
  | .cur => false
  | .ctlen => false
  | .ctbits _ => false
  | .reserved => false

/-- The ATTR word of a record (30_encoding.md R48). -/
def attrWord (nd : Node) : Word :=
  0#3 ++ BitVec.ofBool nd.hasRight ++ nd.right ++ BitVec.ofBool nd.hasLeft ++ nd.left
    ++ BitVec.ofBool nd.hasSym ++ nd.sym

/-- The record with the six fields of an ATTR word and the weight it had; bits 31:29 are not stored
(30_encoding.md R48, 45_control.md R87). -/
def withAttr (nd : Node) (v : Word) : Node :=
  { nd with
    sym := v.extractLsb' 0 8
    hasSym := v.getLsbD 8
    left := v.extractLsb' 9 9
    hasLeft := v.getLsbD 18
    right := v.extractLsb' 19 9
    hasRight := v.getLsbD 28 }

/-- The leaf record BUILD writes: ATTR = 0x00000100 + sym (30_encoding.md R48). -/
def leafNode (x : Sym) (c : Word) : Node :=
  { Node.zero with hasSym := true, sym := x, weight := c }

/-- The inner record BUILD writes: ATTR = 0x10040000 + (right << 19) + (left << 9) (30_encoding.md R48). -/
def innerNode (l r : Idx) (w : Word) : Node :=
  { Node.zero with hasLeft := true, left := l, hasRight := true, right := r, weight := w }

/-- The number whose binary digits, least significant first, are a bit sequence. -/
def bitsValue : List Bool → Nat
  | [] => 0
  | b :: bs => (if b then 1 else 0) + 2 * bitsValue bs

/-- CTLEN of an entry: `len` in bits 7:0, `valid` in bit 31 (30_encoding.md R49). -/
def ctlenWord (e : CodeEntry) : Word := BitVec.ofBool e.valid ++ 0#23 ++ e.len

/-- CTBITSj of an entry: its bit `b` is code bit `32*j + b` when that is below `len`, else 0 (30_encoding.md R49). -/
def ctbitsWord (e : CodeEntry) (j : Nat) : Word :=
  BitVec.ofNat 32 (bitsValue (((e.bits.take e.len.toNat).drop (32 * j)).take 32))

end Sys2Proof.Machine
end

