-- ==== Sys2Proof/Machine/Flags.lean ====
section
/-! DEFINITION. The flags, the read-only words and the pins, all computed from the state (10_state.md R19, R21,
R23), and what a performed read answers (20_memory.md R29). -/

namespace Sys2Proof.Machine

/-- STATUS.BUSY (10_state.md R19). -/
def busyFlag (s : State) : Bool := decide (s.ph = .busy)

/-- STATUS.FAULT (10_state.md R19). -/
def faultFlag (s : State) : Bool := decide (s.ph = .fault)

/-- STATUS (10_state.md R19). -/
def statusWord (s : State) : Word :=
  0#16 ++ s.op ++ 0#2 ++ s.ts.code ++ 0#1 ++ BitVec.ofBool (faultFlag s) ++ BitVec.ofBool s.done
    ++ BitVec.ofBool (busyFlag s)

/-- TREE: NSYM in bits 24:16, ROOT in bits 8:0 (10_state.md R21). -/
def treeWord (s : State) : Word := 0#7 ++ s.nsym ++ 0#7 ++ s.root

/-- CUR in bits 8:0 (10_state.md R21). -/
def curWord (s : State) : Word := 0#23 ++ s.cur

/-- CTSEL in bits 7:0 (10_state.md R21). -/
def ctselWord (s : State) : Word := 0#24 ++ s.ctsel

/-- The entry the read window shows: `CT[CTSEL]` (10_state.md R21). -/
def windowEntry (s : State) : CodeEntry := ctGet s.ct s.ctsel.toNat

/-- The word a performed read of a region answers (20_memory.md R29); CMD and reserved addresses hold none. -/
def regionWord (s : State) : Region → Word
  | .cmd => 0
  | .reserved => 0
  | .status => statusWord s
  | .err => s.err
  | .tree => treeWord s
  | .cur => curWord s
  | .ctsel => ctselWord s
  | .ctlen => ctlenWord (windowEntry s)
  | .ctbits j => ctbitsWord (windowEntry s) j
  | .ft x => ftGet s.ft x
  | .attr i => attrWord (nmGet s.nm i)
  | .weight i => (nmGet s.nm i).weight

/-- The level output pins (10_state.md R23). -/
structure Pins where
  busy : Bool
  done : Bool
  fault : Bool
  deriving DecidableEq, Repr

/-- The pins equal STATUS.BUSY, STATUS.DONE and STATUS.FAULT at all times (10_state.md R23). -/
def pins (s : State) : Pins := { busy := busyFlag s, done := s.done, fault := faultFlag s }

end Sys2Proof.Machine
end

