-- ==== Sys2Proof/Machine/Build.lean ====
section
/-! DEFINITION. BUILD, tree construction (41_tree_build.md R58 to R64). -/

namespace Sys2Proof.Machine

/-- What BUILD works on: the node memory, the queue PQ (oldest member first) and `n`, the next free index
(41_tree_build.md R58, 10_state.md R22). -/
structure Forest where
  nm : Memory Node
  pq : List Nat
  next : Nat
  deriving DecidableEq, Repr

/-- The weight of node `i`, an unsigned number (41_tree_build.md R63). -/
def weightOf (nm : Memory Node) (i : Nat) : Nat := (nmGet nm i).weight.toNat

/-- Seeding of one symbol: a present entry of FT gets a leaf at the next index and enters the queue
(41_tree_build.md R58, R59). -/
def seedSymbol (ft : Memory Word) (f : Forest) (x : Nat) : Forest :=
  if ftGet ft x = 0 then f
  else { nm := nmSet f.nm f.next (leafNode (BitVec.ofNat 8 x) (ftGet ft x)), pq := f.pq ++ [f.next], next := f.next + 1 }

/-- Seeding: FT in ascending symbol value (41_tree_build.md R59). -/
def seed (ft : Memory Word) : Forest :=
  (List.range Config.nSymbols).foldl (seedSymbol ft) { nm := [], pq := [], next := 0 }

/-- The order of the queue: least weight first, among equal weights the greatest index first
(41_tree_build.md R60). -/
def comesBefore (nm : Memory Node) (x y : Nat) : Bool :=
  decide (weightOf nm x < weightOf nm y) || (decide (weightOf nm x = weightOf nm y) && decide (y < x))

/-- The member of `best :: rest` that comes before all others. -/
def leastOf (nm : Memory Node) (best : Nat) : List Nat → Nat
  | [] => best
  | x :: rest => leastOf nm (if comesBefore nm x best then x else best) rest

/-- `removeMin`: the member that comes before all others, and the queue without it (41_tree_build.md R60). -/
def removeMin (nm : Memory Node) : List Nat → Option (Nat × List Nat)
  | [] => none
  | x :: rest => some (leastOf nm x rest, (x :: rest).erase (leastOf nm x rest))

/-- How merging goes on after one look at the queue. -/
inductive MergeStep where
  /-- Fewer than two members: merging has ended (41_tree_build.md R62). -/
  | done
  /-- One merge was made (R61). -/
  | merged (f : Forest)
  /-- The sum passed `W_MAX`; the two removed nodes are no longer in the queue, nothing is stored (R63). -/
  | overflow (f : Forest)
  deriving DecidableEq, Repr

/-- One merge: `a` then `b` are removed, node `n` gets `left = a`, `right = b` and the sum of their weights, and
enters the queue; the sum is formed without wrap-around and compared with `W_MAX` first
(41_tree_build.md R58, R61, R63). -/
def mergeOnce (f : Forest) : MergeStep :=
  match removeMin f.nm f.pq with
  | none => .done
  | some (a, q) =>
    match removeMin f.nm q with
    | none => .done
    | some (b, q') =>
      if weightOf f.nm a + weightOf f.nm b > Config.wMax then .overflow { f with pq := q' }
      else .merged
        { nm := nmSet f.nm f.next
            (innerNode (BitVec.ofNat 9 a) (BitVec.ofNat 9 b)
              (BitVec.ofNat 32 (weightOf f.nm a + weightOf f.nm b)))
          pq := q' ++ [f.next]
          next := f.next + 1 }

/-- How BUILD's merging ends. -/
inductive MergeEnd where
  | done (f : Forest)
  | overflow (f : Forest)
  deriving DecidableEq, Repr

/-- Merging until fewer than two members remain. Each merge shrinks the queue by one (41_tree_build.md R61), so
the queue's length bounds the loop. -/
def mergeAll : Nat → Forest → MergeEnd
  | 0, f => .done f
  | fuel + 1, f =>
    match mergeOnce f with
    | .done => .done f
    | .overflow g => .overflow g
    | .merged g => mergeAll fuel g

/-- What BUILD clears before it seeds (41_tree_build.md R58). -/
def clearForBuild (s : State) : State :=
  { s with ct := [], nm := [], ts := .noTree, root := 0, nsym := 0, pq := [], next := 0 }

/-- The forest becomes the block's NM, PQ and `n`. -/
def withForest (f : Forest) (s : State) : State := { s with nm := f.nm, pq := f.pq, next := f.next }

/-- The end of construction: with one member left it is the root, NSYM is the number of leaves, TS is FINAL and
the queue is emptied; with none there is no tree (41_tree_build.md R62). -/
def finishBuild (leaves : Nat) (f : Forest) (s : State) : State :=
  match f.pq with
  | [r] => complete (finaliseTree r leaves (withForest { f with pq := [] } s))
  | _ => complete (withForest f s)

/-- BUILD (41_tree_build.md R58): clear, seed, merge, then finish or raise WEIGHT_OVF with INFO = the index the
new node would have had (R63). -/
def execBuild (s : State) : Host.Outcome State Fault Refusal :=
  let f := seed s.ft
  match mergeAll f.pq.length f with
  | .done g => .next (finishBuild f.next g (clearForBuild s))
  | .overflow g => .next (raiseFault .weightOvf (BitVec.ofNat 16 g.next) (withForest g (clearForBuild s)))

end Sys2Proof.Machine
end

