-- ==== Sys2Proof/Machine/Control.lean ====
section
/-! DEFINITION. CLR (45_control.md R85). -/

namespace Sys2Proof.Machine

/-- CLR: every piece of state to its reset value, `OP <- 0x01`, complete (45_control.md R85). -/
def execClr (s : State) : Host.Outcome State Fault Refusal :=
  .next (complete { blockReset s with op := 0x01 })

end Sys2Proof.Machine
end

