-- ==== Sys2Proof/Machine/Dec.lean ====
section
/-! DEFINITION. DEC, bit-level decoding, as its acceptance and micro-steps (44_decoder.md R78 to R82). -/

namespace Sys2Proof.Machine

/-- DEC from its acceptance: TREE_OPEN on an open tree; with no tree the one question of R82; on a finalised
tree `CUR <- ROOT` and the loop (44_decoder.md R78). -/
def execDec (s : State) : Host.Outcome State Fault Refusal :=
  match s.ts with
  | .openTree => .next (raiseFault .treeOpen 0 s)
  | .noTree => .next (goto .dNoTree s)
  | .finalTree => .next (goto .d0 (setCur s.root s))

/-- DEC with no tree asks `BI.hasMore` once: true raises NO_TREE_BITS without reading the bit, false completes
(44_decoder.md R82). -/
def stepDNoTree (r : Reply) (s : State) : State :=
  match askMore r s.bi with
  | .waiting => s
  | .err => raiseFault .biErr 0 s
  | .got true => raiseFault .noTreeBits 0 s
  | .got false => complete s

/-- D0: true goes to D1; false completes when CUR is at ROOT and otherwise raises TRUNCATED with INFO = CUR
(44_decoder.md R79, R80). -/
def stepD0 (r : Reply) (s : State) : State :=
  match askMore r s.bi with
  | .waiting => s
  | .err => raiseFault .biErr 0 s
  | .got true => goto .d1 s
  | .got false => if s.cur = s.root then complete s else raiseFault .truncated (s.cur.setWidth 16) s

/-- `leaf(ROOT)`: the single-leaf tree (44_decoder.md R81). -/
def rootIsLeaf (s : State) : Bool := (nmGet s.nm s.root.toNat).isLeaf

/-- The node whose symbol is emitted: the root on a single-leaf tree, else the leaf at CUR (44_decoder.md R78). -/
def emitIndex (s : State) : Idx := if rootIsLeaf s then s.root else s.cur

/-- The node the bit `b` leads to: CUR's left child on 0, its right child on 1 (44_decoder.md R79). -/
def nextNode (b : Bool) (s : State) : Idx := (nmGet s.nm s.cur.toNat).child b

/-- One bit read: on a single-leaf tree every bit emits and CUR stays (44_decoder.md R81). -/
def decodeBitLeaf (s : State) : Host.Outcome State Fault Refusal :=
  if isRecord s.root.toNat then .next (goto .d2 s) else .fault .noSuchNode

/-- One bit read below an inner root: CUR moves to the child, and a leaf is emitted (44_decoder.md R79). No
finalised tree leads to an index that names no record; where one would, the model stops (log entry 9). -/
def decodeBitInner (b : Bool) (s : State) : Host.Outcome State Fault Refusal :=
  if !isRecord s.cur.toNat || !isRecord (nextNode b s).toNat then .fault .noSuchNode
  else if (nmGet s.nm (nextNode b s).toNat).isLeaf then .next (goto .d2 (setCur (nextNode b s) s))
  else .next (goto .d0 (setCur (nextNode b s) s))

/-- One bit read (44_decoder.md R78). -/
def decodeBit (b : Bool) (s : State) : Host.Outcome State Fault Refusal :=
  if rootIsLeaf s then decodeBitLeaf s else decodeBitInner b s

/-- D1: the bit is taken from BI; `err` raises BI_ERR and takes nothing (44_decoder.md R79). -/
def stepD1 (r : Reply) (s : State) : Host.Outcome State Fault Refusal :=
  match askItem r s.bi with
  | .waiting => .next s
  | .err => .next (raiseFault .biErr 0 s)
  | .got (b, bs) => decodeBit b { s with bi := some bs }

/-- D2: the symbol is given to SO, then `CUR <- ROOT`; `err` raises SO_ERR, delivers nothing and leaves CUR
(44_decoder.md R79). -/
def stepD2 (r : Reply) (s : State) : Host.Outcome State Fault Refusal :=
  if !isRecord (emitIndex s).toNat then .fault .noSuchNode
  else
    match askPut r s.so (nmGet s.nm (emitIndex s).toNat).sym with
    | .waiting => .next s
    | .err => .next (raiseFault .soErr 0 s)
    | .got xs => .next (goto .d0 (setCur s.root { s with so := some xs }))

end Sys2Proof.Machine
end

