-- ==== Sys2Proof/Machine/Enc.lean ====
section
/-! DEFINITION. ENC, bit-level encoding, as its acceptance and three micro-steps (43_encoder.md R73, R74). -/

namespace Sys2Proof.Machine

/-- ENC from its acceptance: the engine is about to ask `SI.hasMore`; TS and NM are not looked at
(43_encoder.md R73). -/
def execEnc (s : State) : Host.Outcome State Fault Refusal :=
  .next (goto .e0 s)

/-- The entry of the symbol being sent: `CT[ESYM]` (43_encoder.md R74). -/
def encEntry (s : State) : CodeEntry := ctGet s.ct s.esym.toNat

/-- The loop test `EPOS < CT[ESYM].len`: another bit of this code, or the next symbol (43_encoder.md R73, R74). -/
def encLoop (s : State) : State :=
  if s.epos.toNat < (encEntry s).len.toNat then goto .e2 s else goto .e0 s

/-- E0: true goes to E1, false completes, `err` raises SI_ERR (43_encoder.md R74). -/
def stepE0 (r : Reply) (s : State) : State :=
  match askMore r s.si with
  | .waiting => s
  | .err => raiseFault .siErr 0 s
  | .got true => goto .e1 s
  | .got false => complete s

/-- The symbol read becomes ESYM and EPOS is 0; without a code NO_CODE is raised with INFO = the symbol
(43_encoder.md R74, R75). -/
def startSymbol (x : Sym) (s : State) : State :=
  let t := { s with esym := x, epos := 0 }
  if (encEntry t).valid then encLoop t else raiseFault .noCode (x.setWidth 16) t

/-- E1: the symbol is taken from SI; `err` raises SI_ERR and takes nothing (43_encoder.md R74). -/
def stepE1 (r : Reply) (s : State) : State :=
  match askItem r s.si with
  | .waiting => s
  | .err => raiseFault .siErr 0 s
  | .got (x, xs) => startSymbol x { s with si := some xs }

/-- The bit `CT[ESYM].bits[EPOS]` (43_encoder.md R73). -/
def encBit (s : State) : Bool := (encEntry s).bits.getD s.epos.toNat false

/-- E2: the bit is given to BO, then EPOS is incremented; `err` raises BO_ERR and delivers nothing
(43_encoder.md R74). -/
def stepE2 (r : Reply) (s : State) : State :=
  match askPut r s.bo (encBit s) with
  | .waiting => s
  | .err => raiseFault .boErr 0 s
  | .got bits => encLoop { s with bo := some bits, epos := s.epos + 1 }

end Sys2Proof.Machine
end

