-- ==== Sys2Proof/Machine/Fin.lean ====
section
/-! DEFINITION. FIN, the check and finalisation of a tree the host loaded (41_tree_build.md R65, R66). -/

namespace Sys2Proof.Machine

/-- What the check keeps while it walks: the visited indices V and the symbols seen at leaves Y
(41_tree_build.md R66). -/
structure Seen where
  visited : List Nat
  symbols : List Sym
  deriving DecidableEq, Repr

/-- `visit(i)` of the check, with the tests c1 to c8 in their order, left subtree before right; an error is the
index at which the first test failed (41_tree_build.md R66). By c7 every child's index is below its parent's, so
fuel above `i` is never used up. -/
def visit (nm : Memory Node) : Nat → Nat → Seen → Except Nat Seen
  | 0, i, _ => .error i
  | fuel + 1, i, v =>
    let nd := nmGet nm i
    if !isRecord i then .error i                                              -- c1
    else if i ∈ v.visited then .error i                                       -- c2
    else if nd.hasLeft ≠ nd.hasRight then .error i                            -- c3
    else if !nd.hasLeft then
      if !nd.hasSym then .error i                                             -- c4
      else if nd.sym ∈ v.symbols then .error i                                -- c5
      else .ok { visited := i :: v.visited, symbols := nd.sym :: v.symbols }
    else if nd.hasSym then .error i                                           -- c6
    else if ¬(nd.left.toNat < i ∧ nd.right.toNat < i) then .error i           -- c7
    else if nd.weight.toNat ≠ (nmGet nm nd.left.toNat).weight.toNat + (nmGet nm nd.right.toNat).weight.toNat then
      .error i                                                                -- c8
    else
      match visit nm fuel nd.left.toNat { v with visited := i :: v.visited } with
      | .error x => .error x
      | .ok v' => visit nm fuel nd.right.toNat v'

/-- `check(r)`: the number of leaves, or the index at which the first test failed (41_tree_build.md R66). -/
def check (nm : Memory Node) (r : Nat) : Except Nat Nat :=
  match visit nm (r + 1) r { visited := [], symbols := [] } with
  | .error x => .error x
  | .ok v => .ok v.symbols.length

/-- FIN idx: the tree is reopened and CT emptied, then the check decides between FINAL and TREE_MALFORMED with
INFO = the failing node (41_tree_build.md R65). -/
def execFin (idx : Nat) (s : State) : Host.Outcome State Fault Refusal :=
  match check s.nm idx with
  | .ok leaves => .next (complete (finaliseTree idx leaves (reopenTree s)))
  | .error x => .next (raiseFault .treeMalformed (BitVec.ofNat 16 x) (reopenTree s))

end Sys2Proof.Machine
end

