-- ==== Sys2Proof/Machine/Freq.lean ====
section
/-! DEFINITION. FREQ, frequency analysis, as its acceptance and two micro-steps (40_freq.md R55, R56). -/

namespace Sys2Proof.Machine

/-- FREQ from its acceptance: FT is cleared and the engine is about to ask `SI.hasMore` (40_freq.md R55, R56). -/
def execFreq (s : State) : Host.Outcome State Fault Refusal :=
  .next (goto .f0 { s with ft := [] })

/-- F0: true goes to F1, false completes, `err` raises SI_ERR (40_freq.md R56). -/
def stepF0 (r : Reply) (s : State) : State :=
  match askMore r s.si with
  | .waiting => s
  | .err => raiseFault .siErr 0 s
  | .got true => goto .f1 s
  | .got false => complete s

/-- One symbol counted: COUNT_OVF when its count is already `W_MAX`, else the increment (40_freq.md R55). -/
def countSymbol (x : Sym) (s : State) : State :=
  if (ftGet s.ft x.toNat).toNat = Config.wMax then raiseFault .countOvf (x.setWidth 16) s
  else goto .f0 { s with ft := ftSet s.ft x.toNat (ftGet s.ft x.toNat + 1) }

/-- F1: the symbol is taken from SI, then counted; `err` raises SI_ERR and takes nothing (40_freq.md R55, R56). -/
def stepF1 (r : Reply) (s : State) : State :=
  match askItem r s.si with
  | .waiting => s
  | .err => raiseFault .siErr 0 s
  | .got (x, xs) => countSymbol x { s with si := some xs }

end Sys2Proof.Machine
end

