-- ==== Sys2Proof/Machine/Gen.lean ====
section
/-! DEFINITION. GEN, code-table generation (42_code_table.md R68 to R72). -/

namespace Sys2Proof.Machine

/-- A valid entry with the code `p` (42_code_table.md R69). -/
def codeOf (p : List Bool) : CodeEntry := { valid := true, len := BitVec.ofNat 8 p.length, bits := p }

/-- `walk(i, p)`: at a leaf the path is recorded for its symbol, else left with `p ++ "0"`, then right with
`p ++ "1"` (42_code_table.md R69). A finalised tree has depth at most 255 and only records 0..510
(30_encoding.md R50, 41_tree_build.md R66); on a node memory that breaks this the walk has no meaning and stops
(log entry 8). -/
def walk (nm : Memory Node) : Nat → Nat → List Bool → Memory CodeEntry → Except Fault (Memory CodeEntry)
  | 0, _, _, _ => .error .codeTooLong
  | fuel + 1, i, p, ct =>
    if !isRecord i then .error .noSuchNode
    else if (nmGet nm i).isLeaf then .ok (ctSet ct (nmGet nm i).sym.toNat (codeOf p))
    else
      match walk nm fuel (nmGet nm i).left.toNat (p ++ [false]) ct with
      | .error x => .error x
      | .ok ct' => walk nm fuel (nmGet nm i).right.toNat (p ++ [true]) ct'

/-- The table of the tree at `r`: the fixed one-bit code "0" when the root is a leaf, else the recorded paths
(42_code_table.md R68, R70). -/
def codeTable (nm : Memory Node) (r : Nat) : Except Fault (Memory CodeEntry) :=
  if isRecord r && (nmGet nm r).isLeaf then .ok (ctSet [] (nmGet nm r).sym.toNat (codeOf [false]))
  else walk nm (Config.lenMax + 1) r [] []

/-- GEN (42_code_table.md R68): TREE_OPEN before CT is touched; the empty table with no tree (R71); the tree's
table otherwise. -/
def execGen (s : State) : Host.Outcome State Fault Refusal :=
  match s.ts with
  | .openTree => .next (raiseFault .treeOpen 0 s)
  | .noTree => .next (complete { s with ct := [] })
  | .finalTree =>
    match codeTable s.nm s.root.toNat with
    | .ok ct => .next (complete { s with ct := ct })
    | .error x => .fault x

end Sys2Proof.Machine
end

