-- ==== Sys2Proof/Machine/Dispatch.lean ====
section
/-! DEFINITION. The meaning of each command, from the state at its acceptance (45_control.md R88): to the state at
its end for CLR, BUILD, GEN and FIN, to its first micro-step for FREQ, ENC and DEC (00_scope.md R8). -/

namespace Sys2Proof.Machine

def exec (i : Instr) (s : State) : Host.Outcome State Fault Refusal :=
  match i with
  | .clr => Sys2Proof.Machine.execClr s
  | .freq => Sys2Proof.Machine.execFreq s
  | .build => Sys2Proof.Machine.execBuild s
  | .gen => Sys2Proof.Machine.execGen s
  | .enc => Sys2Proof.Machine.execEnc s
  | .dec => Sys2Proof.Machine.execDec s
  | .fin idx => Sys2Proof.Machine.execFin idx s

end Sys2Proof.Machine
end

