-- ==== Sys2Proof/Machine/Engine.lean ====
section
/-! DEFINITION. One turn of the engine: the micro-step of the running command, or nothing (00_scope.md R8,
20_memory.md R42 (d)). -/

namespace Sys2Proof.Machine

/-- The micro-step at the point of the running command, its request meeting the reply `r` (40_freq.md R56,
43_encoder.md R74, 44_decoder.md R79, R82). -/
def microStep (r : Reply) (s : State) : Host.Outcome State Fault Refusal :=
  match s.pt with
  | .rest => .fault .noMicroStep
  | .f0 => .next (stepF0 r s)
  | .f1 => .next (stepF1 r s)
  | .e0 => .next (stepE0 r s)
  | .e1 => .next (stepE1 r s)
  | .e2 => .next (stepE2 r s)
  | .dNoTree => .next (stepDNoTree r s)
  | .d0 => .next (stepD0 r s)
  | .d1 => stepD1 r s
  | .d2 => stepD2 r s

/-- The engine's turn: it has a step only while a command runs; in IDLE and in FAULT it waits (10_state.md R18,
R25, 60_exceptions.md R95). -/
def engineTurn (r : Reply) (s : State) : Host.Outcome State Fault Refusal :=
  match s.ph with
  | .idle => .next s
  | .fault => .next s
  | .busy => microStep r s

end Sys2Proof.Machine
end

