-- ==== Sys2Proof/Machine/HostPort.lean ====
section
/-! DEFINITION. The host's acts: register read and write, command issue, attaching streams, reset
(45_control.md R86 to R89, 10_state.md R24, 70_reset_and_hazards.md R101). -/

namespace Sys2Proof.Machine

/-- The host port answers an access (45_control.md R86, R87). -/
def answerHost (a : HostAnswer) (s : State) : State := { s with resp := a }

/-- Host read: refused without data, or answered with the word at the address; nothing else changes
(45_control.md R86, 20_memory.md R31, R33). -/
def hostRead (addr : Addr) (s : State) : State :=
  if readPerformed s.ph (regionOf addr) then answerHost (.data (regionWord s (regionOf addr))) s
  else answerHost .refused s

/-- Issue of the word `v`: acceptance, then BAD_CMD with INFO = `v[31:16]` for an illegal word, else the command
runs (45_control.md R88, R89). -/
def issue (v : Word) (s : State) : Host.Outcome State Fault Refusal :=
  match decode v with
  | .error _ => .next (raiseFault .badCmd (v.extractLsb' 16 16) (accept v s))
  | .ok i => exec i (accept v s)

/-- A performed write of `v` (45_control.md R87, 20_memory.md R32). -/
def writeRegion (v : Word) (s : State) : Region → Host.Outcome State Fault Refusal
  | .cmd => issue v s
  | .ctsel => .next { s with ctsel := v.extractLsb' 0 8 }
  | .ft x => .next { s with ft := ftSet s.ft x v }
  | .attr i => .next (reopenTree { s with nm := nmSet s.nm i (withAttr (nmGet s.nm i) v) })
  | .weight i => .next (reopenTree { s with nm := nmSet s.nm i { nmGet s.nm i with weight := v } })
  | .status => .next s
  | .err => .next s
  | .tree => .next s
  | .cur => .next s
  | .ctlen => .next s
  | .ctbits _ => .next s
  | .reserved => .next s

/-- Host write: refused with no state change, or performed (45_control.md R87, 20_memory.md R31). -/
def hostWrite (addr : Addr) (v : Word) (s : State) : Host.Outcome State Fault Refusal :=
  if writePerformed s.ph v (regionOf addr) then writeRegion v (answerHost .done s) (regionOf addr)
  else .next (answerHost .refused s)

/-- Attaching a stream: allowed whenever PH is not BUSY (10_state.md R24); while BUSY the spec forbids it and
gives it no effect (70_reset_and_hazards.md R106, log entry 5). -/
def attach (t : State) (s : State) : Host.Outcome State Fault Refusal :=
  match s.ph with
  | .busy => .refused .attachWhileBusy
  | .idle => .next t
  | .fault => .next t

/-- Reset: every piece of the block's state at its reset value, in any run state; the sinks keep what they had
received (70_reset_and_hazards.md R101). -/
def applyReset (s : State) : State := answerHost .quiet (blockReset s)

end Sys2Proof.Machine
end

