-- ==== Sys2Proof/Machine/Step.lean ====
section
/-! DEFINITION. One step of the machine: the oldest event of the outside's plan happens (00_scope.md R8; log entry
2); and where a command word is placed so that the next step issues it (log entry 3). -/

namespace Sys2Proof.Machine

/-- What an event does to the machine. -/
def happen (e : Event) (s : State) : Host.Outcome State Fault Refusal :=
  match e with
  | .read addr => .next (hostRead addr s)
  | .write addr v => hostWrite addr v s
  | .attachSI xs => attach { s with si := some xs } s
  | .attachBO => attach { s with bo := some [] } s
  | .attachBI bs => attach { s with bi := some bs } s
  | .attachSO => attach { s with so := some [] } s
  | .rst => .next (applyReset s)
  | .turn r => engineTurn r s

/-- One step: the oldest planned event happens; with nothing planned the engine has the turn and the
collaborators answer (log entry 2). -/
def step (s : State) : Host.Outcome State Fault Refusal :=
  match s.plan with
  | [] => engineTurn .answer s
  | e :: rest => happen e { s with plan := rest }

/-- The state in which the next event is the host's write of a command word to CMD and CMD writes are performed
(45_control.md R88, 20_memory.md R31). -/
def State.withFetchWord (s : State) (nbits w : Nat) : State :=
  { s with
    plan := .write 0 (BitVec.ofNat 32 (w % 2 ^ nbits)) :: s.plan
    ph := .idle
    pt := .rest }

end Sys2Proof.Machine
end

