-- ==== Sys2Proof/Safety.lean ====
section
/-! DEFINITION. The terms in which claims about the machine are stated: trees and paths in NM, what a table
encodes, runs, and the invariants of the spec (10_state.md R13 to R20, R26). -/

namespace Sys2Proof.Machine

/-! ## Runs -/

/-- `t` is reached from `s` by some number of steps. -/
def Reaches (s t : State) : Prop := ∃ k, Host.Core.run Sys2Proof.core k s = .next t

/-! ## The host's accesses -/

/-- The reads 20_memory.md R31 refuses, by run state and word address: CMD and every reserved address always, all
but STATUS and ERR while BUSY. -/
def ReadRefusedAt (ph : Phase) (a : Nat) : Prop :=
  a = 0x000 ∨ a = 0x007 ∨ (0x010 ≤ a ∧ a ≤ 0x0FF) ∨ (0x200 ≤ a ∧ a ≤ 0x3FF) ∨ 0x7FE ≤ a ∨
    (ph = .busy ∧ a ≠ 0x001 ∧ a ≠ 0x002)

/-- The writes 20_memory.md R31 refuses, by run state, word address and, for CMD in FAULT, the word: read-only and
reserved addresses always, everything while BUSY, everything but CTSEL and the word CLR in FAULT. -/
def WriteRefusedAt (ph : Phase) (a : Nat) (v : Word) : Prop :=
  (0x001 ≤ a ∧ a ≤ 0x004) ∨ (0x006 ≤ a ∧ a ≤ 0x0FF) ∨ (0x200 ≤ a ∧ a ≤ 0x3FF) ∨ 0x7FE ≤ a ∨ ph = .busy ∨
    (ph = .fault ∧ a ≠ 0x005 ∧ ¬(a = 0x000 ∧ v = 0x00000001))

/-- The word 20_memory.md R29 places at a word address. -/
structure WordAt (s : State) (a : Nat) (w : Word) : Prop where
  status : a = 0x001 → w = statusWord s
  err : a = 0x002 → w = s.err
  tree : a = 0x003 → w = treeWord s
  cur : a = 0x004 → w = curWord s
  ctsel : a = 0x005 → w = ctselWord s
  ctlen : a = 0x006 → w = ctlenWord (ctGet s.ct s.ctsel.toNat)
  ctbits : ∀ j, j < 8 → a = 0x008 + j → w = ctbitsWord (ctGet s.ct s.ctsel.toNat) j
  ft : ∀ x, x < 256 → a = 0x100 + x → w = ftGet s.ft x
  attr : ∀ i, i < 511 → a = 0x400 + 2 * i → w = attrWord (nmGet s.nm i)
  weight : ∀ i, i < 511 → a = 0x401 + 2 * i → w = (nmGet s.nm i).weight

/-- The fault record of `raise Fault(CAUSE, info)` (60_exceptions.md R92): CAUSE in bits 7:0, STAGE = OP in bits
15:8, INFO in bits 31:16. -/
def FaultRecorded (t : State) (c : Cause) (info : Nat) : Prop :=
  t.ph = .fault ∧ t.err.toNat = c.code.toNat + 256 * t.op.toNat + 65536 * info

/-! ## What the next event is -/

/-- The next event issues the command `i` and it is accepted (45_control.md R88). -/
def Issues (s : State) (i : Instr) : Prop :=
  (s.ph = .idle ∨ (s.ph = .fault ∧ i = .clr)) ∧ ∃ v rest, s.plan = .write 0 v :: rest ∧ decode v = .ok i

/-- The next event is a host write to a word address from `lo` to `hi`. -/
def WritesBetween (s : State) (lo hi : Nat) : Prop :=
  ∃ addr v rest, s.plan = .write addr v :: rest ∧ lo ≤ addr.toNat ∧ addr.toNat ≤ hi

/-- The next event clears the block: CLR is accepted or reset is applied. -/
def Clears (s : State) : Prop := Issues s .clr ∨ ∃ rest, s.plan = .rst :: rest

/-- A command with this opcode is running. -/
def Running (s : State) (op : BitVec 8) : Prop := s.ph = .busy ∧ s.op = op

/-! ## Trees in node memory -/

/-- WF(r): the check of 41_tree_build.md R66 succeeds at `r`. -/
def WellFormedTree (nm : Memory Node) (r : Nat) : Prop := ∃ leaves, check nm r = .ok leaves

/-- The node at the end of the path `p` from node `i`, 0 for left and 1 for right; a path does not go on below a
leaf (30_encoding.md R50). -/
def follow (nm : Memory Node) : Nat → List Bool → Option Nat
  | i, [] => some i
  | i, b :: p => if (nmGet nm i).isLeaf then none else follow nm ((nmGet nm i).child b).toNat p

/-- `p` is the path from `r` to a leaf that carries the symbol `x`. -/
def PathToSymbol (nm : Memory Node) (r : Nat) (p : List Bool) (x : Sym) : Prop :=
  ∃ i, follow nm r p = some i ∧ (nmGet nm i).isLeaf = true ∧ (nmGet nm i).sym = x

/-- Node `i` can be reached from node `r`. -/
def Reachable (nm : Memory Node) (r i : Nat) : Prop := ∃ p, follow nm r p = some i

/-- `q` comes before `p` in pre-order, a node before its subtrees and the left subtree before the right
(41_tree_build.md R66). -/
def VisitedBefore : List Bool → List Bool → Prop
  | _, [] => False
  | [], _ :: _ => True
  | b :: q, c :: p => (b = false ∧ c = true) ∨ (b = c ∧ VisitedBefore q p)

/-- The node `i` at the path `p` from `r` passes the tests c1 to c8 of 41_tree_build.md R66; V and Y are the indices
and the leaf symbols of the nodes that come before it. -/
structure PassesTests (nm : Memory Node) (r : Nat) (p : List Bool) (i : Nat) : Prop where
  c1 : i ≤ 510
  c2 : ∀ q, VisitedBefore q p → follow nm r q ≠ some i
  c3 : (nmGet nm i).hasLeft = (nmGet nm i).hasRight
  c4 : (nmGet nm i).hasLeft = false → (nmGet nm i).hasSym = true
  c5 : (nmGet nm i).hasLeft = false → ∀ q j, VisitedBefore q p → follow nm r q = some j →
    (nmGet nm j).isLeaf = true → (nmGet nm j).sym ≠ (nmGet nm i).sym
  c6 : (nmGet nm i).hasLeft = true → (nmGet nm i).hasSym = false
  c7 : (nmGet nm i).hasLeft = true → (nmGet nm i).left.toNat < i ∧ (nmGet nm i).right.toNat < i
  c8 : (nmGet nm i).hasLeft = true → (nmGet nm i).weight.toNat =
    (nmGet nm (nmGet nm i).left.toNat).weight.toNat + (nmGet nm (nmGet nm i).right.toNat).weight.toNat

/-- `x` is the first node of the walk from `r` that fails a test: every node before it passes all of them. -/
def FirstFailure (nm : Memory Node) (r x : Nat) : Prop :=
  ∃ p, follow nm r p = some x ∧ ¬PassesTests nm r p x ∧
    ∀ q i, VisitedBefore q p → follow nm r q = some i → PassesTests nm r q i

/-- The invariants of a finalised tree at `r` with `n` leaves, in terms of paths (10_state.md R13,
41_tree_build.md R66): only existing records (c1), both children or none (c3), symbols at leaves and nowhere else
(c4, c6), children numbered below their parent (c7), weights that sum up (c8), no sharing (c2), one leaf per
symbol (c5), and `n` the number of symbols. -/
structure TreeConditions (nm : Memory Node) (r n : Nat) : Prop where
  records : ∀ i, Reachable nm r i → i < Config.nodeMax
  pairs : ∀ i, Reachable nm r i → (nmGet nm i).hasLeft = (nmGet nm i).hasRight
  leaves : ∀ i, Reachable nm r i → (nmGet nm i).isLeaf = true → (nmGet nm i).hasSym = true
  inner : ∀ i, Reachable nm r i → (nmGet nm i).isLeaf = false →
    (nmGet nm i).hasSym = false ∧ (nmGet nm i).left.toNat < i ∧ (nmGet nm i).right.toNat < i ∧
    (nmGet nm i).weight.toNat =
      (nmGet nm (nmGet nm i).left.toNat).weight.toNat + (nmGet nm (nmGet nm i).right.toNat).weight.toNat
  noSharing : ∀ p q i, follow nm r p = some i → follow nm r q = some i → p = q
  distinct : ∀ p q x, PathToSymbol nm r p x → PathToSymbol nm r q x → p = q
  count : ∃ l : List Sym, l.Nodup ∧ l.length = n ∧ ∀ x, x ∈ l ↔ ∃ p, PathToSymbol nm r p x

/-! ## Frequency tables -/

/-- The number of occurrences of each symbol is what FT holds. -/
def CountsInput (ft : Memory Word) (xs : List Sym) : Prop :=
  ∀ x : Sym, (ftGet ft x.toNat).toNat = xs.count x

/-- The sum of all counts (41_tree_build.md R63). -/
def totalCount (ft : Memory Word) : Nat := ((List.range Config.nSymbols).map fun x => (ftGet ft x).toNat).sum

/-- The present symbols in ascending order; their number is the spec's `k` (10_state.md R11, 00_scope.md R9). -/
def presentSymbols (ft : Memory Word) : List Nat := (List.range Config.nSymbols).filter fun x => decide (ftGet ft x ≠ 0)

/-! ## Codes -/

/-- The code of a symbol: `CT[x].bits`. -/
def codeBits (ct : Memory CodeEntry) (x : Sym) : List Bool := (ctGet ct x.toNat).bits

/-- The bit stream of an input: the codes of its symbols one after another (30_encoding.md R52). -/
def encodedBits (ct : Memory CodeEntry) (xs : List Sym) : List Bool := xs.flatMap (codeBits ct)

/-- The symbol has a code. -/
def HasCode (ct : Memory CodeEntry) (x : Sym) : Prop := (ctGet ct x.toNat).valid = true

/-- Every valid entry has a length of 1 to 255 bits that is the length of its bit sequence; every other entry is
the invalid one (10_state.md R16). -/
def CodesConsistent (ct : Memory CodeEntry) : Prop :=
  ∀ x, (ctGet ct x = CodeEntry.invalid) ∨
    ((ctGet ct x).valid = true ∧ 1 ≤ (ctGet ct x).bits.length ∧ (ctGet ct x).bits.length ≤ Config.lenMax ∧
      (ctGet ct x).len.toNat = (ctGet ct x).bits.length)

/-! ## Invariants -/

/-- FT, NM and CT are in canonical form and list only entries the block has (10_state.md R10; log entry 1). -/
structure ArraysCanonical (s : State) : Prop where
  ftWf : Memory.wf 0 s.ft
  ftWithin : Memory.within Config.nSymbols s.ft
  nmWf : Memory.wf Node.zero s.nm
  nmWithin : Memory.within Config.nodeMax s.nm
  ctWf : Memory.wf CodeEntry.invalid s.ct
  ctWithin : Memory.within Config.nSymbols s.ct

/-- The run state agrees with itself: a command is at a point of its rule exactly while BUSY, the point belongs
to the command in OP, DONE is 1 only in IDLE, ERR is 0 exactly outside FAULT (10_state.md R18 to R20). -/
structure RunConsistent (s : State) : Prop where
  pointIffBusy : s.ph = .busy ↔ s.pt ≠ .rest
  pointOfFreq : s.pt = .f0 ∨ s.pt = .f1 → s.op = 0x02
  pointOfEnc : s.pt = .e0 ∨ s.pt = .e1 ∨ s.pt = .e2 → s.op = 0x05
  pointOfDec : s.pt = .dNoTree ∨ s.pt = .d0 ∨ s.pt = .d1 ∨ s.pt = .d2 → s.op = 0x06
  doneOnlyIdle : s.done = true → s.ph = .idle
  errIffFault : s.err ≠ 0 ↔ s.ph = .fault

/-- What holds of the tree and the table (10_state.md R13, R26 (a) to (d), (f)). R26 claims it whenever PH is
IDLE; no micro-step of FREQ, ENC or DEC touches NM, TS, ROOT, NSYM, CT or PQ, so it is stated here in every run
state, but for the two clauses that a WEIGHT_OVF of BUILD breaks, which leave FAULT out. -/
structure TreeConsistent (s : State) : Prop where
  noTreeEmpty : s.ph ≠ .fault → s.ts = .noTree → s.nm = []
  notFinalNoRoot : s.ts ≠ .finalTree → s.root = 0 ∧ s.nsym = 0
  finalChecked : s.ts = .finalTree → check s.nm s.root.toNat = .ok s.nsym.toNat
  tableOfTree : s.ct = [] ∨ (s.ts = .finalTree ∧ codeTable s.nm s.root.toNat = .ok s.ct)
  queueEmpty : s.ph ≠ .fault → s.pq = []

/-- What holds at the points of a running command: a source that has said it has more holds an item, the bit ENC
is about to send lies inside its code, DEC runs on a finalised tree (or with none at its one question), with CUR
at an inner node reached from the root between bits and at a leaf when a symbol is due; on a single-leaf tree CUR
stays at the root (40_freq.md R56, 43_encoder.md R74, 44_decoder.md R79, R81, R82). -/
structure PointConsistent (s : State) : Prop where
  moreSymbols : s.pt = .f1 ∨ s.pt = .e1 → ∃ x xs, s.si = some (x :: xs)
  moreBits : s.pt = .d1 → ∃ b bs, s.bi = some (b :: bs)
  bitInCode : s.pt = .e2 → (encEntry s).valid = true ∧ s.epos.toNat < (encEntry s).len.toNat
  noTreeAtQuestion : s.pt = .dNoTree → s.ts = .noTree
  treeAtBits : s.pt = .d0 ∨ s.pt = .d1 ∨ s.pt = .d2 → s.ts = .finalTree
  cursorBetween : s.pt = .d0 ∨ s.pt = .d1 →
    (rootIsLeaf s = true → s.cur = s.root) ∧
    (rootIsLeaf s = false →
      Reachable s.nm s.root.toNat s.cur.toNat ∧ (nmGet s.nm s.cur.toNat).isLeaf = false)
  cursorAtSymbol : s.pt = .d2 →
    (rootIsLeaf s = true → s.cur = s.root) ∧
    (rootIsLeaf s = false →
      Reachable s.nm s.root.toNat s.cur.toNat ∧ (nmGet s.nm s.cur.toNat).isLeaf = true)

/-- A consistent state: every invariant at once. -/
structure Consistent (s : State) : Prop where
  arrays : ArraysCanonical s
  run : RunConsistent s
  tree : TreeConsistent s
  points : PointConsistent s

/-- The outside attaches no stream while the engine is BUSY (70_reset_and_hazards.md R106): the next planned
event is no attachment, or PH is not BUSY. -/
def AttachesOnlyWhenNotBusy (s : State) : Prop :=
  s.ph = .busy → ∀ e rest, s.plan = e :: rest →
    (∀ xs, e ≠ .attachSI xs) ∧ e ≠ .attachBO ∧ (∀ bs, e ≠ .attachBI bs) ∧ e ≠ .attachSO

end Sys2Proof.Machine
end

