-- ==== Sys2Proof/Certificates/Slice0/Obligations.lean ====
section
/-! DEFINITION. The statements for the provers. Each docstring names the rules of spec/ it rests on. -/

open Sys2Proof Sys2Proof.Machine

/-! ## Encoding -/

/-- The words of the opcode map, and words just beside it, decode as 30_encoding.md R46 and R47 say. -/
def Obligations.CommandWordsSpellTheirCommands : Prop :=
  decode 0x00000001 = .ok .clr ∧ decode 0x00000002 = .ok .freq ∧ decode 0x00000003 = .ok .build ∧
  decode 0x00000004 = .ok .gen ∧ decode 0x00000005 = .ok .enc ∧ decode 0x00000006 = .ok .dec ∧
  decode 0x00000007 = .ok (.fin 0) ∧ decode 0x00080007 = .ok (.fin 8) ∧ decode 0x01FF0007 = .ok (.fin 511) ∧
  decode 0x00000000 = .error .reservedOpcode ∧ decode 0x00000008 = .error .reservedOpcode ∧
  decode 0x00080006 = .error .mustBeZero ∧ decode 0x02000007 = .error .mustBeZero ∧
  decode 0x00000107 = .error .mustBeZero

/-- Every well-formed command is read back from its word (30_encoding.md R44 to R46). -/
def Obligations.DecodeOfEncodeIsTheCommand : Prop :=
  ∀ i : Instr, i.wellFormed = true → decode (encode i) = .ok i

/-- Every word that spells a command is that command's word: no bit of a word is dropped (30_encoding.md R44 to
R47). -/
def Obligations.EncodeOfDecodeIsTheWord : Prop :=
  ∀ (v : Word) (i : Instr), decode v = .ok i → i.wellFormed = true ∧ encode i = v

/-- The illegal words are exactly those of 30_encoding.md R47; one written to CMD while PH is IDLE raises BAD_CMD
with STAGE = `v[7:0]` and INFO = `v[31:16]` and changes no other state (45_control.md R89 (a)); while PH is BUSY or
FAULT it is refused. -/
def Obligations.IllegalWordsRaiseBadCmd : Prop :=
  (∀ v : Word, (∃ e, decode v = .error e) ↔
    (v.toNat % 256 = 0 ∨ 8 ≤ v.toNat % 256 ∨
      (1 ≤ v.toNat % 256 ∧ v.toNat % 256 ≤ 6 ∧ v.toNat / 256 ≠ 0) ∨
      (v.toNat % 256 = 7 ∧ (v.toNat / 33554432 ≠ 0 ∨ v.toNat / 256 % 256 ≠ 0)))) ∧
  (∀ (s : State) (v : Word) (rest : List Event), (∃ e, decode v = .error e) → s.plan = .write 0 v :: rest →
    (s.ph = .idle → ∃ t, step s = .next t ∧ t.op = BitVec.ofNat 8 v.toNat ∧
      FaultRecorded t .badCmd (v.toNat / 65536) ∧
      t = { s with plan := rest, resp := .done, ph := .fault, done := false, op := t.op, err := t.err, pt := .rest }) ∧
    (s.ph ≠ .idle → step s = .next { s with plan := rest, resp := .refused }))

/-- A step whose next event is a performed write of a word that spells the command `i` is `exec i` at the state
at acceptance: the event taken from the plan, the write answered, `PH <- BUSY; DONE <- 0; OP <- v[7:0]`
(45_control.md R88). -/
def Obligations.StepRunsTheDecodedCommand : Prop :=
  ∀ (s : State) (v : Word) (rest : List Event) (i : Instr),
    s.plan = .write 0 v :: rest → (s.ph = .idle ∨ (s.ph = .fault ∧ v = 0x00000001)) → decode v = .ok i →
    step s = exec i { s with plan := rest, resp := .done, ph := .busy, done := false, op := BitVec.ofNat 8 v.toNat }

/-! ## The host port -/

/-- A host read changes nothing but the host port's answer: refused without data, or the word of the address map
(45_control.md R86). -/
def Obligations.ReadsAnswerTheWordOrAreRefused : Prop :=
  ∀ (s : State) (addr : Addr) (rest : List Event), s.plan = .read addr :: rest →
    (ReadRefusedAt s.ph addr.toNat → step s = .next { s with plan := rest, resp := .refused }) ∧
    (¬ReadRefusedAt s.ph addr.toNat →
      ∃ w, WordAt s addr.toNat w ∧ step s = .next { s with plan := rest, resp := .data w })

/-- The table of 20_memory.md R31: which accesses are performed and which are refused; a refused access changes
no state and is no fault (60_exceptions.md R100). -/
def Obligations.AccessTableIsFollowed : Prop :=
  (∀ (s : State) (addr : Addr) (rest : List Event), s.plan = .read addr :: rest →
    ∃ a, step s = .next { s with plan := rest, resp := a } ∧ (a = .refused ↔ ReadRefusedAt s.ph addr.toNat)) ∧
  (∀ (s : State) (addr : Addr) (v : Word) (rest : List Event), s.plan = .write addr v :: rest →
    (WriteRefusedAt s.ph addr.toNat v → step s = .next { s with plan := rest, resp := .refused }) ∧
    (¬WriteRefusedAt s.ph addr.toNat v → ∀ t, step s = .next t → t.resp = .done))

/-- What a write does (45_control.md R87, 20_memory.md R32): a refused one changes no state; CMD issues; CTSEL keeps bits 7:0; an FT
write stores one entry and nothing else; an NM write stores its word (ATTR bits 31:29 dropped), reopens the tree
and empties CT, whatever TS was. -/
def Obligations.WritesStoreWhatTheRuleSays : Prop :=
  ∀ (s : State) (addr : Addr) (v : Word) (rest : List Event), ArraysCanonical s → s.plan = .write addr v :: rest →
    (WriteRefusedAt s.ph addr.toNat v → step s = .next { s with plan := rest, resp := .refused }) ∧
    (addr.toNat = 0x000 → (s.ph = .idle ∨ (s.ph = .fault ∧ v = 0x00000001)) →
      step s = issue v { s with plan := rest, resp := .done }) ∧
    (addr.toNat = 0x005 → s.ph ≠ .busy →
      step s = .next { s with plan := rest, resp := .done, ctsel := BitVec.ofNat 8 v.toNat }) ∧
    (∀ x, x < 256 → addr.toNat = 0x100 + x → s.ph = .idle →
      ∃ ft', step s = .next { s with plan := rest, resp := .done, ft := ft' } ∧
        ∀ y, ftGet ft' y = if y = x then v else ftGet s.ft y) ∧
    (∀ i, i < 511 → addr.toNat = 0x400 + 2 * i → s.ph = .idle →
      ∃ nm', step s = .next { s with plan := rest, resp := .done, nm := nm', ts := .openTree, root := 0, nsym := 0, ct := [] } ∧
        (∀ j, j ≠ i → nmGet nm' j = nmGet s.nm j) ∧ (nmGet nm' i).weight = (nmGet s.nm i).weight ∧
        attrWord (nmGet nm' i) = v &&& 0x1FFFFFFF) ∧
    (∀ i, i < 511 → addr.toNat = 0x401 + 2 * i → s.ph = .idle →
      ∃ nm', step s = .next { s with plan := rest, resp := .done, nm := nm', ts := .openTree, root := 0, nsym := 0, ct := [] } ∧
        (∀ j, j ≠ i → nmGet nm' j = nmGet s.nm j) ∧ nmGet nm' i = { nmGet s.nm i with weight := v })

/-! ## Layouts -/

/-- The ATTR and WEIGHT words of a record and where they stand (30_encoding.md R48): the bit positions; what a
word written to ATTR leaves in the record; the canonical words of leaves and inner nodes, which are the only
records BUILD writes. -/
def Obligations.NodeRecordLayout : Prop :=
  (∀ nd : Node, (attrWord nd).toNat =
    nd.sym.toNat + 2 ^ 8 * nd.hasSym.toNat + 2 ^ 9 * nd.left.toNat + 2 ^ 18 * nd.hasLeft.toNat +
      2 ^ 19 * nd.right.toNat + 2 ^ 28 * nd.hasRight.toNat) ∧
  (∀ (nd : Node) (v : Word), attrWord (withAttr nd v) = v &&& 0x1FFFFFFF ∧ (withAttr nd v).weight = nd.weight) ∧
  (∀ nd : Node, withAttr nd (attrWord nd) = nd) ∧
  (∀ i, i < 511 → regionOf (BitVec.ofNat 12 (0x400 + 2 * i)) = .attr i ∧
    regionOf (BitVec.ofNat 12 (0x401 + 2 * i)) = .weight i) ∧
  (∀ (s : State) (i : Nat), regionWord s (.attr i) = attrWord (nmGet s.nm i) ∧
    regionWord s (.weight i) = (nmGet s.nm i).weight) ∧
  (∀ (x : Sym) (c : Word), (attrWord (leafNode x c)).toNat = 0x00000100 + x.toNat) ∧
  (∀ (l r : Idx) (w : Word), (attrWord (innerNode l r w)).toNat = 0x10040000 + 2 ^ 19 * r.toNat + 2 ^ 9 * l.toNat) ∧
  (∀ s t : State, exec .build s = .next t → ∀ i, nmGet t.nm i = Node.zero ∨
    (∃ x c, nmGet t.nm i = leafNode x c) ∨ ∃ l r w, nmGet t.nm i = innerNode l r w)

/-- The window on the entry `CT[CTSEL]` (30_encoding.md R49), CTLEN at 0x006 and CTBITSj at 0x008 + j: CTLEN holds `len` and `valid`; bit `b` of CTBITSj is code bit
`32*j + b` when that is below `len`, else 0; an invalid entry reads all 0. -/
def Obligations.CodeWindowLayout : Prop :=
  (∀ e : CodeEntry, (ctlenWord e).toNat = e.len.toNat + 2 ^ 31 * e.valid.toNat) ∧
  (∀ (e : CodeEntry) (j b : Nat), j < 8 → b < 32 →
    (ctbitsWord e j).getLsbD b = (decide (32 * j + b < e.len.toNat) && e.bits.getD (32 * j + b) false)) ∧
  ctlenWord CodeEntry.invalid = 0 ∧ (∀ j, ctbitsWord CodeEntry.invalid j = 0) ∧
  regionOf 0x006 = .ctlen ∧ (∀ j, j < 8 → regionOf (BitVec.ofNat 12 (0x008 + j)) = .ctbits j) ∧
  (∀ s : State, regionWord s .ctlen = ctlenWord (ctGet s.ct s.ctsel.toNat) ∧
    ∀ j, regionWord s (.ctbits j) = ctbitsWord (ctGet s.ct s.ctsel.toNat) j)

/-- The words STATUS, TREE, CUR and CTSEL (10_state.md R19, R21), with TS coded NONE = 0, OPEN = 1, FINAL = 2 in bits
5:4 of STATUS (R14), and the pins, which equal three bits of STATUS (R23). -/
def Obligations.RegisterWordsAndPins : Prop :=
  ∀ s : State,
    (statusWord s).toNat = (busyFlag s).toNat + 2 * s.done.toNat + 4 * (faultFlag s).toNat + 16 * s.ts.code.toNat +
      256 * s.op.toNat ∧
    (s.ts = .noTree → (statusWord s).toNat / 16 % 4 = 0) ∧ (s.ts = .openTree → (statusWord s).toNat / 16 % 4 = 1) ∧
    (s.ts = .finalTree → (statusWord s).toNat / 16 % 4 = 2) ∧
    (busyFlag s = true ↔ s.ph = .busy) ∧ (faultFlag s = true ↔ s.ph = .fault) ∧
    (treeWord s).toNat = s.root.toNat + 65536 * s.nsym.toNat ∧
    (curWord s).toNat = s.cur.toNat ∧ (ctselWord s).toNat = s.ctsel.toNat ∧
    (pins s).busy = (statusWord s).getLsbD 0 ∧ (pins s).done = (statusWord s).getLsbD 1 ∧
    (pins s).fault = (statusWord s).getLsbD 2

/-! ## Reset, faults and the run state -/

/-- Every piece of state has its reset value, and the engine waits in IDLE (10_state.md R25). -/
def Obligations.ResetHoldsTheStatedValues : Prop :=
  (∀ x, ftGet State.reset.ft x = 0) ∧ (∀ i, nmGet State.reset.nm i = Node.zero) ∧ State.reset.ts = .noTree ∧
  State.reset.root = 0 ∧ State.reset.nsym = 0 ∧
  (∀ x, (ctGet State.reset.ct x).valid = false ∧ (ctGet State.reset.ct x).len = 0 ∧
    (ctGet State.reset.ct x).bits = []) ∧
  State.reset.cur = 0 ∧ State.reset.ph = .idle ∧ State.reset.op = 0 ∧ State.reset.done = false ∧
  State.reset.err = 0 ∧ State.reset.ctsel = 0 ∧ State.reset.pq = [] ∧ State.reset.next = 0 ∧
  State.reset.esym = 0 ∧ State.reset.epos = 0 ∧
  pins State.reset = { busy := false, done := false, fault := false } ∧
  ∀ r, engineTurn r State.reset = .next State.reset

/-- Reset is applied in any run state: the block's state is the reset state, the collaborators keep what they
hold, no request is pending (70_reset_and_hazards.md R101). That the host port's answer falls silent is the
model's choice (log entry 13). -/
def Obligations.ResetAppliesInEveryRunState : Prop :=
  ∀ (s : State) (rest : List Event), s.plan = .rst :: rest →
    step s = .next { State.reset with si := s.si, bo := s.bo, bi := s.bi, so := s.so, plan := rest }

/-- CLR completes from every state and leaves the reset state with `OP = 0x01` and `DONE = 1` (45_control.md R85,
70_reset_and_hazards.md R102); a write of its word to CMD is accepted in IDLE and in FAULT and refused in BUSY; in
FAULT every other word is refused. -/
def Obligations.ClrGivesTheResetState : Prop :=
  (∀ s : State, exec .clr s = .next { State.reset with
    op := 0x01, done := true, si := s.si, bo := s.bo, bi := s.bi, so := s.so, resp := s.resp, plan := s.plan }) ∧
  (∀ (s : State) (rest : List Event), s.plan = .write 0 0x00000001 :: rest →
    (s.ph ≠ .busy → step s = .next { State.reset with
      op := 0x01, done := true, si := s.si, bo := s.bo, bi := s.bi, so := s.so, resp := .done, plan := rest }) ∧
    (s.ph = .busy → step s = .next { s with resp := .refused, plan := rest })) ∧
  (∀ (s : State) (v : Word) (rest : List Event), s.ph = .fault → s.plan = .write 0 v :: rest → v ≠ 0x00000001 →
    step s = .next { s with resp := .refused, plan := rest })

/-- Fault entry (60_exceptions.md R95): ERR is written, PH becomes FAULT, nothing else changes, and no later
request goes to any collaborator: the engine has no further turn. CAUSE is the code that the table of R90 gives each of
the twelve causes. -/
def Obligations.FaultEntryRecordsAndStops : Prop :=
  (Cause.code .countOvf = 0x10 ∧ Cause.code .weightOvf = 0x11 ∧ Cause.code .treeMalformed = 0x12 ∧
    Cause.code .noCode = 0x20 ∧ Cause.code .truncated = 0x30 ∧ Cause.code .noTreeBits = 0x31 ∧
    Cause.code .siErr = 0x40 ∧ Cause.code .boErr = 0x41 ∧ Cause.code .biErr = 0x42 ∧ Cause.code .soErr = 0x43 ∧
    Cause.code .badCmd = 0x50 ∧ Cause.code .treeOpen = 0x51) ∧
  ∀ (c : Cause) (info : BitVec 16) (s : State),
    FaultRecorded (raiseFault c info s) c info.toNat ∧
    raiseFault c info s = { s with err := (raiseFault c info s).err, ph := .fault, pt := .rest } ∧
    ∀ r, engineTurn r (raiseFault c info s) = .next (raiseFault c info s)

/-- The only return from a fault is CLR or reset, which put every piece of the block's state at its reset value;
until then nothing of the block changes and faults do not nest (60_exceptions.md R97), but for CTSEL, which the host
may write in FAULT by the table of 20_memory.md R31, followed here where a sentence of R97 has every access refused
(log entry 17). That the host port's answer falls silent when reset is applied is the model's choice (log entry 13). -/
def Obligations.FaultStaysUntilClrOrReset : Prop :=
  ∀ s t : State, s.ph = .fault → step s = .next t →
    (t = { s with ctsel := t.ctsel, resp := t.resp, plan := t.plan, si := t.si, bo := t.bo, bi := t.bi, so := t.so }) ∨
    (∃ rest, s.plan = .write 0 0x00000001 :: rest ∧ t = { State.reset with
      op := 0x01, done := true, si := s.si, bo := s.bo, bi := s.bi, so := s.so, resp := .done, plan := rest }) ∨
    (∃ rest, s.plan = .rst :: rest ∧ t = { State.reset with
      si := s.si, bo := s.bo, bi := s.bi, so := s.so, plan := rest })

/-- Which command can raise what (60_exceptions.md R91), for every step into FAULT: STAGE is OP, CAUSE is one of the
causes of that command or BAD_CMD of an illegal word, and the step is an issue or an engine turn. -/
def Obligations.EachCommandRaisesOnlyItsFaults : Prop :=
  ∀ s t : State, RunConsistent s → s.ph ≠ .fault → step s = .next t → t.ph = .fault →
    t.err.toNat / 256 % 256 = t.op.toNat ∧
    ((∃ v rest, s.plan = .write 0 v :: rest ∧ t.op = BitVec.ofNat 8 v.toNat) ∨
      ((s.plan = [] ∨ ∃ r rest, s.plan = .turn r :: rest) ∧ t.op = s.op)) ∧
    ((t.err.toNat % 256 = 0x50 ∧ ∃ v rest e, s.plan = .write 0 v :: rest ∧ decode v = .error e) ∨
      (t.op = 0x02 ∧ t.err.toNat % 256 ∈ [0x40, 0x10]) ∨
      (t.op = 0x03 ∧ t.err.toNat % 256 ∈ [0x11]) ∨
      (t.op = 0x04 ∧ t.err.toNat % 256 ∈ [0x51]) ∨
      (t.op = 0x05 ∧ t.err.toNat % 256 ∈ [0x40, 0x20, 0x41]) ∨
      (t.op = 0x06 ∧ t.err.toNat % 256 ∈ [0x51, 0x42, 0x31, 0x30, 0x43]) ∨
      (t.op = 0x07 ∧ t.err.toNat % 256 ∈ [0x12]))

/-- The transitions of PH, OP and DONE (10_state.md R18). The commands that are one atomic step go from IDLE through
BUSY in one step of the model (00_scope.md R8, log entry 4). -/
def Obligations.RunStateTransitions : Prop :=
  ∀ s t : State, RunConsistent s → step s = .next t →
    (s.ph = .idle → t.ph ≠ .idle → ∃ v rest, s.plan = .write 0 v :: rest) ∧
    (s.ph = .busy → t.ph ≠ .busy →
      (t.ph = .idle ∧ t.done = true) ∨ (t.ph = .fault ∧ t.done = false) ∨ ∃ rest, s.plan = .rst :: rest) ∧
    (s.ph = .fault → t.ph ≠ .fault →
      t.ph = .idle ∧ ((∃ rest, s.plan = .write 0 0x00000001 :: rest) ∨ ∃ rest, s.plan = .rst :: rest)) ∧
    (t.op ≠ s.op → (∃ v rest, s.plan = .write 0 v :: rest ∧ t.op = BitVec.ofNat 8 v.toNat) ∨
      ∃ rest, s.plan = .rst :: rest) ∧
    (t.done ≠ s.done → (∃ v rest, s.plan = .write 0 v :: rest) ∨ (∃ rest, s.plan = .rst :: rest) ∨
      (s.ph = .busy ∧ t.ph = .idle ∧ t.done = true))

/-- The 'written by' column of 10_state.md R10, with R14 to R17 and R20 to R22: a step changes a piece of state only
if it is one of that piece's writers (reset besides), and a stream only if a command that uses its port runs, or the
host attaches one (20_memory.md R42 (a)). -/
def Obligations.EachPieceOfStateHasItsWriters : Prop :=
  ∀ s t : State, RunConsistent s → step s = .next t →
    (t.ft ≠ s.ft → Running s 0x02 ∨ Issues s .freq ∨ WritesBetween s 0x100 0x1FF ∨ Clears s) ∧
    (t.nm ≠ s.nm → Issues s .build ∨ WritesBetween s 0x400 0x7FD ∨ Clears s) ∧
    (t.ts ≠ s.ts ∨ t.root ≠ s.root ∨ t.nsym ≠ s.nsym →
      Issues s .build ∨ (∃ idx, Issues s (.fin idx)) ∨ WritesBetween s 0x400 0x7FD ∨ Clears s) ∧
    (t.ct ≠ s.ct → Issues s .gen ∨ Issues s .build ∨ (∃ idx, Issues s (.fin idx)) ∨ WritesBetween s 0x400 0x7FD ∨
      Clears s) ∧
    (t.cur ≠ s.cur → Running s 0x06 ∨ Issues s .dec ∨ Clears s) ∧
    (t.ctsel ≠ s.ctsel → WritesBetween s 0x005 0x005 ∨ Clears s) ∧
    (t.err ≠ s.err → (s.ph ≠ .fault ∧ t.ph = .fault) ∨ Clears s) ∧
    (t.pq ≠ s.pq ∨ t.next ≠ s.next → Issues s .build ∨ Clears s) ∧
    (t.esym ≠ s.esym ∨ t.epos ≠ s.epos → Running s 0x05 ∨ Clears s) ∧
    (t.si ≠ s.si → Running s 0x02 ∨ Running s 0x05 ∨ ∃ xs rest, s.plan = .attachSI xs :: rest) ∧
    (t.bo ≠ s.bo → Running s 0x05 ∨ ∃ rest, s.plan = .attachBO :: rest) ∧
    (t.bi ≠ s.bi → Running s 0x06 ∨ ∃ bs rest, s.plan = .attachBI bs :: rest) ∧
    (t.so ≠ s.so → Running s 0x06 ∨ ∃ rest, s.plan = .attachSO :: rest)

/-! ## Invariants of every step -/

/-- The reset state is consistent (10_state.md R25, R26). -/
def Obligations.ResetIsConsistent : Prop := Consistent State.reset

/-- Every step keeps the arrays in canonical form and inside their bounds (10_state.md R10; log entry 1). -/
def Obligations.ArraysStayCanonical : Prop :=
  ∀ s t : State, ArraysCanonical s → step s = .next t → ArraysCanonical t

/-- Every step keeps the run state in agreement with itself: PH, OP, DONE, ERR and the point of the running
command (10_state.md R18 to R20). -/
def Obligations.RunStateStaysConsistent : Prop :=
  ∀ s t : State, RunConsistent s → step s = .next t → RunConsistent t

/-- Every step keeps every invariant: the arrays, the run state, the tree and the table (10_state.md R13 to R16,
R26), and what holds at each point of a running command (44_decoder.md R79, 43_encoder.md R74). BUILD's tree
passes FIN's check among them (41_tree_build.md R64 (c)). -/
def Obligations.ConsistencyIsKept : Prop :=
  ∀ s t : State, Consistent s → step s = .next t → Consistent t

/-- From a consistent state every step has a result: no host access, no command and no micro-step stops the
machine; only the outside's breach of 70_reset_and_hazards.md R106 is refused (45_control.md R89; log entry 5). -/
def Obligations.NoStepStopsFromAConsistentState : Prop :=
  ∀ s : State, Consistent s →
    (AttachesOnlyWhenNotBusy s → ∃ t, step s = .next t) ∧
    (¬AttachesOnlyWhenNotBusy s → step s = .refused .attachWhileBusy)

/-- In a consistent state with PH = IDLE the idle invariants (a) to (f) of 10_state.md R26 hold. -/
def Obligations.IdleStatesMeetTheIdleInvariants : Prop :=
  ∀ s : State, Consistent s → s.ph = .idle →
    (s.ts = .noTree → ∀ i, nmGet s.nm i = Node.zero) ∧
    (s.ts ≠ .finalTree → s.root = 0 ∧ s.nsym = 0) ∧
    (s.ts = .finalTree → WellFormedTree s.nm s.root.toNat ∧
      ∃ l : List Sym, l.Nodup ∧ l.length = s.nsym.toNat ∧ ∀ x, x ∈ l ↔ ∃ p, PathToSymbol s.nm s.root.toNat p x) ∧
    ((∀ x, ctGet s.ct x = CodeEntry.invalid) ∨ (s.ts = .finalTree ∧ codeTable s.nm s.root.toNat = .ok s.ct)) ∧
    s.err = 0 ∧ s.pq = []

/-- The tree of a consistent state with TS = FINAL meets the invariants of 10_state.md R13: I1, I2, no sharing, no
cycles, one leaf per symbol, and I3: no leaf's path is a prefix of another's. -/
def Obligations.FinalTreesMeetTheTreeInvariants : Prop :=
  ∀ s : State, Consistent s → s.ts = .finalTree →
    TreeConditions s.nm s.root.toNat s.nsym.toNat ∧
    ∀ p q x y, PathToSymbol s.nm s.root.toNat p x → PathToSymbol s.nm s.root.toNat q y → p <+: q → p = q ∧ x = y

/-! ## FREQ -/

/-- FREQ completes on every input no symbol of which occurs more than `W_MAX` times, when SI answers every request:
FT then holds the count of every symbol, SI is empty, and nothing else has changed (40_freq.md R55). -/
def Obligations.FreqCountsTheInput : Prop :=
  ∀ (s : State) (xs : List Sym), s.ph = .busy → s.plan = [] → s.si = some xs →
    (∀ x, xs.count x ≤ Config.wMax) →
    exec .freq s = .next { s with ft := [], pt := .f0 } ∧
    ∃ ft', CountsInput ft' xs ∧ Memory.wf 0 ft' ∧ Memory.within 256 ft' ∧
      Reaches { s with ft := [], pt := .f0 }
        { s with ft := ft', si := some [], ph := .idle, done := true, pt := .rest }

/-- The micro-steps F0 and F1 of FREQ on each answer of SI (40_freq.md R55, R56), with COUNT_OVF raised after the
symbol has been taken and with the count left at `W_MAX`. -/
def Obligations.FreqMicroSteps : Prop :=
  ∀ (s : State) (rest : List Event), ArraysCanonical s → s.ph = .busy → s.plan = .turn .answer :: rest →
    (s.pt = .f0 → ∀ x xs, s.si = some (x :: xs) → step s = .next { s with plan := rest, pt := .f1 }) ∧
    (s.pt = .f0 → s.si = some [] →
      step s = .next { s with plan := rest, ph := .idle, done := true, pt := .rest }) ∧
    (s.pt = .f1 → ∀ x xs, s.si = some (x :: xs) → (ftGet s.ft x.toNat).toNat < Config.wMax →
      ∃ ft', step s = .next { s with plan := rest, si := some xs, ft := ft', pt := .f0 } ∧
        (∀ y, (ftGet ft' y).toNat = (ftGet s.ft y).toNat + if y = x.toNat then 1 else 0)) ∧
    (s.pt = .f1 → ∀ x xs, s.si = some (x :: xs) → (ftGet s.ft x.toNat).toNat = Config.wMax →
      ∃ t, step s = .next t ∧ FaultRecorded t .countOvf x.toNat ∧
        t = { s with plan := rest, si := some xs, ph := .fault, pt := .rest, err := t.err })

/-- The order in which symbols arrive leaves no trace in FT: inputs that are permutations of each other end in the
same FT (40_freq.md R56, R57). -/
def Obligations.FreqForgetsTheOrder : Prop :=
  ∀ (s : State) (xs ys : List Sym) (t t' u u' : State), s.ph = .busy → s.plan = [] → xs.Perm ys →
    (∀ x, xs.count x ≤ Config.wMax) →
    exec .freq { s with si := some xs } = .next t → exec .freq { s with si := some ys } = .next t' →
    Reaches t u → u.ph = .idle → Reaches t' u' → u'.ph = .idle → u.ft = u'.ft

/-! ## BUILD -/

/-- `removeMin` takes from any non-empty queue the member that comes before all others: least weight first, among
equal weights the greatest index first; two distinct members never tie (41_tree_build.md R60). -/
def Obligations.RemoveMinFollowsTheOrder : Prop :=
  ∀ (nm : Memory Node) (pq : List Nat), pq ≠ [] →
    ∃ a q, removeMin nm pq = some (a, q) ∧ a ∈ pq ∧ q = pq.erase a ∧
      ∀ y ∈ pq, y ≠ a →
        ((nmGet nm a).weight.toNat < (nmGet nm y).weight.toNat ∨
          ((nmGet nm a).weight = (nmGet nm y).weight ∧ y < a))

/-- BUILD makes a leaf for each present symbol, in ascending symbol value, at indices 0, 1, ..., k - 1, with the
symbol's count as its weight; absent symbols get none (41_tree_build.md R59). It holds whether BUILD completes or
faults. -/
def Obligations.BuildSeedsLeavesInOrder : Prop :=
  ∀ s : State, ∃ t, exec .build s = .next t ∧
    (presentSymbols s.ft).Pairwise (· < ·) ∧
    (∀ x, x ∈ presentSymbols s.ft ↔ x < 256 ∧ ftGet s.ft x ≠ 0) ∧
    ∀ j (h : j < (presentSymbols s.ft).length),
      nmGet t.nm j = leafNode (BitVec.ofNat 8 (presentSymbols s.ft)[j]) (ftGet s.ft (presentSymbols s.ft)[j])

/-- BUILD faults exactly when two or more symbols are present and the sum of all counts exceeds `W_MAX`; the fault is
WEIGHT_OVF with INFO = the index the new node would have had; that record and all above it are 0, and the two
removed nodes are no longer in the queue (41_tree_build.md R63). -/
def Obligations.BuildFaultsExactlyOnOverflow : Prop :=
  ∀ s : State,
    (2 ≤ (presentSymbols s.ft).length ∧ Config.wMax < totalCount s.ft →
      ∃ t, exec .build s = .next t ∧ FaultRecorded t .weightOvf t.next ∧ t.next < 511 ∧
        (∀ i, t.next ≤ i → nmGet t.nm i = Node.zero) ∧
        t.next + t.pq.length + 2 = 2 * (presentSymbols s.ft).length ∧
        t.ts = .noTree ∧ t.root = 0 ∧ t.nsym = 0 ∧ t.ct = []) ∧
    (¬(2 ≤ (presentSymbols s.ft).length ∧ Config.wMax < totalCount s.ft) →
      ∃ t, exec .build s = .next t ∧ t.ph = .idle ∧ t.done = true ∧ t.err = s.err)

/-- The end of BUILD (41_tree_build.md R62): no present symbol gives no tree and NM all 0; one gives its leaf as the
root, ROOT = 0, NSYM = 1; k of them give ROOT = 2k - 2, NSYM = k, TS = FINAL. Nothing else changes. That the hidden
`n` keeps its last value after a completed BUILD is the model's choice (log entry 10). -/
def Obligations.BuildEndsWithTheTree : Prop :=
  ∀ s : State, (presentSymbols s.ft).length < 2 ∨ totalCount s.ft ≤ Config.wMax →
    (presentSymbols s.ft = [] →
      exec .build s = .next { s with
        nm := [], ts := .noTree, root := 0, nsym := 0, ct := [], pq := [], next := 0,
        ph := .idle, done := true, pt := .rest }) ∧
    (∀ x, presentSymbols s.ft = [x] →
      ∃ nm', exec .build s = .next { s with
          nm := nm', ts := .finalTree, root := 0, nsym := 1, ct := [], pq := [],
          next := 1, ph := .idle, done := true, pt := .rest } ∧
        nmGet nm' 0 = leafNode (BitVec.ofNat 8 x) (ftGet s.ft x) ∧ ∀ i, 1 ≤ i → nmGet nm' i = Node.zero) ∧
    (2 ≤ (presentSymbols s.ft).length →
      ∃ nm', exec .build s = .next { s with
        nm := nm', ts := .finalTree,
        root := BitVec.ofNat 9 (2 * (presentSymbols s.ft).length - 2),
        nsym := BitVec.ofNat 9 (presentSymbols s.ft).length, ct := [], pq := [],
        next := 2 * (presentSymbols s.ft).length - 1, ph := .idle, done := true, pt := .rest })

/-- What every tree BUILD finalises satisfies (41_tree_build.md R61, R64): it passes FIN's check with k leaves; the
root's weight is the sum of all counts; its 2k - 1 nodes are the records 0..2k-2, all reached from the root, and
the records above are 0; every inner node has lower-numbered children, the lighter one on the left, and no other
field set. -/
def Obligations.BuiltTreesSatisfyTheirLaws : Prop :=
  ∀ s : State, presentSymbols s.ft ≠ [] → (presentSymbols s.ft).length < 2 ∨ totalCount s.ft ≤ Config.wMax →
    ∃ t, exec .build s = .next t ∧ t.ts = .finalTree ∧
      check t.nm t.root.toNat = .ok (presentSymbols s.ft).length ∧
      (nmGet t.nm t.root.toNat).weight.toNat = totalCount s.ft ∧
      (∀ i, i < 2 * (presentSymbols s.ft).length - 1 → Reachable t.nm t.root.toNat i) ∧
      (∀ i, 2 * (presentSymbols s.ft).length - 1 ≤ i → nmGet t.nm i = Node.zero) ∧
      ∀ i, (presentSymbols s.ft).length ≤ i → i < 2 * (presentSymbols s.ft).length - 1 →
        (nmGet t.nm i).left.toNat < i ∧ (nmGet t.nm i).right.toNat < i ∧
        (nmGet t.nm (nmGet t.nm i).left.toNat).weight.toNat ≤ (nmGet t.nm (nmGet t.nm i).right.toNat).weight.toNat ∧
        nmGet t.nm i = innerNode (nmGet t.nm i).left (nmGet t.nm i).right (nmGet t.nm i).weight

/-- BUILD is a function of FT alone: from equal FT it leaves NM, ROOT, NSYM and TS equal (41_tree_build.md R64
(d)). -/
def Obligations.BuildDependsOnFtAlone : Prop :=
  ∀ s s' : State, s.ft = s'.ft → ∃ t t', exec .build s = .next t ∧ exec .build s' = .next t' ∧
    t.nm = t'.nm ∧ t.root = t'.root ∧ t.nsym = t'.nsym ∧ t.ts = t'.ts ∧ t.ph = t'.ph ∧ t.ft = s.ft

/-! ## FIN -/

/-- FIN empties CT and either finalises the tree at `idx` or raises TREE_MALFORMED with INFO = the failing node and
leaves TS at OPEN; nothing else changes (41_tree_build.md R65). -/
def Obligations.FinFinalisesOrReports : Prop :=
  ∀ (s : State) (idx : Nat), idx < 512 →
    (∀ n, check s.nm idx = .ok n →
      exec (.fin idx) s = .next { s with
        ts := .finalTree, root := BitVec.ofNat 9 idx, nsym := BitVec.ofNat 9 n,
        ct := [], ph := .idle, done := true, pt := .rest } ∧
      (BitVec.ofNat 9 idx).toNat = idx ∧ (BitVec.ofNat 9 n).toNat = n) ∧
    (∀ x, check s.nm idx = .error x →
      ∃ t, exec (.fin idx) s = .next t ∧ FaultRecorded t .treeMalformed x ∧
        t = { s with ts := .openTree, root := 0, nsym := 0, ct := [], ph := .fault, pt := .rest, err := t.err })

/-- The check succeeds exactly on the trees that meet the invariants, and answers the number of their symbols
(41_tree_build.md R66). -/
def Obligations.CheckAcceptsExactlyTheTrees : Prop :=
  ∀ (nm : Memory Node) (r n : Nat), check nm r = .ok n ↔ TreeConditions nm r n

/-- The node FIN reports is the first node, in pre-order with the left subtree before the right, at which one of the
tests c1 to c8 fails: it fails one, and every node the walk visits before it passes them all (41_tree_build.md R66). It
is reached from the root: the root itself when that names no record, otherwise an existing record. -/
def Obligations.CheckReportsAReachedNode : Prop :=
  ∀ (nm : Memory Node) (r x : Nat), check nm r = .error x →
    FirstFailure nm r x ∧ Reachable nm r x ∧ (511 ≤ r → x = r) ∧ (r < 511 → x < 511)

/-! ## GEN -/

/-- With no tree GEN completes with every CT entry invalid (42_code_table.md R71); on an open tree it raises
TREE_OPEN before CT is touched (R68). -/
def Obligations.GenWithoutAFinalTree : Prop :=
  ∀ s : State,
    (s.ts = .noTree → exec .gen s = .next { s with ct := [], ph := .idle, done := true, pt := .rest }) ∧
    (s.ts = .openTree → ∃ t, exec .gen s = .next t ∧ FaultRecorded t .treeOpen 0 ∧
      t = { s with ph := .fault, pt := .rest, err := t.err })

/-- On a finalised tree GEN completes and changes only CT: a tree that is one leaf gives its symbol the one-bit
code "0" (42_code_table.md R70); otherwise the code of a symbol is exactly the path from the root to its leaf, and
every other entry is invalid (R69). -/
def Obligations.GenRecordsThePaths : Prop :=
  ∀ s : State, s.ts = .finalTree → WellFormedTree s.nm s.root.toNat →
    ∃ ct', exec .gen s = .next { s with ct := ct', ph := .idle, done := true, pt := .rest } ∧
      (rootIsLeaf s = true → ∀ x, (HasCode ct' x ↔ x = (nmGet s.nm s.root.toNat).sym) ∧
        (HasCode ct' x → codeBits ct' x = [false])) ∧
      (rootIsLeaf s = false → ∀ x p, HasCode ct' x ∧ codeBits ct' x = p ↔ PathToSymbol s.nm s.root.toNat p x) ∧
      (∀ x, ¬HasCode ct' x → ctGet ct' x.toNat = CodeEntry.invalid)

/-- No code of a generated table is a prefix of another's (42_code_table.md R72 (b)). -/
def Obligations.GeneratedCodesArePrefixFree : Prop :=
  ∀ s t : State, s.ts = .finalTree → WellFormedTree s.nm s.root.toNat → exec .gen s = .next t →
    ∀ x y : Sym, x ≠ y → HasCode t.ct x → HasCode t.ct y → ¬codeBits t.ct x <+: codeBits t.ct y

/-- A generated table has as many valid entries as the tree has leaves, and every code has 1 to 255 bits, the
number its `len` field holds (42_code_table.md R72 (a), (c)). -/
def Obligations.GeneratedCodeCountAndLengths : Prop :=
  ∀ (s : State) (n : Nat), s.ts = .finalTree → check s.nm s.root.toNat = .ok n →
    ∃ t, exec .gen s = .next t ∧ CodesConsistent t.ct ∧
      ∃ l : List Sym, l.Nodup ∧ l.length = n ∧ ∀ x, x ∈ l ↔ HasCode t.ct x

/-! ## ENC -/

/-- ENC completes on every input all of whose symbols have codes, when SI and BO answer every request: BO has
received the codes of the symbols in order with nothing between them, SI is empty, and nothing else has changed but
the hidden ESYM and EPOS (43_encoder.md R73, 30_encoding.md R52). -/
def Obligations.EncodeEmitsTheCodes : Prop :=
  ∀ (s : State) (xs : List Sym) (bs : List Bool), s.ph = .busy → s.plan = [] → s.si = some xs → s.bo = some bs →
    CodesConsistent s.ct → (∀ x ∈ xs, HasCode s.ct x) →
    exec .enc s = .next { s with pt := .e0 } ∧
    ∃ x p, Reaches { s with pt := .e0 }
      { s with
        si := some [], bo := some (bs ++ encodedBits s.ct xs), esym := x, epos := p, ph := .idle, done := true,
        pt := .rest }

/-- The first symbol without a code faults with NO_CODE, INFO = the symbol: it has been taken from SI, no bit has
been sent for it, and the bits of all earlier symbols are in the sink (43_encoder.md R75). -/
def Obligations.EncodeFaultsAtTheFirstMissingCode : Prop :=
  ∀ (s : State) (xs ys : List Sym) (x : Sym) (bs : List Bool), s.ph = .busy → s.plan = [] →
    s.si = some (xs ++ x :: ys) → s.bo = some bs → CodesConsistent s.ct → (∀ y ∈ xs, HasCode s.ct y) →
    ¬HasCode s.ct x →
    ∃ t u, exec .enc s = .next t ∧ Reaches t u ∧ FaultRecorded u .noCode x.toNat ∧
      u = { s with
        si := some ys, bo := some (bs ++ encodedBits s.ct xs), esym := x, epos := 0, ph := .fault,
        pt := .rest, err := u.err }

/-- On the empty input ENC asks `hasMore` once and completes; BO, attached or not, sees no request and CT is not
consulted (43_encoder.md R76). -/
def Obligations.EncodeOfNothingSendsNothing : Prop :=
  ∀ s : State, s.ph = .busy → s.plan = [] → s.si = some [] →
    ∃ t, exec .enc s = .next t ∧ step t = .next { s with ph := .idle, done := true, pt := .rest }

/-- The micro-steps E0, E1 and E2 of ENC when the collaborator answers (43_encoder.md R74). -/
def Obligations.EncMicroSteps : Prop :=
  ∀ (s : State) (rest : List Event), CodesConsistent s.ct → s.ph = .busy → s.plan = .turn .answer :: rest →
    (s.pt = .e0 → ∀ x xs, s.si = some (x :: xs) → step s = .next { s with plan := rest, pt := .e1 }) ∧
    (s.pt = .e0 → s.si = some [] →
      step s = .next { s with plan := rest, ph := .idle, done := true, pt := .rest }) ∧
    (s.pt = .e1 → ∀ x xs, s.si = some (x :: xs) → HasCode s.ct x →
      step s = .next { s with plan := rest, si := some xs, esym := x, epos := 0, pt := .e2 }) ∧
    (s.pt = .e1 → ∀ x xs, s.si = some (x :: xs) → ¬HasCode s.ct x →
      ∃ t, step s = .next t ∧ FaultRecorded t .noCode x.toNat ∧
        t = { s with plan := rest, si := some xs, esym := x, epos := 0, ph := .fault, pt := .rest, err := t.err }) ∧
    (s.pt = .e2 → ∀ bs, s.bo = some bs → s.epos.toNat < (codeBits s.ct s.esym).length →
      ∃ p b, p.toNat = s.epos.toNat + 1 ∧ (codeBits s.ct s.esym)[s.epos.toNat]? = some b ∧
        step s = .next { s with
          plan := rest
          bo := some (bs ++ [b])
          epos := p
          pt := if p.toNat < (codeBits s.ct s.esym).length then .e2 else .e0 })

/-- ENC never looks at the tree: a turn of ENC does the same whatever NM, TS, ROOT and NSYM hold
(43_encoder.md R73). -/
def Obligations.EncIgnoresTheTree : Prop :=
  ∀ (s t : State) (r : Reply) (nm' : Memory Node) (ts' : TreeState) (root' : Idx) (nsym' : BitVec 9),
    (exec .enc s = .next t →
      exec .enc { s with nm := nm', ts := ts', root := root', nsym := nsym' } =
        .next { t with nm := nm', ts := ts', root := root', nsym := nsym' }) ∧
    (RunConsistent s → s.ph = .busy → s.op = 0x05 → engineTurn r s = .next t →
      engineTurn r { s with nm := nm', ts := ts', root := root', nsym := nsym' } =
        .next { t with nm := nm', ts := ts', root := root', nsym := nsym' })

/-! ## DEC -/

/-- The start of DEC by tree state (44_decoder.md R78, 45_control.md R89 (b)): TREE_OPEN before any request; with no
tree CUR is not written; on a finalised tree CUR is ROOT. -/
def Obligations.DecStartsByTreeState : Prop :=
  ∀ s : State,
    (s.ts = .openTree → ∃ t, exec .dec s = .next t ∧ FaultRecorded t .treeOpen 0 ∧
      t = { s with ph := .fault, pt := .rest, err := t.err }) ∧
    (s.ts = .noTree → exec .dec s = .next { s with pt := .dNoTree }) ∧
    (s.ts = .finalTree → exec .dec s = .next { s with cur := s.root, pt := .d0 })

/-- The micro-steps of DEC on a tree whose root is an inner node, when the collaborator answers: the bit moves CUR
to the left child on 0 and to the right child on 1; at a leaf its symbol is due; once it is given CUR returns to
ROOT (44_decoder.md R79); the end of the bits completes or raises TRUNCATED with INFO = CUR (R80). -/
def Obligations.DecMicroSteps : Prop :=
  ∀ (s : State) (rest : List Event), Consistent s → s.ph = .busy → rootIsLeaf s = false →
    s.plan = .turn .answer :: rest →
    (s.pt = .d0 → ∀ b bs, s.bi = some (b :: bs) → step s = .next { s with plan := rest, pt := .d1 }) ∧
    (s.pt = .d0 → s.bi = some [] → s.cur = s.root →
      step s = .next { s with plan := rest, ph := .idle, done := true, pt := .rest }) ∧
    (s.pt = .d0 → s.bi = some [] → s.cur ≠ s.root →
      ∃ t, step s = .next t ∧ FaultRecorded t .truncated s.cur.toNat ∧
        t = { s with plan := rest, ph := .fault, pt := .rest, err := t.err }) ∧
    (s.pt = .d1 → ∀ b bs, s.bi = some (b :: bs) →
      let c := if b then (nmGet s.nm s.cur.toNat).right else (nmGet s.nm s.cur.toNat).left
      step s = .next { s with
        plan := rest, bi := some bs, cur := c,
        pt := if (nmGet s.nm c.toNat).isLeaf then .d2 else .d0 }) ∧
    (s.pt = .d2 → ∀ ys, s.so = some ys →
      step s = .next { s with
        plan := rest, so := some (ys ++ [(nmGet s.nm s.cur.toNat).sym]), cur := s.root,
        pt := .d0 })

/-- On a single-leaf tree every bit, 0 or 1, sends the root's symbol once and CUR stays at ROOT: m bits give m
symbols, and the end of the bits is no fault (44_decoder.md R81). -/
def Obligations.SingleLeafDecodesEveryBit : Prop :=
  ∀ (s : State) (bs : List Bool) (ys : List Sym), s.ph = .busy → s.plan = [] → s.ts = .finalTree →
    WellFormedTree s.nm s.root.toNat → rootIsLeaf s = true → s.bi = some bs → s.so = some ys →
    exec .dec s = .next { s with cur := s.root, pt := .d0 } ∧
    Reaches { s with cur := s.root, pt := .d0 }
      { s with
        cur := s.root, bi := some [],
        so := some (ys ++ List.replicate bs.length (nmGet s.nm s.root.toNat).sym), ph := .idle, done := true, pt := .rest }

/-- With no tree DEC asks `hasMore` once: on no bits it completes with no output; on some it raises NO_TREE_BITS
without reading any; CUR is not written and SO sees no request (44_decoder.md R82). -/
def Obligations.DecodeWithoutATree : Prop :=
  ∀ s : State, s.ph = .busy → s.plan = [] → s.ts = .noTree →
    ∃ t, exec .dec s = .next t ∧ t = { s with pt := .dNoTree } ∧
      (s.bi = some [] → step t = .next { s with ph := .idle, done := true, pt := .rest }) ∧
      (∀ b bs, s.bi = some (b :: bs) → ∃ u, step t = .next u ∧ FaultRecorded u .noTreeBits 0 ∧
        u = { s with ph := .fault, pt := .rest, err := u.err })

/-- DEC inverts ENC: on a finalised tree, the codes of a symbol sequence, one after another, decode to that
sequence; DEC completes with BI empty, CUR at ROOT, and nothing else changed but SO (44_decoder.md R84, R79,
R81). -/
def Obligations.DecodeInvertsEncode : Prop :=
  ∀ (s : State) (ct : Memory CodeEntry) (xs ys : List Sym), s.ph = .busy → s.plan = [] → s.ts = .finalTree →
    WellFormedTree s.nm s.root.toNat → codeTable s.nm s.root.toNat = .ok ct → (∀ x ∈ xs, HasCode ct x) →
    s.bi = some (encodedBits ct xs) → s.so = some ys →
    exec .dec s = .next { s with cur := s.root, pt := .d0 } ∧
    Reaches { s with cur := s.root, pt := .d0 }
      { s with cur := s.root, bi := some [], so := some (ys ++ xs), ph := .idle, done := true, pt := .rest }

/-- A stream that ends inside a code: DEC sends exactly the symbols whose codes lie wholly in it and then raises
TRUNCATED with INFO = CUR = the inner node at which the bits ran out (44_decoder.md R80, R84 (b)). -/
def Obligations.CutStreamsAreTruncated : Prop :=
  ∀ (s : State) (ct : Memory CodeEntry) (xs ys : List Sym) (p : List Bool) (i : Nat), s.ph = .busy → s.plan = [] →
    s.ts = .finalTree → WellFormedTree s.nm s.root.toNat → rootIsLeaf s = false →
    codeTable s.nm s.root.toNat = .ok ct → (∀ x ∈ xs, HasCode ct x) →
    p ≠ [] → follow s.nm s.root.toNat p = some i → (nmGet s.nm i).isLeaf = false →
    s.bi = some (encodedBits ct xs ++ p) → s.so = some ys →
    ∃ t u, exec .dec s = .next t ∧ Reaches t u ∧ FaultRecorded u .truncated i ∧ u.cur.toNat = i ∧
      u = { s with cur := u.cur, bi := some [], so := some (ys ++ xs), ph := .fault, pt := .rest, err := u.err }

/-- DEC never looks at the table: a turn of DEC does the same whatever CT holds (44_decoder.md R78). -/
def Obligations.DecIgnoresTheTable : Prop :=
  ∀ (s t : State) (r : Reply) (ct' : Memory CodeEntry),
    (exec .dec s = .next t → exec .dec { s with ct := ct' } = .next { t with ct := ct' }) ∧
    (RunConsistent s → s.ph = .busy → s.op = 0x06 → engineTurn r s = .next t →
      engineTurn r { s with ct := ct' } = .next { t with ct := ct' })

/-! ## The streams -/

/-- A request that meets no answer leaves the engine waiting: nothing changes (20_memory.md R42 (d)); a port with
nothing attached never answers (70_reset_and_hazards.md R106). -/
def Obligations.UnansweredRequestsWait : Prop :=
  ∀ (s : State) (r : Reply), Consistent s → s.ph = .busy →
    ((s.pt = .f0 ∨ s.pt = .f1 ∨ s.pt = .e0 ∨ s.pt = .e1) → r = .silent ∨ s.si = none → engineTurn r s = .next s) ∧
    (s.pt = .e2 → r = .silent ∨ s.bo = none → engineTurn r s = .next s) ∧
    ((s.pt = .dNoTree ∨ s.pt = .d0 ∨ s.pt = .d1) → r = .silent ∨ s.bi = none → engineTurn r s = .next s) ∧
    (s.pt = .d2 → r = .silent ∨ s.so = none → engineTurn r s = .next s)

/-- An `err` answer raises that port's ResourceError at once; the item is neither consumed nor delivered
(20_memory.md R42 (e)); it outranks the test that would have used the answer (60_exceptions.md R94). -/
def Obligations.ErrAnswersRaiseThePortsFault : Prop :=
  ∀ s : State, Consistent s → s.ph = .busy →
    ((s.pt = .f0 ∨ s.pt = .f1 ∨ s.pt = .e0 ∨ s.pt = .e1) → s.si ≠ none →
      ∃ t, engineTurn .err s = .next t ∧ FaultRecorded t .siErr 0 ∧ t = { s with ph := .fault, pt := .rest, err := t.err }) ∧
    (s.pt = .e2 → s.bo ≠ none →
      ∃ t, engineTurn .err s = .next t ∧ FaultRecorded t .boErr 0 ∧ t = { s with ph := .fault, pt := .rest, err := t.err }) ∧
    ((s.pt = .dNoTree ∨ s.pt = .d0 ∨ s.pt = .d1) → s.bi ≠ none →
      ∃ t, engineTurn .err s = .next t ∧ FaultRecorded t .biErr 0 ∧ t = { s with ph := .fault, pt := .rest, err := t.err }) ∧
    (s.pt = .d2 → s.so ≠ none →
      ∃ t, engineTurn .err s = .next t ∧ FaultRecorded t .soErr 0 ∧ t = { s with ph := .fault, pt := .rest, err := t.err })

/-! ## Frames -/

/-- What each command leaves unchanged from its acceptance to its end (CLR, BUILD, GEN, FIN) or to its first
micro-step (FREQ, ENC, DEC): everything not named (the 'Written' and 'Not written' lines of 40_freq.md R55,
41_tree_build.md R58, R65, 42_code_table.md R68, 43_encoder.md R73, 44_decoder.md R78, 45_control.md R85). CLR writes
all of the block's state and leaves the streams, the host port's answer and the plan. -/
def Obligations.CommandFrames : Prop :=
  ∀ (s t : State) (idx : Nat),
    (exec .clr s = .next t → t = { State.reset with
      op := 0x01, done := true, si := s.si, bo := s.bo, bi := s.bi, so := s.so, resp := s.resp, plan := s.plan }) ∧
    (exec .freq s = .next t → t = { s with ft := t.ft, pt := t.pt }) ∧
    (exec .build s = .next t → t = { s with
      nm := t.nm, ts := t.ts, root := t.root, nsym := t.nsym, ct := [], pq := t.pq, next := t.next,
      ph := t.ph, done := t.done, err := t.err, pt := t.pt }) ∧
    (exec .gen s = .next t → t = { s with ct := t.ct, ph := t.ph, done := t.done, err := t.err, pt := t.pt }) ∧
    (exec .enc s = .next t → t = { s with pt := t.pt }) ∧
    (exec .dec s = .next t → t = { s with cur := t.cur, ph := t.ph, err := t.err, pt := t.pt }) ∧
    (exec (.fin idx) s = .next t → t = { s with
      ts := t.ts, root := t.root, nsym := t.nsym, ct := [], ph := t.ph, done := t.done, err := t.err, pt := t.pt })

/-- What each turn of a running command leaves unchanged, and which streams it may touch: FREQ only FT and SI; ENC
only SI, BO, ESYM and EPOS; DEC only BI, SO and CUR (20_memory.md R42 (a)). -/
def Obligations.EngineTurnFrames : Prop :=
  ∀ (s t : State) (r : Reply), RunConsistent s → s.ph = .busy → engineTurn r s = .next t →
    (s.op = 0x02 → t = { s with ft := t.ft, si := t.si, ph := t.ph, done := t.done, err := t.err, pt := t.pt }) ∧
    (s.op = 0x05 → t = { s with
      si := t.si, bo := t.bo, esym := t.esym, epos := t.epos, ph := t.ph, done := t.done, err := t.err, pt := t.pt }) ∧
    (s.op = 0x06 → t = { s with
      bi := t.bi, so := t.so, cur := t.cur, ph := t.ph, done := t.done, err := t.err, pt := t.pt })

/-! ## Whole runs -/

/-- Every running command ends when every request is answered: with all four ports attached and every
collaborator answering, PH leaves BUSY after finitely many steps (70_reset_and_hazards.md R112). -/
def Obligations.EveryCommandEnds : Prop :=
  ∀ s : State, Consistent s → s.ph = .busy → s.plan = [] →
    s.si ≠ none → s.bo ≠ none → s.bi ≠ none → s.so ≠ none → ∃ u, Reaches s u ∧ u.ph ≠ .busy

/-- The round trip (44_decoder.md R84 (a)): from any idle consistent state and for every input of at most `W_MAX`
symbols, the empty one included, FREQ, BUILD, GEN and ENC on it, each issued when the one before has ended, give a
bit stream that DEC turns back into the input, with no fault, when every collaborator answers. -/
def Obligations.RoundTripGivesTheInputBack : Prop :=
  ∀ (s : State) (xs : List Sym), Consistent s → s.ph = .idle → xs.length ≤ Config.wMax →
    ∃ s1 s2 s3 s4 s5 bs,
      Reaches { s with plan := [.attachSI xs, .write 0 0x00000002] } s1 ∧ s1.ph = .idle ∧ s1.plan = [] ∧
      Reaches { s1 with plan := [.write 0 0x00000003] } s2 ∧ s2.ph = .idle ∧ s2.plan = [] ∧
      Reaches { s2 with plan := [.write 0 0x00000004] } s3 ∧ s3.ph = .idle ∧ s3.plan = [] ∧
      Reaches { s3 with plan := [.attachSI xs, .attachBO, .write 0 0x00000005] } s4 ∧ s4.ph = .idle ∧ s4.plan = [] ∧
      s4.bo = some bs ∧
      Reaches { s4 with plan := [.attachBI bs, .attachSO, .write 0 0x00000006] } s5 ∧ s5.ph = .idle ∧ s5.plan = [] ∧
      s5.op = 0x06 ∧ s5.done = true ∧ s5.err = 0 ∧ s5.so = some xs
end

