-- ==== Sys2Proof/Laws/Bits.lean ====
section
/-! SUPPORT. Fields and concatenations of words as numbers (00_scope.md R5). -/

namespace Sys2Proof

/-- `{a, b}` as a number: `a` in the higher bits (R5). -/
theorem toNat_concat {m n : Nat} (a : BitVec m) (b : BitVec n) : (a ++ b).toNat = a.toNat * 2 ^ n + b.toNat := by
  rw [BitVec.toNat_append, Nat.shiftLeft_eq, Nat.mul_comm, Nat.two_pow_add_eq_or_of_lt b.isLt]

/-- A field `v[start+len-1 : start]` as a number (R5). -/
theorem toNat_field {n : Nat} (w : BitVec n) (start len : Nat) :
    (w.extractLsb' start len).toNat = w.toNat / 2 ^ start % 2 ^ len := by
  simp [BitVec.extractLsb'_toNat, Nat.shiftRight_eq_div_pow]

theorem opcodeField_toNat (w : Word) : (opcodeField w).toNat = w.toNat % 256 := by
  rw [opcodeField, toNat_field]; omega

theorem zeroFieldZ_eq_zero (w : Word) : zeroFieldZ w = 0 ↔ w.toNat / 256 = 0 := by
  have := w.isLt
  rw [← BitVec.toNat_inj, zeroFieldZ, toNat_field]
  change _ = 0 ↔ _
  omega

theorem zeroFieldXLow_eq_zero (w : Word) : zeroFieldXLow w = 0 ↔ w.toNat / 256 % 256 = 0 := by
  rw [← BitVec.toNat_inj, zeroFieldXLow, toNat_field]
  change _ = 0 ↔ _
  omega

theorem zeroFieldXHigh_eq_zero (w : Word) : zeroFieldXHigh w = 0 ↔ w.toNat / 33554432 = 0 := by
  have := w.isLt
  rw [← BitVec.toNat_inj, zeroFieldXHigh, toNat_field]
  change _ = 0 ↔ _
  omega

theorem indexField_toNat (w : Word) : (indexField w).toNat = w.toNat / 65536 % 512 := by
  rw [indexField, toNat_field]; omega

theorem encode_fin_toNat (idx : Nat) : (encode (.fin idx)).toNat = idx % 512 * 65536 + 7 := by
  simp only [encode, toNat_concat, BitVec.toNat_ofNat]
  omega

end Sys2Proof
end

