-- ==== Sys2Proof/Laws/Memory.lean ====
section
/-! SUPPORT. The laws of the arrays: read after write, canonical form, equality. -/

namespace Sys2Proof.Machine

variable {α : Type}

@[simp] theorem Memory.get_nil (d : α) (k : Nat) : Memory.get d [] k = d := rfl

theorem Memory.get_cons (d : α) (a : Nat) (v : α) (m : Memory α) (k : Nat) :
    Memory.get d ((a, v) :: m) k = if k = a then v else Memory.get d m k := rfl

/-- An index below every listed one reads as the reset content. -/
theorem Memory.get_of_lt_all (d : α) {m : Memory α} {k : Nat} (h : ∀ e ∈ m, k < e.1) : Memory.get d m k = d := by
  induction m with
  | nil => rfl
  | cons e m ih =>
    obtain ⟨a, v⟩ := e
    have hk : k < a := h (a, v) (by simp)
    rw [Memory.get_cons, if_neg (by omega)]
    exact ih fun e he => h e (List.mem_cons_of_mem _ he)

theorem Memory.get_of_bound (d : α) {m : Memory α} {k b : Nat} (h : m.within b) (hk : b ≤ k) :
    Memory.get d m k = d := by
  induction m with
  | nil => rfl
  | cons e m ih =>
    obtain ⟨a, v⟩ := e
    have ha : a < b := h (a, v) (by simp)
    rw [Memory.get_cons, if_neg (by omega)]
    exact ih fun e he => h e (List.mem_cons_of_mem _ he)

theorem Memory.wf_tail {d : α} {e : Nat × α} {m : Memory α} (h : Memory.wf d (e :: m)) : Memory.wf d m :=
  ⟨(List.pairwise_cons.mp h.1).2, fun x hx => h.2 x (List.mem_cons_of_mem _ hx)⟩

theorem Memory.nil_wf (d : α) : Memory.wf d ([] : Memory α) := ⟨List.Pairwise.nil, by simp⟩

theorem Memory.nil_within (b : Nat) : Memory.within b ([] : Memory α) := by
  intro e he
  cases he

section
variable [DecidableEq α]

/-- A write leaves every other entry alone. -/
theorem Memory.get_set_ne (d : α) (m : Memory α) {k j : Nat} (v : α) (h : j ≠ k) :
    Memory.get d (Memory.set d m k v) j = Memory.get d m j := by
  induction m with
  | nil =>
    unfold Memory.set
    split
    · rfl
    · rw [Memory.get_cons, if_neg h]
  | cons e m ih =>
    obtain ⟨a, w⟩ := e
    unfold Memory.set
    split_ifs with h1 h2 h3 h4
    · rfl
    · rw [Memory.get_cons, if_neg h]
    · rw [Memory.get_cons, if_neg (by omega)]
    · rw [Memory.get_cons, Memory.get_cons, if_neg h, if_neg (by omega)]
    · rw [Memory.get_cons, Memory.get_cons, ih]

/-- A read after a write to the same entry gives the value written. -/
theorem Memory.get_set_self (d : α) {m : Memory α} (k : Nat) (v : α) (h : Memory.wf d m) :
    Memory.get d (Memory.set d m k v) k = v := by
  induction m with
  | nil =>
    unfold Memory.set
    split
    · simp_all
    · simp [Memory.get_cons]
  | cons e m ih =>
    obtain ⟨a, w⟩ := e
    have hlt := (List.pairwise_cons.mp h.1).1
    unfold Memory.set
    split_ifs with h1 h2 h3 h4
    · rw [h2]
      exact Memory.get_of_lt_all d fun e he => by
        rcases List.mem_cons.mp he with rfl | he
        · exact h1
        · exact lt_trans h1 (hlt e he)
    · simp [Memory.get_cons]
    · rw [h4, h3]
      exact Memory.get_of_lt_all d hlt
    · simp [Memory.get_cons]
    · rw [Memory.get_cons, if_neg h3, ih (Memory.wf_tail h)]

theorem Memory.get_set (d : α) {m : Memory α} (k j : Nat) (v : α) (h : Memory.wf d m) :
    Memory.get d (Memory.set d m k v) j = if j = k then v else Memory.get d m j := by
  split_ifs with hj
  · rw [hj, Memory.get_set_self d k v h]
  · exact Memory.get_set_ne d m v hj

/-- What a write lists: entries that were listed, and the one written. -/
theorem Memory.mem_set {d : α} {m : Memory α} {k : Nat} {v : α} {e : Nat × α} (h : e ∈ Memory.set d m k v) :
    e ∈ m ∨ (e = (k, v) ∧ v ≠ d) := by
  induction m with
  | nil =>
    unfold Memory.set at h
    split at h
    · simp at h
    · right; simp_all
  | cons f m ih =>
    obtain ⟨a, w⟩ := f
    unfold Memory.set at h
    split_ifs at h with h1 h2 h3 h4
    · exact .inl h
    · rcases List.mem_cons.mp h with rfl | h
      · exact .inr ⟨rfl, h2⟩
      · exact .inl h
    · exact .inl (List.mem_cons_of_mem _ h)
    · rcases List.mem_cons.mp h with rfl | h
      · exact .inr ⟨rfl, h4⟩
      · exact .inl (List.mem_cons_of_mem _ h)
    · rcases List.mem_cons.mp h with rfl | h
      · exact .inl (by simp)
      · rcases ih h with h | h
        · exact .inl (List.mem_cons_of_mem _ h)
        · exact .inr h

/-- Every write keeps the canonical form. -/
theorem Memory.set_wf {d : α} {m : Memory α} (k : Nat) (v : α) (h : Memory.wf d m) :
    Memory.wf d (Memory.set d m k v) := by
  induction m with
  | nil =>
    unfold Memory.set
    split
    · exact h
    · exact ⟨by simp, by simp_all⟩
  | cons f m ih =>
    obtain ⟨a, w⟩ := f
    have hlt := (List.pairwise_cons.mp h.1).1
    have hw : w ≠ d := h.2 (a, w) (by simp)
    have ht := Memory.wf_tail h
    unfold Memory.set
    split_ifs with h1 h2 h3 h4
    · exact h
    · refine ⟨List.pairwise_cons.mpr ⟨fun e he => ?_, h.1⟩, fun e he => ?_⟩
      · rcases List.mem_cons.mp he with rfl | he
        · exact h1
        · exact lt_trans h1 (hlt e he)
      · rcases List.mem_cons.mp he with rfl | he
        · exact h2
        · exact h.2 e he
    · exact ht
    · refine ⟨List.pairwise_cons.mpr ⟨fun e he => by rw [h3]; exact hlt e he, ht.1⟩, fun e he => ?_⟩
      rcases List.mem_cons.mp he with rfl | he
      · exact h4
      · exact ht.2 e he
    · have hi := ih ht
      refine ⟨List.pairwise_cons.mpr ⟨fun e he => ?_, hi.1⟩, fun e he => ?_⟩
      · rcases Memory.mem_set he with he | ⟨rfl, -⟩
        · exact hlt e he
        · show a < k
          omega
      · rcases List.mem_cons.mp he with rfl | he
        · exact hw
        · exact hi.2 e he

theorem Memory.set_within {d : α} {m : Memory α} {k b : Nat} {v : α} (h : m.within b) (hk : k < b) :
    (Memory.set d m k v).within b := by
  intro e he
  rcases Memory.mem_set he with he | ⟨rfl, -⟩
  · exact h e he
  · exact hk

end

/-- Two arrays in canonical form that read alike everywhere are equal data. -/
theorem Memory.ext_get {d : α} {m m' : Memory α} (h : Memory.wf d m) (h' : Memory.wf d m')
    (hg : ∀ k, Memory.get d m k = Memory.get d m' k) : m = m' := by
  induction m generalizing m' with
  | nil =>
    cases m' with
    | nil => rfl
    | cons e' m' =>
      obtain ⟨a', v'⟩ := e'
      have := hg a'
      simp [Memory.get_cons] at this
      exact absurd this.symm (h'.2 (a', v') (by simp))
  | cons e m ih =>
    obtain ⟨a, v⟩ := e
    have hv : v ≠ d := h.2 (a, v) (by simp)
    have hlt := (List.pairwise_cons.mp h.1).1
    cases m' with
    | nil =>
      have := hg a
      simp [Memory.get_cons] at this
      exact absurd this hv
    | cons e' m' =>
      obtain ⟨a', v'⟩ := e'
      have hv' : v' ≠ d := h'.2 (a', v') (by simp)
      have hlt' := (List.pairwise_cons.mp h'.1).1
      have haa : a = a' := by
        rcases lt_trichotomy a a' with hl | he | hl
        · have := hg a
          rw [Memory.get_cons, if_pos rfl, Memory.get_cons, if_neg (by omega),
            Memory.get_of_lt_all d fun e he => lt_trans hl (hlt' e he)] at this
          exact absurd this hv
        · exact he
        · have := hg a'
          rw [Memory.get_cons, if_neg (by omega), Memory.get_of_lt_all d fun e he => lt_trans hl (hlt e he),
            Memory.get_cons, if_pos rfl] at this
          exact absurd this.symm hv'
      subst haa
      have hvv : v = v' := by simpa [Memory.get_cons] using hg a
      subst hvv
      have : m = m' := ih (Memory.wf_tail h) (Memory.wf_tail h') fun k => by
        by_cases hk : k = a
        · subst hk
          rw [Memory.get_of_lt_all d hlt, Memory.get_of_lt_all d hlt']
        · have := hg k
          rwa [Memory.get_cons, if_neg hk, Memory.get_cons, if_neg hk] at this
      rw [this]

/-- The canonical form of an array is decided by its reads: nothing listed means every entry is at its reset
content, and the other way round. -/
theorem Memory.eq_nil_iff {d : α} {m : Memory α} (h : Memory.wf d m) : m = [] ↔ ∀ k, Memory.get d m k = d :=
  ⟨fun hm k => by rw [hm]; rfl, fun hg => Memory.ext_get h (Memory.nil_wf d) fun k => by rw [hg k]; rfl⟩

/-! ### FT, NM and CT -/

theorem ftGet_ftSet {m : Memory Word} (h : Memory.wf 0 m) (x y : Nat) (c : Word) :
    ftGet (ftSet m x c) y = if y = x then c else ftGet m y := Memory.get_set 0 x y c h

theorem nmGet_nmSet {m : Memory Node} (h : Memory.wf Node.zero m) (i j : Nat) (nd : Node) :
    nmGet (nmSet m i nd) j = if j = i then nd else nmGet m j := Memory.get_set Node.zero i j nd h

theorem ctGet_ctSet {m : Memory CodeEntry} (h : Memory.wf CodeEntry.invalid m) (x y : Nat) (e : CodeEntry) :
    ctGet (ctSet m x e) y = if y = x then e else ctGet m y := Memory.get_set CodeEntry.invalid x y e h

@[simp] theorem ftGet_nil (x : Nat) : ftGet [] x = 0 := rfl
@[simp] theorem nmGet_nil (i : Nat) : nmGet [] i = Node.zero := rfl
@[simp] theorem ctGet_nil (x : Nat) : ctGet [] x = CodeEntry.invalid := rfl

theorem ftGet_ftSet_ne (m : Memory Word) {x y : Nat} (c : Word) (h : y ≠ x) : ftGet (ftSet m x c) y = ftGet m y :=
  Memory.get_set_ne 0 m c h

theorem nmGet_nmSet_ne (m : Memory Node) {i j : Nat} (nd : Node) (h : j ≠ i) :
    nmGet (nmSet m i nd) j = nmGet m j := Memory.get_set_ne Node.zero m nd h

theorem ctGet_ctSet_ne (m : Memory CodeEntry) {x y : Nat} (e : CodeEntry) (h : y ≠ x) :
    ctGet (ctSet m x e) y = ctGet m y := Memory.get_set_ne CodeEntry.invalid m e h

end Sys2Proof.Machine
end

