-- ==== Sys2Proof/Laws/Tree.lean ====
section
/-! SUPPORT. Trees in node memory as an inductive type: what FIN's check accepts is exactly a represented tree
without sharing and with distinct symbols (41_tree_build.md R66), and it is at most 255 deep (30_encoding.md R50). -/

namespace Sys2Proof.Machine

/-- A strict binary tree whose nodes carry the index of their record and whose leaves carry a symbol. -/
inductive Shape where
  | leaf (i : Nat) (x : Sym)
  | node (i : Nat) (l r : Shape)
  deriving DecidableEq, Repr

/-- The index of the root's record. -/
def Shape.root : Shape → Nat
  | .leaf i _ => i
  | .node i _ _ => i

/-- The indices of the nodes in pre-order. -/
def Shape.indices : Shape → List Nat
  | .leaf i _ => [i]
  | .node i l r => i :: (l.indices ++ r.indices)

/-- The symbols of the leaves from left to right. -/
def Shape.symbols : Shape → List Sym
  | .leaf _ x => [x]
  | .node _ l r => l.symbols ++ r.symbols

/-- The number of edges on a longest path from the root. -/
def Shape.height : Shape → Nat
  | .leaf _ _ => 0
  | .node _ l r => max l.height r.height + 1

/-- The symbols with their paths, below a path `p` to the root. -/
def Shape.paths (p : List Bool) : Shape → List (Sym × List Bool)
  | .leaf _ x => [(x, p)]
  | .node _ l r => l.paths (p ++ [false]) ++ r.paths (p ++ [true])

/-- The tree stands in node memory: every record is as the checks c1, c3, c4, c6, c7, c8 of 41_tree_build.md R66
ask. -/
def Shape.In (nm : Memory Node) : Shape → Prop
  | .leaf i x => i < Config.nodeMax ∧ (nmGet nm i).hasLeft = false ∧ (nmGet nm i).hasRight = false ∧
      (nmGet nm i).hasSym = true ∧ (nmGet nm i).sym = x
  | .node i l r => i < Config.nodeMax ∧ (nmGet nm i).hasLeft = true ∧ (nmGet nm i).hasRight = true ∧
      (nmGet nm i).hasSym = false ∧ (nmGet nm i).left.toNat = l.root ∧ (nmGet nm i).right.toNat = r.root ∧
      l.root < i ∧ r.root < i ∧
      (nmGet nm i).weight.toNat = (nmGet nm l.root).weight.toNat + (nmGet nm r.root).weight.toNat ∧
      l.In nm ∧ r.In nm

@[simp] theorem Shape.root_leaf (i : Nat) (x : Sym) : (Shape.leaf i x).root = i := rfl
@[simp] theorem Shape.root_node (i : Nat) (l r : Shape) : (Shape.node i l r).root = i := rfl

theorem Shape.root_lt {nm : Memory Node} {t : Shape} (h : t.In nm) : t.root < Config.nodeMax := by
  cases t with
  | leaf i x => exact h.1
  | node i l r => exact h.1

theorem Shape.isRecord_root {nm : Memory Node} {t : Shape} (h : t.In nm) : isRecord t.root = true := by
  simpa [isRecord] using Shape.root_lt h

theorem Shape.isLeaf_leaf {nm : Memory Node} {i : Nat} {x : Sym} (h : (Shape.leaf i x).In nm) :
    (nmGet nm i).isLeaf = true := by
  simp [Node.isLeaf, h.2.1, h.2.2.1]

theorem Shape.isLeaf_node {nm : Memory Node} {i : Nat} {l r : Shape} (h : (Shape.node i l r).In nm) :
    (nmGet nm i).isLeaf = false := by
  simp [Node.isLeaf, h.2.1]

theorem Shape.child_false {nm : Memory Node} {i : Nat} {l r : Shape} (h : (Shape.node i l r).In nm) :
    ((nmGet nm i).child false).toNat = l.root := by
  simpa [Node.child] using h.2.2.2.2.1

theorem Shape.child_true {nm : Memory Node} {i : Nat} {l r : Shape} (h : (Shape.node i l r).In nm) :
    ((nmGet nm i).child true).toNat = r.root := by
  simpa [Node.child] using h.2.2.2.2.2.1

theorem Shape.symbols_ne_nil (t : Shape) : t.symbols ≠ [] := by
  induction t with
  | leaf i x => simp [Shape.symbols]
  | node i l r ihl _ => simp [Shape.symbols, ihl]

/-- A strict binary tree with L leaves is less than L deep (30_encoding.md R50). -/
theorem Shape.height_lt (t : Shape) : t.height < t.symbols.length := by
  induction t with
  | leaf i x => simp [Shape.height, Shape.symbols]
  | node i l r ihl ihr => simp only [Shape.height, Shape.symbols, List.length_append]; omega

/-- A strict binary tree with L leaves has 2L - 1 nodes. -/
theorem Shape.indices_length (t : Shape) : t.indices.length + 1 = 2 * t.symbols.length := by
  induction t with
  | leaf i x => rfl
  | node i l r ihl ihr => simp only [Shape.indices, Shape.symbols, List.length_append, List.length_cons]; omega

/-- There are 256 symbols, so distinct symbols are at most 256. -/
theorem symbols_length_le {l : List Sym} (h : l.Nodup) : l.length ≤ 256 := by
  have hc := List.Nodup.length_le_card (l := l.map BitVec.toFin) (h.map fun a b hab => BitVec.eq_of_toFin_eq hab)
  simpa using hc

theorem Shape.height_le {t : Shape} (h : t.symbols.Nodup) : t.height ≤ Config.lenMax := by
  have := t.height_lt
  have := symbols_length_le h
  show t.height ≤ 255
  omega

theorem Shape.paths_symbols (t : Shape) (p : List Bool) : (t.paths p).map Prod.fst = t.symbols := by
  induction t generalizing p with
  | leaf i x => rfl
  | node i l r ihl ihr => simp [Shape.paths, Shape.symbols, ihl, ihr]

/-! ### The check accepts exactly the trees -/

/-- A test of the check that fails is an error; an answer means the test passed. -/
theorem ite_error_eq_ok {β : Type} {c : Prop} [Decidable c] {i : Nat} {x : Except Nat β} {b : β} :
    (if c then .error i else x) = .ok b ↔ ¬c ∧ x = .ok b := by
  by_cases h : c <;> simp [h]

/-- One step of the check at a leaf: the tests c1 to c5. -/
theorem visit_leaf {nm : Memory Node} {fuel i : Nat} {v v' : Seen} (hl : (nmGet nm i).hasLeft = false) :
    visit nm (fuel + 1) i v = .ok v' ↔
      i < Config.nodeMax ∧ i ∉ v.visited ∧ (nmGet nm i).hasRight = false ∧ (nmGet nm i).hasSym = true ∧
        (nmGet nm i).sym ∉ v.symbols ∧
        v' = { visited := i :: v.visited, symbols := (nmGet nm i).sym :: v.symbols } := by
  rw [visit.eq_def]
  simp only [isRecord, hl, ite_error_eq_ok, Bool.not_false, if_true]
  simp only [Bool.not_eq_true', decide_eq_false_iff_not, not_not, ne_eq, Except.ok.injEq, Bool.false_eq, Bool.not_eq_false, Bool.not_eq_true, eq_comm (b := v')]

/-- One step of the check at an inner node: the tests c1 to c3, c6 to c8, then the two subtrees. -/
theorem visit_inner {nm : Memory Node} {fuel i : Nat} {v v' : Seen} (hl : (nmGet nm i).hasLeft = true) :
    visit nm (fuel + 1) i v = .ok v' ↔
      (i < Config.nodeMax ∧ i ∉ v.visited ∧ (nmGet nm i).hasRight = true ∧ (nmGet nm i).hasSym = false ∧
        (nmGet nm i).left.toNat < i ∧ (nmGet nm i).right.toNat < i ∧
        (nmGet nm i).weight.toNat =
          (nmGet nm (nmGet nm i).left.toNat).weight.toNat + (nmGet nm (nmGet nm i).right.toNat).weight.toNat) ∧
      ∃ u, visit nm fuel (nmGet nm i).left.toNat { v with visited := i :: v.visited } = .ok u ∧
        visit nm fuel (nmGet nm i).right.toNat u = .ok v' := by
  rw [visit.eq_def]
  simp only [isRecord, hl, ite_error_eq_ok, Bool.not_true, Bool.false_eq_true, if_false]
  cases hu : visit nm fuel (nmGet nm i).left.toNat { v with visited := i :: v.visited } with
  | error x => simp
  | ok u => simp [and_assoc]

/-- What a successful visit saw is a tree, added to what had been seen before, without repeats. -/
theorem visit_sound {nm : Memory Node} {fuel i : Nat} {v v' : Seen} (h : visit nm fuel i v = .ok v')
    (hv : v.visited.Nodup) (hs : v.symbols.Nodup) :
    ∃ t : Shape, t.In nm ∧ t.root = i ∧ v'.visited = t.indices.reverse ++ v.visited ∧
      v'.symbols = t.symbols.reverse ++ v.symbols ∧ v'.visited.Nodup ∧ v'.symbols.Nodup := by
  induction fuel generalizing i v v' with
  | zero => cases h
  | succ fuel ih =>
    cases hl : (nmGet nm i).hasLeft with
    | false =>
      obtain ⟨h1, h2, h3, h4, h5, rfl⟩ := (visit_leaf hl).mp h
      exact ⟨.leaf i (nmGet nm i).sym, ⟨h1, hl, h3, h4, rfl⟩, rfl, rfl, rfl, List.nodup_cons.mpr ⟨h2, hv⟩,
        List.nodup_cons.mpr ⟨h5, hs⟩⟩
    | true =>
      obtain ⟨⟨h1, h2, h3, h4, h5, h6, h7⟩, u, hu, hu'⟩ := (visit_inner hl).mp h
      obtain ⟨l, hlIn, hlr, hlv, hls, hlvn, hlsn⟩ := ih hu (List.nodup_cons.mpr ⟨h2, hv⟩) hs
      obtain ⟨r, hrIn, hrr, hrv, hrs, hrvn, hrsn⟩ := ih hu' hlvn hlsn
      refine ⟨.node i l r, ⟨h1, hl, h3, h4, hlr.symm, hrr.symm, hlr ▸ h5, hrr ▸ h6, ?_, hlIn, hrIn⟩, rfl, ?_, ?_,
        hrvn, hrsn⟩
      · rw [hlr, hrr, h7]
      · simp [Shape.indices, hrv, hlv]
      · simp [Shape.symbols, hrs, hls]

/-- A tree in node memory is accepted by a visit, when nothing of it has been seen before. -/
theorem visit_complete {nm : Memory Node} {t : Shape} (ht : t.In nm) {fuel : Nat} {v : Seen} (hf : t.root < fuel)
    (hv : (t.indices.reverse ++ v.visited).Nodup) (hs : (t.symbols.reverse ++ v.symbols).Nodup) :
    visit nm fuel t.root v =
      .ok { visited := t.indices.reverse ++ v.visited, symbols := t.symbols.reverse ++ v.symbols } := by
  induction t generalizing fuel v with
  | leaf i x =>
    obtain ⟨fuel, rfl⟩ : ∃ n, fuel = n + 1 := ⟨fuel - 1, by simp at hf; omega⟩
    obtain ⟨h1, h2, h3, h4, rfl⟩ := ht
    simp only [Shape.indices, Shape.symbols, List.reverse_singleton, List.singleton_append, List.nodup_cons] at hv hs
    exact (visit_leaf h2).mpr ⟨h1, hv.1, h3, h4, hs.1, rfl⟩
  | node i l r ihl ihr =>
    obtain ⟨fuel, rfl⟩ : ∃ n, fuel = n + 1 := ⟨fuel - 1, by simp at hf; omega⟩
    obtain ⟨h1, h2, h3, h4, h5, h6, h7, h8, h9, hlIn, hrIn⟩ := ht
    simp only [Shape.root_node] at hf
    have hv' : (r.indices.reverse ++ (l.indices.reverse ++ (i :: v.visited))).Nodup := by
      simpa [Shape.indices] using hv
    have hs' : (r.symbols.reverse ++ (l.symbols.reverse ++ v.symbols)).Nodup := by
      simpa [Shape.symbols] using hs
    have hl := ihl hlIn (fuel := fuel) (v := { v with visited := i :: v.visited }) (by omega)
      (List.Nodup.of_append_right hv') (List.Nodup.of_append_right hs')
    have hr := ihr hrIn (fuel := fuel)
      (v := { visited := l.indices.reverse ++ (i :: v.visited), symbols := l.symbols.reverse ++ v.symbols })
      (by omega) hv' hs'
    have hi : i ∉ v.visited :=
      (List.nodup_cons.mp (List.Nodup.of_append_right (List.Nodup.of_append_right hv'))).1
    rw [Shape.root_node, (visit_inner h2).mpr
      ⟨⟨h1, hi, h3, h4, h5 ▸ h7, h6 ▸ h8, by rw [h5, h6, h9]⟩, _, h5 ▸ hl, h6 ▸ hr⟩]
    simp [Shape.indices, Shape.symbols]

/-- The check succeeds exactly on a tree without repeated nodes and with distinct symbols, and answers its
number of leaves (41_tree_build.md R66). -/
theorem check_ok_iff {nm : Memory Node} {r n : Nat} :
    check nm r = .ok n ↔
      ∃ t : Shape, t.In nm ∧ t.root = r ∧ t.indices.Nodup ∧ t.symbols.Nodup ∧ t.symbols.length = n := by
  constructor
  · intro h
    unfold check at h
    cases hv : visit nm (r + 1) r { visited := [], symbols := [] } with
    | error x => rw [hv] at h; cases h
    | ok v =>
      rw [hv] at h
      obtain ⟨t, hIn, hr, h1, h2, h3, h4⟩ := visit_sound hv List.nodup_nil List.nodup_nil
      rw [h1] at h3
      rw [h2] at h4
      refine ⟨t, hIn, hr, by simpa using h3, by simpa using h4, ?_⟩
      simpa [h2] using h
  · rintro ⟨t, hIn, rfl, h1, h2, rfl⟩
    unfold check
    rw [visit_complete hIn (by omega) (by simpa using h1) (by simpa using h2)]
    simp

theorem WellFormedTree.shape {nm : Memory Node} {r : Nat} (h : WellFormedTree nm r) :
    ∃ t : Shape, t.In nm ∧ t.root = r ∧ t.indices.Nodup ∧ t.symbols.Nodup :=
  let ⟨_, hn⟩ := h
  let ⟨t, h1, h2, h3, h4, _⟩ := check_ok_iff.mp hn
  ⟨t, h1, h2, h3, h4⟩

/-- A checked tree has at most 256 leaves, so NSYM holds their number. -/
theorem check_leaves_le {nm : Memory Node} {r n : Nat} (h : check nm r = .ok n) : n ≤ 256 := by
  obtain ⟨t, _, _, _, h4, rfl⟩ := check_ok_iff.mp h
  exact symbols_length_le h4

/-! ### Following a path -/

theorem follow_leaf {nm : Memory Node} {i : Nat} {x : Sym} (h : (Shape.leaf i x).In nm) (b : Bool) (p : List Bool) :
    follow nm i (b :: p) = none := by
  rw [follow, if_pos (Shape.isLeaf_leaf h)]

theorem follow_node {nm : Memory Node} {i : Nat} {l r : Shape} (h : (Shape.node i l r).In nm) (b : Bool)
    (p : List Bool) : follow nm i (b :: p) = follow nm (if b then r.root else l.root) p := by
  rw [follow, if_neg (by simp [Shape.isLeaf_node h])]
  cases b
  · simp [Shape.child_false h]
  · simp [Shape.child_true h]

theorem follow_append (nm : Memory Node) (i : Nat) (p q : List Bool) :
    follow nm i (p ++ q) = (follow nm i p).bind fun j => follow nm j q := by
  induction p generalizing i with
  | nil => rfl
  | cons b p ih =>
    simp only [List.cons_append, follow]
    split
    · rfl
    · exact ih _

/-- Below a leaf nothing is reached but the leaf itself. -/
theorem follow_of_isLeaf {nm : Memory Node} {i j : Nat} {p : List Bool} (hl : (nmGet nm i).isLeaf = true)
    (h : follow nm i p = some j) : p = [] ∧ j = i := by
  cases p with
  | nil => exact ⟨rfl, (Option.some.inj h).symm⟩
  | cons b p => rw [follow, if_pos hl] at h; cases h

/-- A node reached in a represented tree is the root of a represented subtree. -/
theorem Shape.follow_subtree {nm : Memory Node} {t : Shape} (ht : t.In nm) {p : List Bool} {j : Nat}
    (h : follow nm t.root p = some j) :
    ∃ u : Shape, u.In nm ∧ u.root = j ∧ u.indices ⊆ t.indices ∧ u.symbols ⊆ t.symbols := by
  induction p generalizing t with
  | nil => exact ⟨t, ht, Option.some.inj h, fun _ h => h, fun _ h => h⟩
  | cons b p ih =>
    cases t with
    | leaf i x => rw [Shape.root_leaf, follow_leaf ht] at h; cases h
    | node i l r =>
      rw [Shape.root_node, follow_node ht] at h
      cases b with
      | false =>
        obtain ⟨u, h1, h2, h3, h4⟩ := ih ht.2.2.2.2.2.2.2.2.2.1 h
        exact ⟨u, h1, h2, fun _ hx => by simp [Shape.indices, h3 hx], fun _ hx => by simp [Shape.symbols, h4 hx]⟩
      | true =>
        obtain ⟨u, h1, h2, h3, h4⟩ := ih ht.2.2.2.2.2.2.2.2.2.2 h
        exact ⟨u, h1, h2, fun _ hx => by simp [Shape.indices, h3 hx], fun _ hx => by simp [Shape.symbols, h4 hx]⟩

/-- The recorded paths are exactly the paths from the root to the leaves. -/
theorem Shape.mem_paths {nm : Memory Node} {t : Shape} (ht : t.In nm) (p q : List Bool) (x : Sym) :
    (x, q) ∈ t.paths p ↔ ∃ q', q = p ++ q' ∧ PathToSymbol nm t.root q' x := by
  induction t generalizing p q with
  | leaf i y =>
    have hl := Shape.isLeaf_leaf ht
    obtain ⟨_, _, _, _, rfl⟩ := ht
    constructor
    · intro h
      simp only [Shape.paths, List.mem_singleton, Prod.mk.injEq] at h
      exact ⟨[], by simp [h.2], i, rfl, hl, h.1.symm⟩
    · rintro ⟨q', rfl, j, hj, hjl, rfl⟩
      obtain ⟨rfl, rfl⟩ := follow_of_isLeaf hl hj
      simp [Shape.paths]
  | node i l r ihl ihr =>
    have hlIn := ht.2.2.2.2.2.2.2.2.2.1
    have hrIn := ht.2.2.2.2.2.2.2.2.2.2
    simp only [Shape.paths, List.mem_append, ihl hlIn, ihr hrIn, Shape.root_node]
    constructor
    · rintro (⟨q', rfl, j, hj, hjl, hjx⟩ | ⟨q', rfl, j, hj, hjl, hjx⟩)
      · exact ⟨false :: q', by simp, j, by rw [follow_node ht]; exact hj, hjl, hjx⟩
      · exact ⟨true :: q', by simp, j, by rw [follow_node ht]; exact hj, hjl, hjx⟩
    · rintro ⟨q', rfl, j, hj, hjl, hjx⟩
      cases q' with
      | nil =>
        cases hj
        rw [Shape.isLeaf_node ht] at hjl
        cases hjl
      | cons b q' =>
        rw [follow_node ht] at hj
        cases b
        · exact .inl ⟨q', by simp, j, hj, hjl, hjx⟩
        · exact .inr ⟨q', by simp, j, hj, hjl, hjx⟩

/-- With distinct symbols a symbol has one path. -/
theorem Shape.paths_unique {t : Shape} (h : t.symbols.Nodup) {p q q' : List Bool} {x : Sym}
    (hq : (x, q) ∈ t.paths p) (hq' : (x, q') ∈ t.paths p) : q = q' := by
  have hn : ((t.paths p).map Prod.fst).Nodup := by rw [Shape.paths_symbols]; exact h
  exact congrArg Prod.snd (List.inj_on_of_nodup_map hn hq hq' rfl)

theorem PathToSymbol.unique {nm : Memory Node} {t : Shape} (ht : t.In nm) (hs : t.symbols.Nodup)
    {p q : List Bool} {x : Sym} (hp : PathToSymbol nm t.root p x) (hq : PathToSymbol nm t.root q x) : p = q :=
  Shape.paths_unique hs ((Shape.mem_paths ht [] p x).mpr ⟨p, rfl, hp⟩) ((Shape.mem_paths ht [] q x).mpr ⟨q, rfl, hq⟩)

/-- A path is no longer than the tree is high. -/
theorem Shape.follow_length_le {nm : Memory Node} {t : Shape} (ht : t.In nm) {p : List Bool} {j : Nat}
    (h : follow nm t.root p = some j) : p.length ≤ t.height := by
  induction p generalizing t with
  | nil => simp
  | cons b p ih =>
    cases t with
    | leaf i x => rw [Shape.root_leaf, follow_leaf ht] at h; cases h
    | node i l r =>
      rw [Shape.root_node, follow_node ht] at h
      cases b with
      | false => have := ih ht.2.2.2.2.2.2.2.2.2.1 h; simp only [List.length_cons, Shape.height]; omega
      | true => have := ih ht.2.2.2.2.2.2.2.2.2.2 h; simp only [List.length_cons, Shape.height]; omega

/-- Two leaves at paths one of which extends the other are one leaf (42_code_table.md R72 (b)). -/
theorem PathToSymbol.prefix_eq {nm : Memory Node} {r : Nat} {p q : List Bool} {x y : Sym}
    (hp : PathToSymbol nm r p x) (hq : PathToSymbol nm r q y) (h : p <+: q) : p = q ∧ x = y := by
  obtain ⟨s, rfl⟩ := h
  obtain ⟨i, hi, hil, rfl⟩ := hp
  obtain ⟨j, hj, hjl, rfl⟩ := hq
  rw [follow_append, hi] at hj
  obtain ⟨rfl, rfl⟩ := follow_of_isLeaf hil hj
  exact ⟨by simp, rfl⟩

end Sys2Proof.Machine
end

