-- ==== Sys2Proof/Laws/Build.lean ====
section
/-! SUPPORT. What BUILD's seeding, queue and merges keep (41_tree_build.md R59 to R64). -/

namespace Sys2Proof.Machine

/-! ### Seeding -/

/-- The present symbols below `m`, ascending. -/
def presentBelow (ft : Memory Word) (m : Nat) : List Nat := (List.range m).filter fun x => decide (ftGet ft x ≠ 0)

theorem presentBelow_succ (ft : Memory Word) (m : Nat) :
    presentBelow ft (m + 1) = presentBelow ft m ++ if ftGet ft m = 0 then [] else [m] := by
  rw [presentBelow, List.range_succ, List.filter_append]
  congr 1
  rw [List.filter_singleton]
  by_cases h : ftGet ft m = 0 <;> simp only [h, ne_eq, not_true_eq_false, not_false_eq_true, decide_true, decide_false,
    cond_true, cond_false, if_true, if_false]

theorem presentSymbols_eq (ft : Memory Word) : presentSymbols ft = presentBelow ft Config.nSymbols := rfl

/-- Seeding up to the symbol `m`. -/
def seedBelow (ft : Memory Word) (m : Nat) : Forest :=
  (List.range m).foldl (seedSymbol ft) { nm := [], pq := [], next := 0 }

theorem seedBelow_succ (ft : Memory Word) (m : Nat) : seedBelow ft (m + 1) = seedSymbol ft (seedBelow ft m) m := by
  simp [seedBelow, List.range_succ]

theorem leafNode_ne_zero (x : Sym) (c : Word) : leafNode x c ≠ Node.zero := by
  intro h
  have := congrArg Node.hasSym h
  simp [leafNode, Node.zero] at this

/-- What seeding leaves: leaf `j` carries the (j+1)-th smallest present symbol with its count, the queue holds
the leaves in order, everything from `n` on is 0 (41_tree_build.md R59). -/
structure Seeded (ft : Memory Word) (l : List Nat) (f : Forest) : Prop where
  next : f.next = l.length
  queue : f.pq = List.range l.length
  wf : Memory.wf Node.zero f.nm
  within : Memory.within l.length f.nm
  leaf : ∀ j (h : j < l.length), nmGet f.nm j = leafNode (BitVec.ofNat 8 l[j]) (ftGet ft l[j])

theorem seedBelow_seeded (ft : Memory Word) (m : Nat) : Seeded ft (presentBelow ft m) (seedBelow ft m) := by
  induction m with
  | zero => exact ⟨rfl, rfl, Memory.nil_wf _, Memory.nil_within _, fun j h => by simp [presentBelow] at h⟩
  | succ m ih =>
    rw [presentBelow_succ, seedBelow_succ, seedSymbol]
    by_cases h : ftGet ft m = 0
    · simpa [h] using ih
    · simp only [h, if_false]
      refine ⟨by simp [ih.next], ?_, Memory.set_wf _ _ ih.wf, ?_, ?_⟩
      · simp [ih.queue, ih.next, List.range_succ]
      · rw [List.length_append, ih.next]
        exact Memory.set_within (fun e he => lt_of_lt_of_le (ih.within e he) (by simp)) (by simp)
      · intro j hj
        simp only [List.length_append, List.length_singleton] at hj
        rw [nmGet_nmSet ih.wf, ih.next]
        by_cases hjl : j < (presentBelow ft m).length
        · rw [if_neg (by omega), ih.leaf j hjl]
          simp [hjl]
        · have : j = (presentBelow ft m).length := by omega
          subst this
          simp

theorem seed_seeded (ft : Memory Word) : Seeded ft (presentSymbols ft) (seed ft) := seedBelow_seeded ft _

theorem presentSymbols_length_le (ft : Memory Word) : (presentSymbols ft).length ≤ Config.nSymbols := by
  simpa [presentSymbols] using List.length_filter_le (fun x => decide (ftGet ft x ≠ 0)) (List.range Config.nSymbols)

theorem mem_presentSymbols {ft : Memory Word} {x : Nat} :
    x ∈ presentSymbols ft ↔ x < Config.nSymbols ∧ ftGet ft x ≠ 0 := by simp [presentSymbols]

theorem presentSymbols_nodup (ft : Memory Word) : (presentSymbols ft).Nodup := List.nodup_range.filter _

/-! ### The queue -/

theorem comesBefore_iff {nm : Memory Node} {x y : Nat} :
    comesBefore nm x y = true ↔ weightOf nm x < weightOf nm y ∨ (weightOf nm x = weightOf nm y ∧ y < x) := by
  simp [comesBefore]

/-- The order is total on distinct indices (41_tree_build.md R60). -/
theorem comesBefore_total {nm : Memory Node} {x y : Nat} (h : x ≠ y) :
    comesBefore nm x y = true ∨ comesBefore nm y x = true := by
  simp only [comesBefore_iff]; omega

theorem comesBefore_trans {nm : Memory Node} {x y z : Nat} (h : comesBefore nm x y = true)
    (h' : comesBefore nm y z = true) : comesBefore nm x z = true := by
  simp only [comesBefore_iff] at *; omega

theorem leastOf_mem (nm : Memory Node) (best : Nat) (l : List Nat) : leastOf nm best l ∈ best :: l := by
  induction l generalizing best with
  | nil => simp [leastOf]
  | cons x l ih =>
    rw [leastOf]
    split
    · exact List.mem_cons_of_mem _ (ih x)
    · rcases List.mem_cons.mp (ih best) with h | h
      · rw [h]; exact List.mem_cons_self
      · exact List.mem_cons_of_mem _ (List.mem_cons_of_mem _ h)

/-- The member found comes before every other. -/
theorem leastOf_before (nm : Memory Node) (best : Nat) (l : List Nat) :
    ∀ y ∈ best :: l, y ≠ leastOf nm best l → comesBefore nm (leastOf nm best l) y = true := by
  induction l generalizing best with
  | nil => intro y hy hne; simp [leastOf] at hy hne; exact absurd hy hne
  | cons x l ih =>
    intro y hy hne
    rw [leastOf] at hne ⊢
    set b := if comesBefore nm x best then x else best with hb
    have key := ih b
    have hbest : best = b ∨ comesBefore nm b best = true := by
      rw [hb]; split
      · exact .inr ‹_›
      · exact .inl rfl
    have hx : x = b ∨ comesBefore nm b x = true := by
      rw [hb]; split
      · exact .inl rfl
      · by_cases hxb : x = best
        · exact .inl hxb
        · rcases comesBefore_total (nm := nm) hxb with h | h
          · exact absurd h ‹_›
          · exact .inr h
    have via : ∀ z, (z = b ∨ comesBefore nm b z = true) → z ≠ leastOf nm b l →
        comesBefore nm (leastOf nm b l) z = true := by
      intro z hz hzne
      rcases hz with hz | hz
      · exact hz ▸ key b (by simp) (hz ▸ hzne)
      · by_cases hbl : b = leastOf nm b l
        · rw [← hbl]; exact hz
        · exact comesBefore_trans (key b (by simp) hbl) hz
    rcases List.mem_cons.mp hy with rfl | hy
    · exact via _ hbest hne
    · rcases List.mem_cons.mp hy with rfl | hy
      · exact via _ hx hne
      · exact key y (List.mem_cons_of_mem _ hy) hne

/-- What `removeMin` does: it takes out the member that comes before all others (41_tree_build.md R60). -/
theorem removeMin_spec {nm : Memory Node} {pq q : List Nat} {a : Nat} (h : removeMin nm pq = some (a, q)) :
    a ∈ pq ∧ q = pq.erase a ∧ ∀ y ∈ pq, y ≠ a → comesBefore nm a y = true := by
  cases pq with
  | nil => cases h
  | cons x l =>
    obtain ⟨rfl, rfl⟩ := Prod.mk.inj (Option.some.inj h)
    exact ⟨leastOf_mem nm x l, rfl, leastOf_before nm x l⟩

theorem removeMin_perm {nm : Memory Node} {pq q : List Nat} {a : Nat} (h : removeMin nm pq = some (a, q)) :
    pq.Perm (a :: q) := by
  obtain ⟨h1, rfl, -⟩ := removeMin_spec h
  exact List.perm_cons_erase h1

theorem removeMin_eq_none {nm : Memory Node} {pq : List Nat} : removeMin nm pq = none ↔ pq = [] := by
  cases pq <;> simp [removeMin]

/-! ### Growing a forest -/

theorem Shape.root_mem_indices (t : Shape) : t.root ∈ t.indices := by
  cases t <;> simp [Shape.indices]

/-- A write to a record that is no node of the tree leaves the tree in place. -/
theorem Shape.In.nmSet {nm : Memory Node} {t : Shape} (ht : t.In nm) {n : Nat} (hn : n ∉ t.indices) (nd : Node) :
    t.In (nmSet nm n nd) := by
  induction t with
  | leaf i x =>
    have : i ≠ n := fun h => hn (by simp [Shape.indices, h])
    simpa [Shape.In, nmGet_nmSet_ne _ _ this] using ht
  | node i l r ihl ihr =>
    simp only [Shape.indices, List.mem_cons, List.mem_append, not_or] at hn
    have h1 : i ≠ n := Ne.symm hn.1
    have h2 : l.root ≠ n := fun h => hn.2.1 (h ▸ l.root_mem_indices)
    have h3 : r.root ≠ n := fun h => hn.2.2 (h ▸ r.root_mem_indices)
    obtain ⟨g1, g2, g3, g4, g5, g6, g7, g8, g9, g10, g11⟩ := ht
    simp only [Shape.In, nmGet_nmSet_ne _ _ h1, nmGet_nmSet_ne _ _ h2, nmGet_nmSet_ne _ _ h3]
    exact ⟨g1, g2, g3, g4, g5, g6, g7, g8, g9, ihl g10 hn.2.1, ihr g11 hn.2.2⟩

/-- The trees whose roots are the queue's members: together they have the first `n` records as their nodes, their
leaves carry the present symbols, and their weights sum up to all counts (41_tree_build.md R63, R64). -/
structure Grown (ft : Memory Word) (f : Forest) (ts : List Shape) : Prop where
  wf : Memory.wf Node.zero f.nm
  within : Memory.within f.next f.nm
  bound : f.next + f.pq.length = 2 * (presentSymbols ft).length
  roots : (ts.map Shape.root).Perm f.pq
  inNm : ∀ t ∈ ts, t.In f.nm
  indices : (ts.flatMap Shape.indices).Perm (List.range f.next)
  symbols : (ts.flatMap Shape.symbols).Perm ((presentSymbols ft).map (BitVec.ofNat 8))
  weight : (f.pq.map (weightOf f.nm)).sum = totalCount ft
  leaves : ∀ j (h : j < (presentSymbols ft).length),
    nmGet f.nm j = leafNode (BitVec.ofNat 8 (presentSymbols ft)[j]) (ftGet ft (presentSymbols ft)[j])
  inner : ∀ i, (presentSymbols ft).length ≤ i → i < f.next →
    (nmGet f.nm i).left.toNat < i ∧ (nmGet f.nm i).right.toNat < i ∧
    weightOf f.nm (nmGet f.nm i).left.toNat ≤ weightOf f.nm (nmGet f.nm i).right.toNat ∧
    nmGet f.nm i = innerNode (nmGet f.nm i).left (nmGet f.nm i).right (nmGet f.nm i).weight

theorem sum_map_filter_ne_zero (ft : Memory Word) (l : List Nat) :
    ((l.filter fun x => decide (ftGet ft x ≠ 0)).map fun x => (ftGet ft x).toNat).sum =
      (l.map fun x => (ftGet ft x).toNat).sum := by
  induction l with
  | nil => rfl
  | cons x l ih =>
    rw [List.filter_cons]
    by_cases h : ftGet ft x = 0
    · rw [if_neg (by simp only [h, ne_eq, not_true_eq_false, decide_false, Bool.false_eq_true, not_false_eq_true]), ih,
        List.map_cons, List.sum_cons, h]
      simp
    · rw [if_pos (by simp only [h, ne_eq, not_false_eq_true, decide_true]), List.map_cons, List.sum_cons, ih,
        List.map_cons, List.sum_cons]

theorem totalCount_eq (ft : Memory Word) :
    totalCount ft = ((presentSymbols ft).map fun x => (ftGet ft x).toNat).sum := (sum_map_filter_ne_zero ft _).symm

/-- The seeded forest: one leaf per present symbol. -/
theorem seed_grown (ft : Memory Word) :
    Grown ft (seed ft)
      ((List.range (presentSymbols ft).length).map fun j => .leaf j (BitVec.ofNat 8 ((presentSymbols ft).getD j 0))) := by
  have hs := seed_seeded ft
  have hget : ∀ j (h : j < (presentSymbols ft).length), (presentSymbols ft).getD j 0 = (presentSymbols ft)[j] :=
    fun j h => by simp [List.getD, h]
  have hmap : (List.range (presentSymbols ft).length).map (fun j => (presentSymbols ft).getD j 0) = presentSymbols ft := by
    apply List.ext_getElem
    · simp
    · intro j h1 h2
      simp [List.getD, h2]
  refine ⟨hs.wf, hs.next ▸ hs.within, ?_, ?_, ?_, ?_, ?_, ?_, hs.leaf, ?_⟩
  · rw [hs.next, hs.queue, List.length_range]; omega
  · rw [hs.queue, List.map_map]
    exact (List.Perm.of_eq (by simp [Function.comp_def]))
  · intro t ht
    obtain ⟨j, hj, rfl⟩ := List.mem_map.mp ht
    have hj := List.mem_range.mp hj
    have hle := presentSymbols_length_le ft
    refine ⟨by show j < 511; simp only [Config.nSymbols] at hle; omega, ?_⟩
    rw [hs.leaf j hj, hget j hj]
    simp [leafNode, Node.zero]
  · rw [hs.next, List.flatMap_map]
    simp [Shape.indices]
  · rw [List.flatMap_map]
    simp only [Shape.symbols]
    rw [← List.map_eq_flatMap]
    conv_rhs => rw [← hmap, List.map_map]
    exact List.Perm.refl _
  · rw [hs.queue, totalCount_eq]
    congr 1
    apply List.ext_getElem
    · simp
    · intro j h1 h2
      have hj : j < (presentSymbols ft).length := by simpa using h1
      simp [weightOf, hs.leaf j hj, leafNode]
  · intro i h1 h2
    rw [hs.next] at h2
    omega

theorem flatMap_perm_split {β : Type} (g : Shape → List β) {ts ts' : List Shape} (h : ts.Perm ts') :
    (ts.flatMap g).Perm (ts'.flatMap g) := List.Perm.flatMap_right g h

/-- A member of the queue is the root of one of the trees, and the other trees have the other roots. -/
theorem exists_tree_of_mem {ts : List Shape} {pq q : List Nat} {a : Nat} (h : (ts.map Shape.root).Perm pq)
    (hq : pq.Perm (a :: q)) : ∃ ta ts', ts.Perm (ta :: ts') ∧ ta.root = a ∧ (ts'.map Shape.root).Perm q := by
  have ha : a ∈ ts.map Shape.root := (h.trans hq).mem_iff.mpr (by simp)
  obtain ⟨ta, hta, rfl⟩ := List.mem_map.mp ha
  obtain ⟨s, t, rfl⟩ := List.append_of_mem hta
  refine ⟨ta, s ++ t, List.perm_middle, rfl, ?_⟩
  have h1 : ((ta :: (s ++ t)).map Shape.root).Perm (ta.root :: q) :=
    ((List.perm_middle.map Shape.root).symm.trans h).trans hq
  exact List.Perm.cons_inv h1

/-- There are no more trees than leaves. -/
theorem Grown.queue_le {ft : Memory Word} {f : Forest} {ts : List Shape} (h : Grown ft f ts) :
    f.pq.length ≤ (presentSymbols ft).length := by
  have h3 := h.roots.length_eq
  have h4 := h.symbols.length_eq
  rw [List.length_map] at h3 h4
  have h5 : ∀ l : List Shape, l.length ≤ (l.flatMap Shape.symbols).length := by
    intro l
    induction l with
    | nil => simp
    | cons t l ih =>
      have := List.length_pos_of_ne_nil t.symbols_ne_nil
      simp only [List.flatMap_cons, List.length_append, List.length_cons]
      omega
  have := h5 ts
  omega

theorem innerNode_ne_zero (l r : Idx) (w : Word) : innerNode l r w ≠ Node.zero := by
  intro h
  have := congrArg Node.hasLeft h
  simp [innerNode, Node.zero] at this

theorem comesBefore_weight_le {nm : Memory Node} {x y : Nat} (h : comesBefore nm x y = true) :
    weightOf nm x ≤ weightOf nm y := by
  rw [comesBefore_iff] at h; omega

/-- One merge keeps the forest grown (41_tree_build.md R61, R64). -/
theorem mergeOnce_grown {ft : Memory Word} {f g : Forest} {ts : List Shape} (h : Grown ft f ts)
    (hm : mergeOnce f = .merged g) : ∃ ts', Grown ft g ts' ∧ g.pq.length + 1 = f.pq.length := by
  unfold mergeOnce at hm
  cases h1 : removeMin f.nm f.pq with
  | none => simp [h1] at hm
  | some aq =>
    obtain ⟨a, q⟩ := aq
    cases h2 : removeMin f.nm q with
    | none => simp [h1, h2] at hm
    | some bq =>
      obtain ⟨b, q'⟩ := bq
      simp only [h1, h2] at hm
      split at hm
      · cases hm
      rename_i hw
      have hw' : weightOf f.nm a + weightOf f.nm b ≤ 4294967295 := by simpa [Config.wMax] using hw
      obtain rfl := MergeStep.merged.inj hm
      clear hm
      have p1 := removeMin_perm h1
      have p2 := removeMin_perm h2
      have hab : f.pq.Perm (a :: b :: q') := p1.trans (p2.cons a)
      obtain ⟨ta, ts1, t1, rfl, r1⟩ := exists_tree_of_mem h.roots p1
      obtain ⟨tb, ts2, t2, rfl, r2⟩ := exists_tree_of_mem r1 p2
      have htt : ts.Perm (ta :: tb :: ts2) := t1.trans (t2.cons ta)
      have haIn : ta.In f.nm := h.inNm _ (htt.mem_iff.mpr (by simp))
      have hbIn : tb.In f.nm := h.inNm _ (htt.mem_iff.mpr (by simp))
      have hlt : ∀ t ∈ ts, ∀ i ∈ t.indices, i < f.next := fun t ht i hi =>
        List.mem_range.mp (h.indices.mem_iff.mp (List.mem_flatMap.mpr ⟨t, ht, hi⟩))
      have hfresh : ∀ t ∈ ts, f.next ∉ t.indices := fun t ht hi => lt_irrefl _ (hlt t ht _ hi)
      have hra : ta.root < f.next := hlt ta (htt.mem_iff.mpr (by simp)) _ ta.root_mem_indices
      have hrb : tb.root < f.next := hlt tb (htt.mem_iff.mpr (by simp)) _ tb.root_mem_indices
      have hk := presentSymbols_length_le ft
      have hlen : f.pq.length = q'.length + 2 := by simpa using hab.length_eq
      have hn : f.next < Config.nodeMax := by
        have := h.bound
        simp only [Config.nSymbols] at hk
        show f.next < 511
        omega
      have hn' : f.next < 511 := hn
      have hidx : ∀ r, r < f.next → (BitVec.ofNat 9 r).toNat = r := fun r hr => by
        rw [BitVec.toNat_ofNat]; exact Nat.mod_eq_of_lt (by omega)
      have hsum : (BitVec.ofNat 32 (weightOf f.nm ta.root + weightOf f.nm tb.root)).toNat =
          weightOf f.nm ta.root + weightOf f.nm tb.root := by
        rw [BitVec.toNat_ofNat]; exact Nat.mod_eq_of_lt (by omega)
      have hold : ∀ j, j ≠ f.next → ∀ nd, nmGet (nmSet f.nm f.next nd) j = nmGet f.nm j := fun j hj nd =>
        nmGet_nmSet_ne _ _ hj
      have hwold : ∀ j, j < f.next → ∀ nd, weightOf (nmSet f.nm f.next nd) j = weightOf f.nm j := fun j hj nd => by
        rw [weightOf, hold j (by omega), weightOf]
      refine ⟨.node f.next ta tb :: ts2, ⟨Memory.set_wf _ _ h.wf, ?_, ?_, ?_, ?_, ?_, ?_, ?_, ?_, ?_⟩, ?_⟩
      · exact Memory.set_within (fun e he => lt_trans (h.within e he) (by simp)) (by simp)
      · have := h.bound
        simp only [List.length_append, List.length_singleton]
        omega
      · show (f.next :: ts2.map Shape.root).Perm (q' ++ [f.next])
        exact (r2.cons f.next).trans (List.perm_append_singleton f.next q').symm
      · intro t ht
        rcases List.mem_cons.mp ht with rfl | ht
        · refine ⟨hn, ?_⟩
          rw [hold ta.root (by omega), hold tb.root (by omega), nmGet_nmSet h.wf, if_pos rfl]
          refine ⟨rfl, rfl, rfl, hidx _ hra, hidx _ hrb, hra, hrb, hsum, ?_, ?_⟩
          · exact haIn.nmSet (hfresh ta (htt.mem_iff.mpr (by simp))) _
          · exact hbIn.nmSet (hfresh tb (htt.mem_iff.mpr (by simp))) _
        · have ht' : t ∈ ts := htt.mem_iff.mpr (by simp [ht])
          exact (h.inNm t ht').nmSet (hfresh t ht') _
      · have := (flatMap_perm_split Shape.indices htt).symm.trans h.indices
        simp only [List.flatMap_cons, Shape.indices, List.cons_append, List.append_assoc] at this ⊢
        rw [List.range_succ]
        exact (this.cons f.next).trans (List.perm_append_singleton _ _).symm
      · have := (flatMap_perm_split Shape.symbols htt).symm.trans h.symbols
        simpa only [List.flatMap_cons, Shape.symbols, List.append_assoc] using this
      · have hsum1 : (f.pq.map (weightOf f.nm)).sum =
            weightOf f.nm ta.root + (weightOf f.nm tb.root + (q'.map (weightOf f.nm)).sum) := by
          rw [(hab.map (weightOf f.nm)).sum_eq]; simp
        have hq' : ∀ j ∈ q', j < f.next := fun j hj => by
          obtain ⟨t, ht, rfl⟩ := List.mem_map.mp (r2.mem_iff.mpr hj)
          exact hlt t (htt.mem_iff.mpr (by simp [ht])) _ t.root_mem_indices
        rw [← h.weight, hsum1]
        simp only [List.map_append, List.map_cons, List.map_nil, List.sum_append, List.sum_cons, List.sum_nil]
        rw [List.map_congr_left fun j hj => hwold j (hq' j hj) _]
        have : weightOf (nmSet f.nm f.next (innerNode (BitVec.ofNat 9 ta.root) (BitVec.ofNat 9 tb.root)
            (BitVec.ofNat 32 (weightOf f.nm ta.root + weightOf f.nm tb.root)))) f.next =
            weightOf f.nm ta.root + weightOf f.nm tb.root := by
          rw [weightOf, nmGet_nmSet h.wf, if_pos rfl]; exact hsum
        rw [this]; omega
      · intro j hj
        have hb := h.bound
        have hle := h.queue_le
        rw [hold j (by omega)]
        exact h.leaves j hj
      · intro i hi1 hi2
        by_cases hi : i = f.next
        · subst hi
          rw [nmGet_nmSet h.wf, if_pos rfl]
          simp only [innerNode, hidx _ hra, hidx _ hrb]
          refine ⟨hra, hrb, ?_, trivial⟩
          have e1 := hwold _ hra (innerNode (BitVec.ofNat 9 ta.root) (BitVec.ofNat 9 tb.root)
            (BitVec.ofNat 32 (weightOf f.nm ta.root + weightOf f.nm tb.root)))
          have e2 := hwold _ hrb (innerNode (BitVec.ofNat 9 ta.root) (BitVec.ofNat 9 tb.root)
            (BitVec.ofNat 32 (weightOf f.nm ta.root + weightOf f.nm tb.root)))
          simp only [innerNode] at e1 e2
          rw [e1, e2]
          have hne : tb.root ≠ ta.root := by
            intro he
            have hnd : (ts.map Shape.root).Nodup := by
              have h3 : (ts.flatMap Shape.indices).Nodup := h.indices.nodup_iff.mpr List.nodup_range
              have h4 := (flatMap_perm_split Shape.indices htt).nodup_iff.mp h3
              simp only [List.flatMap_cons] at h4
              have h5 := List.disjoint_of_nodup_append h4
              exact absurd (h5 ta.root_mem_indices (by rw [← he]; simp [tb.root_mem_indices])) (fun h => h)
            have := ((htt.map Shape.root).nodup_iff.mp hnd)
            simp [he] at this
          exact comesBefore_weight_le ((removeMin_spec h1).2.2 tb.root (hab.mem_iff.mpr (by simp)) hne)
        · have hi3 : i < f.next := by simp at hi2; omega
          obtain ⟨g1, g2, g3, g4⟩ := h.inner i hi1 hi3
          rw [hold i hi, hwold _ (by omega), hwold _ (by omega)]
          exact ⟨g1, g2, g3, g4⟩
      · simp; omega

/-- An overflow is reported only when the sum of all counts passes `W_MAX` and there are two symbols or more; it
leaves NM as it was (41_tree_build.md R63). -/
theorem mergeOnce_overflow {ft : Memory Word} {f g : Forest} {ts : List Shape} (h : Grown ft f ts)
    (hm : mergeOnce f = .overflow g) :
    g.nm = f.nm ∧ g.next = f.next ∧ Config.wMax < totalCount ft ∧ 2 ≤ (presentSymbols ft).length ∧
      f.next < Config.nodeMax := by
  unfold mergeOnce at hm
  cases h1 : removeMin f.nm f.pq with
  | none => simp [h1] at hm
  | some aq =>
    obtain ⟨a, q⟩ := aq
    cases h2 : removeMin f.nm q with
    | none => simp [h1, h2] at hm
    | some bq =>
      obtain ⟨b, q'⟩ := bq
      simp only [h1, h2] at hm
      split at hm
      · rename_i hw
        obtain rfl := MergeStep.overflow.inj hm
        have hab : f.pq.Perm (a :: b :: q') := (removeMin_perm h1).trans ((removeMin_perm h2).cons a)
        have hsum := (hab.map (weightOf f.nm)).sum_eq
        have hlen := hab.length_eq
        have hw' := h.weight
        have hb := h.bound
        have hk := presentSymbols_length_le ft
        simp only [List.map_cons, List.sum_cons, List.length_cons] at hsum hlen
        simp only [Config.nSymbols, Config.wMax, Config.nodeMax] at *
        refine ⟨trivial, trivial, by omega, ?_, by omega⟩
        have hle := h.queue_le
        omega
      · cases hm

/-- Merging has ended exactly when fewer than two members remain. -/
theorem mergeOnce_done {f : Forest} : mergeOnce f = .done ↔ f.pq.length < 2 := by
  unfold mergeOnce
  cases h1 : removeMin f.nm f.pq with
  | none => simp [removeMin_eq_none.mp h1]
  | some aq =>
    obtain ⟨a, q⟩ := aq
    have p1 := (removeMin_perm h1).length_eq
    cases h2 : removeMin f.nm q with
    | none =>
      have hq := removeMin_eq_none.mp h2
      simp only [h2, true_iff]
      rw [p1, hq]
      simp
    | some bq =>
      obtain ⟨b, q'⟩ := bq
      have p2 := (removeMin_perm h2).length_eq
      simp only [List.length_cons] at p1 p2
      simp only [h2]
      split <;> simp only [reduceCtorEq, false_iff] <;> omega

/-- How merging ends from a grown forest. -/
theorem mergeAll_grown {ft : Memory Word} {fuel : Nat} {f : Forest} {ts : List Shape} (h : Grown ft f ts)
    (hf : f.pq.length ≤ fuel) :
    (∃ g ts', mergeAll fuel f = .done g ∧ Grown ft g ts' ∧ g.pq.length < 2) ∨
    (∃ f' ts' g, mergeAll fuel f = .overflow g ∧ Grown ft f' ts' ∧ mergeOnce f' = .overflow g) := by
  induction fuel generalizing f ts with
  | zero => exact .inl ⟨f, ts, rfl, h, by omega⟩
  | succ fuel ih =>
    rw [mergeAll]
    cases hm : mergeOnce f with
    | done => exact .inl ⟨f, ts, rfl, h, mergeOnce_done.mp hm⟩
    | overflow g => exact .inr ⟨f, ts, g, rfl, h, hm⟩
    | merged g =>
      obtain ⟨ts', h', hl⟩ := mergeOnce_grown h hm
      exact ih h' (by omega)

end Sys2Proof.Machine
end

