-- ==== Sys2Proof/Laws/Check.lean ====
section
/-! SUPPORT. The order of FIN's walk, and what one visit can do in terms of that order (41_tree_build.md R66). -/

namespace Sys2Proof.Machine

/-! ### Pre-order -/

@[simp] theorem visitedBefore_nil (q : List Bool) : VisitedBefore q [] ↔ False := by cases q <;> rfl

@[simp] theorem visitedBefore_nil_cons (c : Bool) (p : List Bool) : VisitedBefore [] (c :: p) ↔ True := Iff.rfl

@[simp] theorem visitedBefore_cons_cons (b c : Bool) (q p : List Bool) :
    VisitedBefore (b :: q) (c :: p) ↔ (b = false ∧ c = true) ∨ (b = c ∧ VisitedBefore q p) := Iff.rfl

/-- What comes before a node's left child: what comes before the node, and the node. -/
theorem visitedBefore_left (q b : List Bool) : VisitedBefore q (b ++ [false]) ↔ VisitedBefore q b ∨ q = b := by
  induction b generalizing q with
  | nil => cases q <;> simp
  | cons c b ih =>
    cases q with
    | nil => simp
    | cons d q =>
      simp only [List.cons_append, visitedBefore_cons_cons, ih, List.cons.injEq]
      tauto

/-- What comes before a node's right child: what comes before the node, the node, and its left subtree. -/
theorem visitedBefore_right (q b : List Bool) :
    VisitedBefore q (b ++ [true]) ↔ VisitedBefore q b ∨ q = b ∨ ∃ u, q = b ++ false :: u := by
  induction b generalizing q with
  | nil =>
    cases q with
    | nil => simp
    | cons d q => cases d <;> simp
  | cons c b ih =>
    cases q with
    | nil => simp
    | cons d q =>
      simp only [List.cons_append, visitedBefore_cons_cons, ih, List.cons.injEq]
      constructor
      · rintro (h | ⟨h, h' | h' | ⟨u, h'⟩⟩)
        · exact .inl (.inl h)
        · exact .inl (.inr ⟨h, h'⟩)
        · exact .inr (.inl ⟨h, h'⟩)
        · exact .inr (.inr ⟨u, h, h'⟩)
      · rintro ((h | h) | h | ⟨u, h, h'⟩)
        · exact .inl h
        · exact .inr ⟨h.1, .inl h.2⟩
        · exact .inr ⟨h.1, .inr (.inl h.2)⟩
        · exact .inr ⟨h, .inr (.inr ⟨u, h'⟩)⟩

/-! ### One visit -/

/-- The tests c1 to c8 as a visit makes them, against what it has seen. -/
structure SeenTests (nm : Memory Node) (v : Seen) (i : Nat) : Prop where
  c1 : i ≤ 510
  c2 : i ∉ v.visited
  c3 : (nmGet nm i).hasLeft = (nmGet nm i).hasRight
  c4 : (nmGet nm i).hasLeft = false → (nmGet nm i).hasSym = true
  c5 : (nmGet nm i).hasLeft = false → (nmGet nm i).sym ∉ v.symbols
  c6 : (nmGet nm i).hasLeft = true → (nmGet nm i).hasSym = false
  c7 : (nmGet nm i).hasLeft = true → (nmGet nm i).left.toNat < i ∧ (nmGet nm i).right.toNat < i
  c8 : (nmGet nm i).hasLeft = true → (nmGet nm i).weight.toNat =
    (nmGet nm (nmGet nm i).left.toNat).weight.toNat + (nmGet nm (nmGet nm i).right.toNat).weight.toNat

/-- Everything a visit can do: report its own node, accept a leaf, or hand on what its two visits answer. -/
theorem visit_cases (nm : Memory Node) (fuel i : Nat) (v : Seen) :
    (¬SeenTests nm v i ∧ visit nm (fuel + 1) i v = .error i) ∨
    (SeenTests nm v i ∧ (nmGet nm i).isLeaf = true ∧
      visit nm (fuel + 1) i v = .ok { visited := i :: v.visited, symbols := (nmGet nm i).sym :: v.symbols }) ∨
    (SeenTests nm v i ∧ (nmGet nm i).isLeaf = false ∧ (nmGet nm i).hasLeft = true ∧
      ((∃ x, visit nm fuel (nmGet nm i).left.toNat { v with visited := i :: v.visited } = .error x ∧
          visit nm (fuel + 1) i v = .error x) ∨
        ∃ u, visit nm fuel (nmGet nm i).left.toNat { v with visited := i :: v.visited } = .ok u ∧
          visit nm (fuel + 1) i v = visit nm fuel (nmGet nm i).right.toNat u)) := by
  rw [visit.eq_def]
  dsimp only
  by_cases h1 : i ≤ 510
  case neg => exact .inl ⟨fun t => h1 t.c1, if_pos (by simp [isRecord, Config.nodeMax]; omega)⟩
  rw [if_neg (by simp [isRecord, Config.nodeMax]; omega)]
  by_cases h2 : i ∈ v.visited
  case pos => exact .inl ⟨fun t => t.c2 h2, if_pos h2⟩
  rw [if_neg h2]
  by_cases h3 : (nmGet nm i).hasLeft = (nmGet nm i).hasRight
  case neg => exact .inl ⟨fun t => h3 t.c3, if_pos h3⟩
  rw [if_neg (not_not.mpr h3)]
  cases hl : (nmGet nm i).hasLeft with
  | false =>
    rw [if_pos (by rfl)]
    cases h4 : (nmGet nm i).hasSym with
    | false => exact .inl ⟨fun t => by simpa [h4] using t.c4 hl, if_pos (by rfl)⟩
    | true =>
      rw [if_neg (by decide)]
      by_cases h5 : (nmGet nm i).sym ∈ v.symbols
      · exact .inl ⟨fun t => t.c5 hl h5, if_pos h5⟩
      · rw [if_neg h5]
        refine .inr (.inl ⟨⟨h1, h2, h3, fun _ => h4, fun _ => h5, ?_, ?_, ?_⟩, ?_, rfl⟩)
        · intro h; rw [hl] at h; cases h
        · intro h; rw [hl] at h; cases h
        · intro h; rw [hl] at h; cases h
        · simp [Node.isLeaf, ← h3, hl]
  | true =>
    rw [if_neg (by decide)]
    by_cases h6 : (nmGet nm i).hasSym = true
    · exact .inl ⟨fun t => by simpa [h6] using t.c6 hl, if_pos h6⟩
    rw [if_neg h6]
    by_cases h7 : (nmGet nm i).left.toNat < i ∧ (nmGet nm i).right.toNat < i
    case neg => exact .inl ⟨fun t => h7 (t.c7 hl), if_pos h7⟩
    rw [if_neg (not_not.mpr h7)]
    by_cases h8 : (nmGet nm i).weight.toNat =
      (nmGet nm (nmGet nm i).left.toNat).weight.toNat + (nmGet nm (nmGet nm i).right.toNat).weight.toNat
    case neg => exact .inl ⟨fun t => h8 (t.c8 hl), if_pos h8⟩
    rw [if_neg (not_not.mpr h8)]
    refine .inr (.inr ⟨⟨h1, h2, h3, ?_, ?_, fun _ => by simpa using h6, fun _ => h7, fun _ => h8⟩, ?_, rfl, ?_⟩)
    · intro h; rw [hl] at h; cases h
    · intro h; rw [hl] at h; cases h
    · simp [Node.isLeaf, hl]
    · cases hu : visit nm fuel (nmGet nm i).left.toNat { v with visited := i :: v.visited } with
      | error x => exact .inl ⟨x, rfl, rfl⟩
      | ok u => exact .inr ⟨u, rfl, rfl⟩

/-- What a visit has seen when it comes to the path `b`: the nodes that come before it. -/
structure SeenBefore (nm : Memory Node) (r : Nat) (before : List Bool → Prop) (v : Seen) : Prop where
  visited : ∀ j, j ∈ v.visited ↔ ∃ q, before q ∧ follow nm r q = some j
  symbols : ∀ y, y ∈ v.symbols ↔
    ∃ q j, before q ∧ follow nm r q = some j ∧ (nmGet nm j).isLeaf = true ∧ (nmGet nm j).sym = y

theorem SeenBefore.congr {nm : Memory Node} {r : Nat} {f g : List Bool → Prop} {v : Seen}
    (h : SeenBefore nm r f v) (e : ∀ q, f q ↔ g q) : SeenBefore nm r g v := by
  obtain rfl : f = g := funext fun q => propext (e q)
  exact h

theorem seenTests_iff {nm : Memory Node} {r i : Nat} {p : List Bool} {v : Seen}
    (h : SeenBefore nm r (VisitedBefore · p) v) : SeenTests nm v i ↔ PassesTests nm r p i := by
  have e2 : i ∉ v.visited ↔ ∀ q, VisitedBefore q p → follow nm r q ≠ some i := by
    rw [h.visited]; push Not; rfl
  have e5 : (nmGet nm i).sym ∉ v.symbols ↔ ∀ q j, VisitedBefore q p → follow nm r q = some j →
      (nmGet nm j).isLeaf = true → (nmGet nm j).sym ≠ (nmGet nm i).sym := by
    rw [h.symbols]; push Not; rfl
  exact ⟨fun t => ⟨t.c1, e2.mp t.c2, t.c3, t.c4, fun hl => e5.mp (t.c5 hl), t.c6, t.c7, t.c8⟩,
    fun t => ⟨t.c1, e2.mpr t.c2, t.c3, t.c4, fun hl => e5.mpr (t.c5 hl), t.c6, t.c7, t.c8⟩⟩

/-- The path to a child of an inner node. -/
theorem follow_child {nm : Memory Node} {r i : Nat} {b : List Bool} (h : follow nm r b = some i)
    (hl : (nmGet nm i).isLeaf = false) (c : Bool) :
    follow nm r (b ++ [c]) = some ((nmGet nm i).child c).toNat := by
  rw [follow_append, h]
  simp [follow, hl]

/-- Below a leaf there is no path. -/
theorem follow_below_leaf {nm : Memory Node} {r i j : Nat} {b u : List Bool} (h : follow nm r b = some i)
    (hl : (nmGet nm i).isLeaf = true) (h' : follow nm r (b ++ u) = some j) : u = [] ∧ j = i := by
  rw [follow_append, h] at h'
  exact follow_of_isLeaf hl h'

/-- What one visit from the path `b` says of the nodes at and below `b`: it answers with all of them passing the
tests and added to what was seen, or reports the first of them that fails (41_tree_build.md R66). -/
theorem visit_spec {nm : Memory Node} {r : Nat} {fuel i : Nat} {b : List Bool} {v : Seen} (hf : i < fuel)
    (hb : follow nm r b = some i) (hv : SeenBefore nm r (VisitedBefore · b) v) :
    (∀ v', visit nm fuel i v = .ok v' → (∀ u j, follow nm r (b ++ u) = some j → PassesTests nm r (b ++ u) j) ∧
      SeenBefore nm r (fun q => VisitedBefore q b ∨ ∃ u, q = b ++ u) v') ∧
    (∀ x, visit nm fuel i v = .error x → ∃ p, follow nm r (b ++ p) = some x ∧ ¬PassesTests nm r (b ++ p) x ∧
      ∀ u j, VisitedBefore u p → follow nm r (b ++ u) = some j → PassesTests nm r (b ++ u) j) := by
  induction fuel generalizing i b v with
  | zero => omega
  | succ fuel ih =>
    rcases visit_cases nm fuel i v with ⟨ht, e⟩ | ⟨ht, hl, e⟩ | ⟨ht, hl, hL, hrec⟩
    · rw [seenTests_iff hv] at ht
      refine ⟨fun v' h => by simp [e] at h, fun x h => ?_⟩
      rw [e] at h
      cases h
      exact ⟨[], by simpa using hb, by simpa using ht, fun u j hu => absurd hu (by simp)⟩
    · rw [seenTests_iff hv] at ht
      refine ⟨fun v' h => ?_, fun x h => by simp [e] at h⟩
      rw [e] at h
      cases h
      refine ⟨fun u j hj => ?_, ⟨fun j => ?_, fun y => ?_⟩⟩
      · obtain ⟨rfl, rfl⟩ := follow_below_leaf hb hl hj
        simpa using ht
      · simp only [List.mem_cons, hv.visited]
        constructor
        · rintro (rfl | ⟨q, hq, hj⟩)
          · exact ⟨b, .inr ⟨[], by simp⟩, hb⟩
          · exact ⟨q, .inl hq, hj⟩
        · rintro ⟨q, hq | ⟨u, rfl⟩, hj⟩
          · exact .inr ⟨q, hq, hj⟩
          · exact .inl (follow_below_leaf hb hl hj).2
      · simp only [List.mem_cons, hv.symbols]
        constructor
        · rintro (rfl | ⟨q, j, hq, hj⟩)
          · exact ⟨b, i, .inr ⟨[], by simp⟩, hb, hl, rfl⟩
          · exact ⟨q, j, .inl hq, hj⟩
        · rintro ⟨q, j, hq | ⟨u, rfl⟩, hj, hjl, hy⟩
          · exact .inr ⟨q, j, hq, hj, hjl, hy⟩
          · rw [← hy, (follow_below_leaf hb hl hj).2]
            exact .inl rfl
    · have h7 := ht.c7 hL
      have hi : PassesTests nm r b i := (seenTests_iff hv).mp ht
      have hbl : follow nm r (b ++ [false]) = some (nmGet nm i).left.toNat := follow_child hb hl false
      have hbr : follow nm r (b ++ [true]) = some (nmGet nm i).right.toNat := follow_child hb hl true
      have hvl : SeenBefore nm r (VisitedBefore · (b ++ [false])) { v with visited := i :: v.visited } := by
        refine ⟨fun j => ?_, fun y => ?_⟩
        · simp only [List.mem_cons, hv.visited, visitedBefore_left]
          constructor
          · rintro (rfl | ⟨q, hq, hj⟩)
            · exact ⟨b, .inr rfl, hb⟩
            · exact ⟨q, .inl hq, hj⟩
          · rintro ⟨q, hq | rfl, hj⟩
            · exact .inr ⟨q, hq, hj⟩
            · exact .inl (Option.some.inj (hj.symm.trans hb))
        · simp only [hv.symbols, visitedBefore_left]
          constructor
          · rintro ⟨q, j, hq, hj⟩
            exact ⟨q, j, .inl hq, hj⟩
          · rintro ⟨q, j, hq | rfl, hj, hjl, hy⟩
            · exact ⟨q, j, hq, hj, hjl, hy⟩
            · obtain rfl := Option.some.inj (hj.symm.trans hb)
              rw [hl] at hjl
              cases hjl
      obtain ⟨lok, lerr⟩ := ih (by omega) hbl hvl
      rcases hrec with ⟨x, hx, e⟩ | ⟨u, hu, e⟩
      · refine ⟨fun v' h => by simp [e] at h, fun y h => ?_⟩
        rw [e] at h
        cases h
        obtain ⟨p, hp, hp', hbefore⟩ := lerr x hx
        refine ⟨false :: p, by simpa using hp, by simpa using hp', fun w j hw hj => ?_⟩
        cases w with
        | nil =>
          obtain rfl := Option.some.inj (hj.symm.trans (by simpa using hb))
          simpa using hi
        | cons c w =>
          obtain ⟨-, h⟩ | ⟨rfl, h⟩ := hw
          · cases h
          · simpa using hbefore w j h (by simpa using hj)
      · obtain ⟨hlall, hlseen⟩ := lok u hu
        have hvr : SeenBefore nm r (VisitedBefore · (b ++ [true])) u := by
          refine hlseen.congr fun q => ?_
          rw [visitedBefore_left, visitedBefore_right]
          simp [or_assoc]
        obtain ⟨rok, rerr⟩ := ih (by omega) hbr hvr
        have hleft : ∀ w j, follow nm r (b ++ false :: w) = some j → PassesTests nm r (b ++ false :: w) j :=
          fun w j hj => by simpa using hlall w j (by simpa using hj)
        have hroot : ∀ j, follow nm r (b ++ []) = some j → PassesTests nm r (b ++ []) j := by
          intro j hj
          obtain rfl := Option.some.inj (hj.symm.trans (by simpa using hb))
          simpa using hi
        refine ⟨fun v' h => ?_, fun y h => ?_⟩
        · rw [e] at h
          obtain ⟨hrall, hrseen⟩ := rok v' h
          refine ⟨fun w j hj => ?_, hrseen.congr fun q => ?_⟩
          · match w with
            | [] => exact hroot j hj
            | false :: w => exact hleft w j hj
            | true :: w => simpa using hrall w j (by simpa using hj)
          · rw [visitedBefore_right]
            constructor
            · rintro ((h | rfl | ⟨w, rfl⟩) | ⟨w, rfl⟩)
              · exact .inl h
              · exact .inr ⟨[], by simp⟩
              · exact .inr ⟨_, rfl⟩
              · exact .inr ⟨true :: w, by simp⟩
            · rintro (h | ⟨w, rfl⟩)
              · exact .inl (.inl h)
              · match w with
                | [] => exact .inl (.inr (.inl (by simp)))
                | false :: w => exact .inl (.inr (.inr ⟨w, rfl⟩))
                | true :: w => exact .inr ⟨w, by simp⟩
        · rw [e] at h
          obtain ⟨p, hp, hp', hbefore⟩ := rerr y h
          refine ⟨true :: p, by simpa using hp, by simpa using hp', fun w j hw hj => ?_⟩
          match w with
          | [] => exact hroot j hj
          | false :: w => exact hleft w j hj
          | true :: w =>
            obtain ⟨h, -⟩ | ⟨-, h⟩ := hw
            · cases h
            · simpa using hbefore w j h (by simpa using hj)

end Sys2Proof.Machine
end

