-- ==== Sys2Proof/Laws/Gen.lean ====
section
/-! SUPPORT. What GEN's walk records on a tree (42_code_table.md R68 to R70). -/

namespace Sys2Proof.Machine

/-- A table with some symbols' paths recorded in it. -/
def recordPaths (ct : Memory CodeEntry) (l : List (Sym × List Bool)) : Memory CodeEntry :=
  l.foldl (fun c e => ctSet c e.1.toNat (codeOf e.2)) ct

@[simp] theorem recordPaths_nil (ct : Memory CodeEntry) : recordPaths ct [] = ct := rfl

theorem recordPaths_cons (ct : Memory CodeEntry) (e : Sym × List Bool) (l : List (Sym × List Bool)) :
    recordPaths ct (e :: l) = recordPaths (ctSet ct e.1.toNat (codeOf e.2)) l := rfl

theorem recordPaths_append (ct : Memory CodeEntry) (l l' : List (Sym × List Bool)) :
    recordPaths ct (l ++ l') = recordPaths (recordPaths ct l) l' := List.foldl_append

/-- On a represented tree no deeper than the fuel, the walk records every leaf's path. -/
theorem walk_tree {nm : Memory Node} {t : Shape} (ht : t.In nm) {fuel : Nat} (hf : t.height < fuel) (p : List Bool)
    (ct : Memory CodeEntry) : walk nm fuel t.root p ct = .ok (recordPaths ct (t.paths p)) := by
  induction t generalizing fuel p ct with
  | leaf i x =>
    obtain ⟨fuel, rfl⟩ : ∃ n, fuel = n + 1 := ⟨fuel - 1, by omega⟩
    have hr : isRecord i = true := Shape.isRecord_root ht
    have hx : (nmGet nm i).sym = x := ht.2.2.2.2
    simp [walk, hr, Shape.isLeaf_leaf ht, hx, Shape.paths, recordPaths]
  | node i l r ihl ihr =>
    obtain ⟨fuel, rfl⟩ : ∃ n, fuel = n + 1 := ⟨fuel - 1, by omega⟩
    have hr : isRecord i = true := Shape.isRecord_root ht
    have hh : l.height < fuel ∧ r.height < fuel := by simp only [Shape.height] at hf; omega
    have hL : (nmGet nm i).left.toNat = l.root := ht.2.2.2.2.1
    have hR : (nmGet nm i).right.toNat = r.root := ht.2.2.2.2.2.1
    have h1 := ihl ht.2.2.2.2.2.2.2.2.2.1 hh.1 (p ++ [false]) ct
    have h2 := ihr ht.2.2.2.2.2.2.2.2.2.2 hh.2 (p ++ [true]) (recordPaths ct (l.paths (p ++ [false])))
    simp [walk, hr, Shape.isLeaf_node ht, hL, hR, h1, h2, Shape.paths, recordPaths_append]

theorem recordPaths_wf {ct : Memory CodeEntry} (h : Memory.wf CodeEntry.invalid ct) (l : List (Sym × List Bool)) :
    Memory.wf CodeEntry.invalid (recordPaths ct l) := by
  induction l generalizing ct with
  | nil => exact h
  | cons e l ih => exact ih (Memory.set_wf _ _ h)

theorem recordPaths_within {ct : Memory CodeEntry} (h : Memory.within Config.nSymbols ct)
    (l : List (Sym × List Bool)) : Memory.within Config.nSymbols (recordPaths ct l) := by
  induction l generalizing ct with
  | nil => exact h
  | cons e l ih => exact ih (Memory.set_within h e.1.isLt)

theorem recordPaths_get_of_notMem {ct : Memory CodeEntry} {l : List (Sym × List Bool)} {x : Sym}
    (h : x ∉ l.map Prod.fst) : ctGet (recordPaths ct l) x.toNat = ctGet ct x.toNat := by
  induction l generalizing ct with
  | nil => rfl
  | cons e l ih =>
    simp only [List.map_cons, List.mem_cons, not_or] at h
    rw [recordPaths_cons, ih h.2]
    exact ctGet_ctSet_ne _ _ fun hx => h.1 (BitVec.eq_of_toNat_eq hx)

/-- With distinct symbols every recorded path is read back. -/
theorem recordPaths_get_of_mem {ct : Memory CodeEntry} (hw : Memory.wf CodeEntry.invalid ct)
    {l : List (Sym × List Bool)} (hn : (l.map Prod.fst).Nodup) {x : Sym} {p : List Bool} (h : (x, p) ∈ l) :
    ctGet (recordPaths ct l) x.toNat = codeOf p := by
  induction l generalizing ct with
  | nil => cases h
  | cons e l ih =>
    simp only [List.map_cons, List.nodup_cons] at hn
    rw [recordPaths_cons]
    rcases List.mem_cons.mp h with rfl | h
    · rw [recordPaths_get_of_notMem hn.1, ctGet_ctSet hw, if_pos rfl]
    · exact ih (Memory.set_wf _ _ hw) hn.2 h

/-- GEN's table of a tree that is one leaf: the fixed one-bit code (42_code_table.md R70). -/
theorem codeTable_leaf {nm : Memory Node} {i : Nat} {x : Sym} (ht : (Shape.leaf i x).In nm) :
    codeTable nm i = .ok (recordPaths [] [(x, [false])]) := by
  have hr : isRecord i = true := Shape.isRecord_root ht
  have hx : (nmGet nm i).sym = x := ht.2.2.2.2
  simp [codeTable, hr, Shape.isLeaf_leaf ht, hx, recordPaths]

/-- GEN's table of a tree whose root is an inner node: the recorded paths (42_code_table.md R68, R69). -/
theorem codeTable_node {nm : Memory Node} {i : Nat} {l r : Shape} (ht : (Shape.node i l r).In nm)
    (hs : (Shape.node i l r).symbols.Nodup) :
    codeTable nm i = .ok (recordPaths [] ((Shape.node i l r).paths [])) := by
  have hw := walk_tree ht (fuel := Config.lenMax + 1) (Nat.lt_succ_of_le (Shape.height_le hs)) [] []
  rw [codeTable, Shape.isLeaf_node ht, Bool.and_false, if_neg (by simp)]
  exact hw

/-- The symbols' codes of a tree: its paths, or the one-bit code when it is one leaf. -/
def Shape.codes : Shape → List (Sym × List Bool)
  | .leaf _ x => [(x, [false])]
  | .node i l r => (Shape.node i l r).paths []

theorem Shape.codes_symbols (t : Shape) : t.codes.map Prod.fst = t.symbols := by
  cases t with
  | leaf i x => rfl
  | node i l r => exact Shape.paths_symbols _ _

/-- GEN's table of any tree without repeated symbols. -/
theorem codeTable_tree {nm : Memory Node} {t : Shape} (ht : t.In nm) (hs : t.symbols.Nodup) :
    codeTable nm t.root = .ok (recordPaths [] t.codes) := by
  cases t with
  | leaf i x => exact codeTable_leaf ht
  | node i l r => exact codeTable_node ht hs

/-- Every code has 1 to 255 bits (42_code_table.md R72 (c)). -/
theorem Shape.codes_length {nm : Memory Node} {t : Shape} (ht : t.In nm) (hs : t.symbols.Nodup) {x : Sym}
    {p : List Bool} (h : (x, p) ∈ t.codes) : 1 ≤ p.length ∧ p.length ≤ Config.lenMax := by
  cases t with
  | leaf i y =>
    simp only [Shape.codes, List.mem_singleton, Prod.mk.injEq] at h
    simp [h.2]
  | node i l r =>
    obtain ⟨q, rfl, j, hj, hjl, -⟩ := (Shape.mem_paths ht [] p x).mp h
    refine ⟨?_, le_trans (Shape.follow_length_le ht hj) (Shape.height_le hs)⟩
    cases p with
    | nil =>
      cases hj
      rw [Shape.root_node, Shape.isLeaf_node ht] at hjl
      cases hjl
    | cons b p => simp

/-- The walk keeps a table in canonical form and in its bounds, whatever tree it walks. -/
theorem walk_canonical {nm : Memory Node} {fuel i : Nat} {p : List Bool} {ct ct' : Memory CodeEntry}
    (h : walk nm fuel i p ct = .ok ct') (h1 : Memory.wf CodeEntry.invalid ct)
    (h2 : Memory.within Config.nSymbols ct) :
    Memory.wf CodeEntry.invalid ct' ∧ Memory.within Config.nSymbols ct' := by
  induction fuel generalizing i p ct ct' with
  | zero => simp [walk] at h
  | succ n ih =>
    rw [walk] at h
    split at h
    · cases h
    · split at h
      · cases h
        exact ⟨Memory.set_wf _ _ h1, Memory.set_within h2 (nmGet nm i).sym.isLt⟩
      · cases hw : walk nm n (nmGet nm i).left.toNat (p ++ [false]) ct with
        | error x => rw [hw] at h; cases h
        | ok c =>
          rw [hw] at h
          obtain ⟨a, b⟩ := ih hw h1 h2
          exact ih h a b

theorem codeTable_canonical {nm : Memory Node} {i : Nat} {ct : Memory CodeEntry} (h : codeTable nm i = .ok ct) :
    Memory.wf CodeEntry.invalid ct ∧ Memory.within Config.nSymbols ct := by
  unfold codeTable at h
  split at h
  · cases h
    exact ⟨Memory.set_wf _ _ (Memory.nil_wf _), Memory.set_within (Memory.nil_within _) (nmGet nm i).sym.isLt⟩
  · exact walk_canonical h (Memory.nil_wf _) (Memory.nil_within _)

end Sys2Proof.Machine
end

