-- ==== Sys2Proof/Laws/PerInstr.lean ====
section
/-! SUPPORT. Facts about every command as syntax, one lemma per constructor. -/

namespace Sys2Proof.Laws.Roundtrip

/-- The decoder reads a well-formed command back from the word the encoder writes for it (30_encoding.md R44 to
R46). -/
def Statement (i : Instr) : Prop := i.wellFormed = true → decode (encode i) = .ok i

theorem clr : Statement .clr := fun _ => rfl
theorem freq : Statement .freq := fun _ => rfl
theorem build : Statement .build := fun _ => rfl
theorem gen : Statement .gen := fun _ => rfl
theorem enc : Statement .enc := fun _ => rfl
theorem dec : Statement .dec := fun _ => rfl

theorem fin (idx : Nat) : Statement (.fin idx) := by
  intro h
  have hi : idx < 512 := by simpa [Instr.wellFormed] using h
  have hw := encode_fin_toNat idx
  have h1 : (opcodeField (encode (.fin idx))).toNat = 7 := by rw [opcodeField_toNat, hw]; omega
  have h2 : zeroFieldXLow (encode (.fin idx)) = 0 := by rw [zeroFieldXLow_eq_zero, hw]; omega
  have h3 : zeroFieldXHigh (encode (.fin idx)) = 0 := by rw [zeroFieldXHigh_eq_zero, hw]; omega
  have h4 : (indexField (encode (.fin idx))).toNat = idx := by rw [indexField_toNat, hw]; omega
  simp [decode, h1, decodeX, h2, h3, h4]

end Sys2Proof.Laws.Roundtrip
end

