-- ==== Sys2Proof/Laws/State.lean ====
section
/-! SUPPORT. One lemma per field per named update of the state, each true by rfl, so that no proof unfolds an
update. -/

namespace Sys2Proof.Machine

/-! ### accept -/

@[simp] theorem accept_ft (v : Word) (s : State) : (accept v s).ft = s.ft := rfl
@[simp] theorem accept_nm (v : Word) (s : State) : (accept v s).nm = s.nm := rfl
@[simp] theorem accept_ts (v : Word) (s : State) : (accept v s).ts = s.ts := rfl
@[simp] theorem accept_root (v : Word) (s : State) : (accept v s).root = s.root := rfl
@[simp] theorem accept_nsym (v : Word) (s : State) : (accept v s).nsym = s.nsym := rfl
@[simp] theorem accept_ct (v : Word) (s : State) : (accept v s).ct = s.ct := rfl
@[simp] theorem accept_cur (v : Word) (s : State) : (accept v s).cur = s.cur := rfl
@[simp] theorem accept_ph (v : Word) (s : State) : (accept v s).ph = .busy := rfl
@[simp] theorem accept_op (v : Word) (s : State) : (accept v s).op = opcodeField v := rfl
@[simp] theorem accept_done (v : Word) (s : State) : (accept v s).done = false := rfl
@[simp] theorem accept_err (v : Word) (s : State) : (accept v s).err = s.err := rfl
@[simp] theorem accept_ctsel (v : Word) (s : State) : (accept v s).ctsel = s.ctsel := rfl
@[simp] theorem accept_pq (v : Word) (s : State) : (accept v s).pq = s.pq := rfl
@[simp] theorem accept_next (v : Word) (s : State) : (accept v s).next = s.next := rfl
@[simp] theorem accept_esym (v : Word) (s : State) : (accept v s).esym = s.esym := rfl
@[simp] theorem accept_epos (v : Word) (s : State) : (accept v s).epos = s.epos := rfl
@[simp] theorem accept_pt (v : Word) (s : State) : (accept v s).pt = s.pt := rfl
@[simp] theorem accept_si (v : Word) (s : State) : (accept v s).si = s.si := rfl
@[simp] theorem accept_bo (v : Word) (s : State) : (accept v s).bo = s.bo := rfl
@[simp] theorem accept_bi (v : Word) (s : State) : (accept v s).bi = s.bi := rfl
@[simp] theorem accept_so (v : Word) (s : State) : (accept v s).so = s.so := rfl
@[simp] theorem accept_resp (v : Word) (s : State) : (accept v s).resp = s.resp := rfl
@[simp] theorem accept_plan (v : Word) (s : State) : (accept v s).plan = s.plan := rfl

/-! ### complete -/

@[simp] theorem complete_ft (s : State) : (complete s).ft = s.ft := rfl
@[simp] theorem complete_nm (s : State) : (complete s).nm = s.nm := rfl
@[simp] theorem complete_ts (s : State) : (complete s).ts = s.ts := rfl
@[simp] theorem complete_root (s : State) : (complete s).root = s.root := rfl
@[simp] theorem complete_nsym (s : State) : (complete s).nsym = s.nsym := rfl
@[simp] theorem complete_ct (s : State) : (complete s).ct = s.ct := rfl
@[simp] theorem complete_cur (s : State) : (complete s).cur = s.cur := rfl
@[simp] theorem complete_ph (s : State) : (complete s).ph = .idle := rfl
@[simp] theorem complete_op (s : State) : (complete s).op = s.op := rfl
@[simp] theorem complete_done (s : State) : (complete s).done = true := rfl
@[simp] theorem complete_err (s : State) : (complete s).err = s.err := rfl
@[simp] theorem complete_ctsel (s : State) : (complete s).ctsel = s.ctsel := rfl
@[simp] theorem complete_pq (s : State) : (complete s).pq = s.pq := rfl
@[simp] theorem complete_next (s : State) : (complete s).next = s.next := rfl
@[simp] theorem complete_esym (s : State) : (complete s).esym = s.esym := rfl
@[simp] theorem complete_epos (s : State) : (complete s).epos = s.epos := rfl
@[simp] theorem complete_pt (s : State) : (complete s).pt = .rest := rfl
@[simp] theorem complete_si (s : State) : (complete s).si = s.si := rfl
@[simp] theorem complete_bo (s : State) : (complete s).bo = s.bo := rfl
@[simp] theorem complete_bi (s : State) : (complete s).bi = s.bi := rfl
@[simp] theorem complete_so (s : State) : (complete s).so = s.so := rfl
@[simp] theorem complete_resp (s : State) : (complete s).resp = s.resp := rfl
@[simp] theorem complete_plan (s : State) : (complete s).plan = s.plan := rfl

/-! ### raiseFault -/

@[simp] theorem raiseFault_ft (c : Cause) (info : BitVec 16) (s : State) : (raiseFault c info s).ft = s.ft := rfl
@[simp] theorem raiseFault_nm (c : Cause) (info : BitVec 16) (s : State) : (raiseFault c info s).nm = s.nm := rfl
@[simp] theorem raiseFault_ts (c : Cause) (info : BitVec 16) (s : State) : (raiseFault c info s).ts = s.ts := rfl
@[simp] theorem raiseFault_root (c : Cause) (info : BitVec 16) (s : State) : (raiseFault c info s).root = s.root := rfl
@[simp] theorem raiseFault_nsym (c : Cause) (info : BitVec 16) (s : State) : (raiseFault c info s).nsym = s.nsym := rfl
@[simp] theorem raiseFault_ct (c : Cause) (info : BitVec 16) (s : State) : (raiseFault c info s).ct = s.ct := rfl
@[simp] theorem raiseFault_cur (c : Cause) (info : BitVec 16) (s : State) : (raiseFault c info s).cur = s.cur := rfl
@[simp] theorem raiseFault_ph (c : Cause) (info : BitVec 16) (s : State) : (raiseFault c info s).ph = .fault := rfl
@[simp] theorem raiseFault_op (c : Cause) (info : BitVec 16) (s : State) : (raiseFault c info s).op = s.op := rfl
@[simp] theorem raiseFault_done (c : Cause) (info : BitVec 16) (s : State) : (raiseFault c info s).done = s.done := rfl
@[simp] theorem raiseFault_err (c : Cause) (info : BitVec 16) (s : State) : (raiseFault c info s).err = errWord c s.op info := rfl
@[simp] theorem raiseFault_ctsel (c : Cause) (info : BitVec 16) (s : State) : (raiseFault c info s).ctsel = s.ctsel := rfl
@[simp] theorem raiseFault_pq (c : Cause) (info : BitVec 16) (s : State) : (raiseFault c info s).pq = s.pq := rfl
@[simp] theorem raiseFault_next (c : Cause) (info : BitVec 16) (s : State) : (raiseFault c info s).next = s.next := rfl
@[simp] theorem raiseFault_esym (c : Cause) (info : BitVec 16) (s : State) : (raiseFault c info s).esym = s.esym := rfl
@[simp] theorem raiseFault_epos (c : Cause) (info : BitVec 16) (s : State) : (raiseFault c info s).epos = s.epos := rfl
@[simp] theorem raiseFault_pt (c : Cause) (info : BitVec 16) (s : State) : (raiseFault c info s).pt = .rest := rfl
@[simp] theorem raiseFault_si (c : Cause) (info : BitVec 16) (s : State) : (raiseFault c info s).si = s.si := rfl
@[simp] theorem raiseFault_bo (c : Cause) (info : BitVec 16) (s : State) : (raiseFault c info s).bo = s.bo := rfl
@[simp] theorem raiseFault_bi (c : Cause) (info : BitVec 16) (s : State) : (raiseFault c info s).bi = s.bi := rfl
@[simp] theorem raiseFault_so (c : Cause) (info : BitVec 16) (s : State) : (raiseFault c info s).so = s.so := rfl
@[simp] theorem raiseFault_resp (c : Cause) (info : BitVec 16) (s : State) : (raiseFault c info s).resp = s.resp := rfl
@[simp] theorem raiseFault_plan (c : Cause) (info : BitVec 16) (s : State) : (raiseFault c info s).plan = s.plan := rfl

/-! ### blockReset -/

@[simp] theorem blockReset_ft (s : State) : (blockReset s).ft = [] := rfl
@[simp] theorem blockReset_nm (s : State) : (blockReset s).nm = [] := rfl
@[simp] theorem blockReset_ts (s : State) : (blockReset s).ts = .noTree := rfl
@[simp] theorem blockReset_root (s : State) : (blockReset s).root = 0 := rfl
@[simp] theorem blockReset_nsym (s : State) : (blockReset s).nsym = 0 := rfl
@[simp] theorem blockReset_ct (s : State) : (blockReset s).ct = [] := rfl
@[simp] theorem blockReset_cur (s : State) : (blockReset s).cur = 0 := rfl
@[simp] theorem blockReset_ph (s : State) : (blockReset s).ph = .idle := rfl
@[simp] theorem blockReset_op (s : State) : (blockReset s).op = 0 := rfl
@[simp] theorem blockReset_done (s : State) : (blockReset s).done = false := rfl
@[simp] theorem blockReset_err (s : State) : (blockReset s).err = 0 := rfl
@[simp] theorem blockReset_ctsel (s : State) : (blockReset s).ctsel = 0 := rfl
@[simp] theorem blockReset_pq (s : State) : (blockReset s).pq = [] := rfl
@[simp] theorem blockReset_next (s : State) : (blockReset s).next = 0 := rfl
@[simp] theorem blockReset_esym (s : State) : (blockReset s).esym = 0 := rfl
@[simp] theorem blockReset_epos (s : State) : (blockReset s).epos = 0 := rfl
@[simp] theorem blockReset_pt (s : State) : (blockReset s).pt = .rest := rfl
@[simp] theorem blockReset_si (s : State) : (blockReset s).si = s.si := rfl
@[simp] theorem blockReset_bo (s : State) : (blockReset s).bo = s.bo := rfl
@[simp] theorem blockReset_bi (s : State) : (blockReset s).bi = s.bi := rfl
@[simp] theorem blockReset_so (s : State) : (blockReset s).so = s.so := rfl
@[simp] theorem blockReset_resp (s : State) : (blockReset s).resp = s.resp := rfl
@[simp] theorem blockReset_plan (s : State) : (blockReset s).plan = s.plan := rfl

/-! ### goto -/

@[simp] theorem goto_ft (p : Point) (s : State) : (goto p s).ft = s.ft := rfl
@[simp] theorem goto_nm (p : Point) (s : State) : (goto p s).nm = s.nm := rfl
@[simp] theorem goto_ts (p : Point) (s : State) : (goto p s).ts = s.ts := rfl
@[simp] theorem goto_root (p : Point) (s : State) : (goto p s).root = s.root := rfl
@[simp] theorem goto_nsym (p : Point) (s : State) : (goto p s).nsym = s.nsym := rfl
@[simp] theorem goto_ct (p : Point) (s : State) : (goto p s).ct = s.ct := rfl
@[simp] theorem goto_cur (p : Point) (s : State) : (goto p s).cur = s.cur := rfl
@[simp] theorem goto_ph (p : Point) (s : State) : (goto p s).ph = s.ph := rfl
@[simp] theorem goto_op (p : Point) (s : State) : (goto p s).op = s.op := rfl
@[simp] theorem goto_done (p : Point) (s : State) : (goto p s).done = s.done := rfl
@[simp] theorem goto_err (p : Point) (s : State) : (goto p s).err = s.err := rfl
@[simp] theorem goto_ctsel (p : Point) (s : State) : (goto p s).ctsel = s.ctsel := rfl
@[simp] theorem goto_pq (p : Point) (s : State) : (goto p s).pq = s.pq := rfl
@[simp] theorem goto_next (p : Point) (s : State) : (goto p s).next = s.next := rfl
@[simp] theorem goto_esym (p : Point) (s : State) : (goto p s).esym = s.esym := rfl
@[simp] theorem goto_epos (p : Point) (s : State) : (goto p s).epos = s.epos := rfl
@[simp] theorem goto_pt (p : Point) (s : State) : (goto p s).pt = p := rfl
@[simp] theorem goto_si (p : Point) (s : State) : (goto p s).si = s.si := rfl
@[simp] theorem goto_bo (p : Point) (s : State) : (goto p s).bo = s.bo := rfl
@[simp] theorem goto_bi (p : Point) (s : State) : (goto p s).bi = s.bi := rfl
@[simp] theorem goto_so (p : Point) (s : State) : (goto p s).so = s.so := rfl
@[simp] theorem goto_resp (p : Point) (s : State) : (goto p s).resp = s.resp := rfl
@[simp] theorem goto_plan (p : Point) (s : State) : (goto p s).plan = s.plan := rfl

/-! ### reopenTree -/

@[simp] theorem reopenTree_ft (s : State) : (reopenTree s).ft = s.ft := rfl
@[simp] theorem reopenTree_nm (s : State) : (reopenTree s).nm = s.nm := rfl
@[simp] theorem reopenTree_ts (s : State) : (reopenTree s).ts = .openTree := rfl
@[simp] theorem reopenTree_root (s : State) : (reopenTree s).root = 0 := rfl
@[simp] theorem reopenTree_nsym (s : State) : (reopenTree s).nsym = 0 := rfl
@[simp] theorem reopenTree_ct (s : State) : (reopenTree s).ct = [] := rfl
@[simp] theorem reopenTree_cur (s : State) : (reopenTree s).cur = s.cur := rfl
@[simp] theorem reopenTree_ph (s : State) : (reopenTree s).ph = s.ph := rfl
@[simp] theorem reopenTree_op (s : State) : (reopenTree s).op = s.op := rfl
@[simp] theorem reopenTree_done (s : State) : (reopenTree s).done = s.done := rfl
@[simp] theorem reopenTree_err (s : State) : (reopenTree s).err = s.err := rfl
@[simp] theorem reopenTree_ctsel (s : State) : (reopenTree s).ctsel = s.ctsel := rfl
@[simp] theorem reopenTree_pq (s : State) : (reopenTree s).pq = s.pq := rfl
@[simp] theorem reopenTree_next (s : State) : (reopenTree s).next = s.next := rfl
@[simp] theorem reopenTree_esym (s : State) : (reopenTree s).esym = s.esym := rfl
@[simp] theorem reopenTree_epos (s : State) : (reopenTree s).epos = s.epos := rfl
@[simp] theorem reopenTree_pt (s : State) : (reopenTree s).pt = s.pt := rfl
@[simp] theorem reopenTree_si (s : State) : (reopenTree s).si = s.si := rfl
@[simp] theorem reopenTree_bo (s : State) : (reopenTree s).bo = s.bo := rfl
@[simp] theorem reopenTree_bi (s : State) : (reopenTree s).bi = s.bi := rfl
@[simp] theorem reopenTree_so (s : State) : (reopenTree s).so = s.so := rfl
@[simp] theorem reopenTree_resp (s : State) : (reopenTree s).resp = s.resp := rfl
@[simp] theorem reopenTree_plan (s : State) : (reopenTree s).plan = s.plan := rfl

/-! ### finaliseTree -/

@[simp] theorem finaliseTree_ft (r k : Nat) (s : State) : (finaliseTree r k s).ft = s.ft := rfl
@[simp] theorem finaliseTree_nm (r k : Nat) (s : State) : (finaliseTree r k s).nm = s.nm := rfl
@[simp] theorem finaliseTree_ts (r k : Nat) (s : State) : (finaliseTree r k s).ts = .finalTree := rfl
@[simp] theorem finaliseTree_root (r k : Nat) (s : State) : (finaliseTree r k s).root = BitVec.ofNat 9 r := rfl
@[simp] theorem finaliseTree_nsym (r k : Nat) (s : State) : (finaliseTree r k s).nsym = BitVec.ofNat 9 k := rfl
@[simp] theorem finaliseTree_ct (r k : Nat) (s : State) : (finaliseTree r k s).ct = s.ct := rfl
@[simp] theorem finaliseTree_cur (r k : Nat) (s : State) : (finaliseTree r k s).cur = s.cur := rfl
@[simp] theorem finaliseTree_ph (r k : Nat) (s : State) : (finaliseTree r k s).ph = s.ph := rfl
@[simp] theorem finaliseTree_op (r k : Nat) (s : State) : (finaliseTree r k s).op = s.op := rfl
@[simp] theorem finaliseTree_done (r k : Nat) (s : State) : (finaliseTree r k s).done = s.done := rfl
@[simp] theorem finaliseTree_err (r k : Nat) (s : State) : (finaliseTree r k s).err = s.err := rfl
@[simp] theorem finaliseTree_ctsel (r k : Nat) (s : State) : (finaliseTree r k s).ctsel = s.ctsel := rfl
@[simp] theorem finaliseTree_pq (r k : Nat) (s : State) : (finaliseTree r k s).pq = s.pq := rfl
@[simp] theorem finaliseTree_next (r k : Nat) (s : State) : (finaliseTree r k s).next = s.next := rfl
@[simp] theorem finaliseTree_esym (r k : Nat) (s : State) : (finaliseTree r k s).esym = s.esym := rfl
@[simp] theorem finaliseTree_epos (r k : Nat) (s : State) : (finaliseTree r k s).epos = s.epos := rfl
@[simp] theorem finaliseTree_pt (r k : Nat) (s : State) : (finaliseTree r k s).pt = s.pt := rfl
@[simp] theorem finaliseTree_si (r k : Nat) (s : State) : (finaliseTree r k s).si = s.si := rfl
@[simp] theorem finaliseTree_bo (r k : Nat) (s : State) : (finaliseTree r k s).bo = s.bo := rfl
@[simp] theorem finaliseTree_bi (r k : Nat) (s : State) : (finaliseTree r k s).bi = s.bi := rfl
@[simp] theorem finaliseTree_so (r k : Nat) (s : State) : (finaliseTree r k s).so = s.so := rfl
@[simp] theorem finaliseTree_resp (r k : Nat) (s : State) : (finaliseTree r k s).resp = s.resp := rfl
@[simp] theorem finaliseTree_plan (r k : Nat) (s : State) : (finaliseTree r k s).plan = s.plan := rfl

/-! ### setCur -/

@[simp] theorem setCur_ft (i : Idx) (s : State) : (setCur i s).ft = s.ft := rfl
@[simp] theorem setCur_nm (i : Idx) (s : State) : (setCur i s).nm = s.nm := rfl
@[simp] theorem setCur_ts (i : Idx) (s : State) : (setCur i s).ts = s.ts := rfl
@[simp] theorem setCur_root (i : Idx) (s : State) : (setCur i s).root = s.root := rfl
@[simp] theorem setCur_nsym (i : Idx) (s : State) : (setCur i s).nsym = s.nsym := rfl
@[simp] theorem setCur_ct (i : Idx) (s : State) : (setCur i s).ct = s.ct := rfl
@[simp] theorem setCur_cur (i : Idx) (s : State) : (setCur i s).cur = i := rfl
@[simp] theorem setCur_ph (i : Idx) (s : State) : (setCur i s).ph = s.ph := rfl
@[simp] theorem setCur_op (i : Idx) (s : State) : (setCur i s).op = s.op := rfl
@[simp] theorem setCur_done (i : Idx) (s : State) : (setCur i s).done = s.done := rfl
@[simp] theorem setCur_err (i : Idx) (s : State) : (setCur i s).err = s.err := rfl
@[simp] theorem setCur_ctsel (i : Idx) (s : State) : (setCur i s).ctsel = s.ctsel := rfl
@[simp] theorem setCur_pq (i : Idx) (s : State) : (setCur i s).pq = s.pq := rfl
@[simp] theorem setCur_next (i : Idx) (s : State) : (setCur i s).next = s.next := rfl
@[simp] theorem setCur_esym (i : Idx) (s : State) : (setCur i s).esym = s.esym := rfl
@[simp] theorem setCur_epos (i : Idx) (s : State) : (setCur i s).epos = s.epos := rfl
@[simp] theorem setCur_pt (i : Idx) (s : State) : (setCur i s).pt = s.pt := rfl
@[simp] theorem setCur_si (i : Idx) (s : State) : (setCur i s).si = s.si := rfl
@[simp] theorem setCur_bo (i : Idx) (s : State) : (setCur i s).bo = s.bo := rfl
@[simp] theorem setCur_bi (i : Idx) (s : State) : (setCur i s).bi = s.bi := rfl
@[simp] theorem setCur_so (i : Idx) (s : State) : (setCur i s).so = s.so := rfl
@[simp] theorem setCur_resp (i : Idx) (s : State) : (setCur i s).resp = s.resp := rfl
@[simp] theorem setCur_plan (i : Idx) (s : State) : (setCur i s).plan = s.plan := rfl

/-! ### clearForBuild -/

@[simp] theorem clearForBuild_ft (s : State) : (clearForBuild s).ft = s.ft := rfl
@[simp] theorem clearForBuild_nm (s : State) : (clearForBuild s).nm = [] := rfl
@[simp] theorem clearForBuild_ts (s : State) : (clearForBuild s).ts = .noTree := rfl
@[simp] theorem clearForBuild_root (s : State) : (clearForBuild s).root = 0 := rfl
@[simp] theorem clearForBuild_nsym (s : State) : (clearForBuild s).nsym = 0 := rfl
@[simp] theorem clearForBuild_ct (s : State) : (clearForBuild s).ct = [] := rfl
@[simp] theorem clearForBuild_cur (s : State) : (clearForBuild s).cur = s.cur := rfl
@[simp] theorem clearForBuild_ph (s : State) : (clearForBuild s).ph = s.ph := rfl
@[simp] theorem clearForBuild_op (s : State) : (clearForBuild s).op = s.op := rfl
@[simp] theorem clearForBuild_done (s : State) : (clearForBuild s).done = s.done := rfl
@[simp] theorem clearForBuild_err (s : State) : (clearForBuild s).err = s.err := rfl
@[simp] theorem clearForBuild_ctsel (s : State) : (clearForBuild s).ctsel = s.ctsel := rfl
@[simp] theorem clearForBuild_pq (s : State) : (clearForBuild s).pq = [] := rfl
@[simp] theorem clearForBuild_next (s : State) : (clearForBuild s).next = 0 := rfl
@[simp] theorem clearForBuild_esym (s : State) : (clearForBuild s).esym = s.esym := rfl
@[simp] theorem clearForBuild_epos (s : State) : (clearForBuild s).epos = s.epos := rfl
@[simp] theorem clearForBuild_pt (s : State) : (clearForBuild s).pt = s.pt := rfl
@[simp] theorem clearForBuild_si (s : State) : (clearForBuild s).si = s.si := rfl
@[simp] theorem clearForBuild_bo (s : State) : (clearForBuild s).bo = s.bo := rfl
@[simp] theorem clearForBuild_bi (s : State) : (clearForBuild s).bi = s.bi := rfl
@[simp] theorem clearForBuild_so (s : State) : (clearForBuild s).so = s.so := rfl
@[simp] theorem clearForBuild_resp (s : State) : (clearForBuild s).resp = s.resp := rfl
@[simp] theorem clearForBuild_plan (s : State) : (clearForBuild s).plan = s.plan := rfl

/-! ### withForest -/

@[simp] theorem withForest_ft (f : Forest) (s : State) : (withForest f s).ft = s.ft := rfl
@[simp] theorem withForest_nm (f : Forest) (s : State) : (withForest f s).nm = f.nm := rfl
@[simp] theorem withForest_ts (f : Forest) (s : State) : (withForest f s).ts = s.ts := rfl
@[simp] theorem withForest_root (f : Forest) (s : State) : (withForest f s).root = s.root := rfl
@[simp] theorem withForest_nsym (f : Forest) (s : State) : (withForest f s).nsym = s.nsym := rfl
@[simp] theorem withForest_ct (f : Forest) (s : State) : (withForest f s).ct = s.ct := rfl
@[simp] theorem withForest_cur (f : Forest) (s : State) : (withForest f s).cur = s.cur := rfl
@[simp] theorem withForest_ph (f : Forest) (s : State) : (withForest f s).ph = s.ph := rfl
@[simp] theorem withForest_op (f : Forest) (s : State) : (withForest f s).op = s.op := rfl
@[simp] theorem withForest_done (f : Forest) (s : State) : (withForest f s).done = s.done := rfl
@[simp] theorem withForest_err (f : Forest) (s : State) : (withForest f s).err = s.err := rfl
@[simp] theorem withForest_ctsel (f : Forest) (s : State) : (withForest f s).ctsel = s.ctsel := rfl
@[simp] theorem withForest_pq (f : Forest) (s : State) : (withForest f s).pq = f.pq := rfl
@[simp] theorem withForest_next (f : Forest) (s : State) : (withForest f s).next = f.next := rfl
@[simp] theorem withForest_esym (f : Forest) (s : State) : (withForest f s).esym = s.esym := rfl
@[simp] theorem withForest_epos (f : Forest) (s : State) : (withForest f s).epos = s.epos := rfl
@[simp] theorem withForest_pt (f : Forest) (s : State) : (withForest f s).pt = s.pt := rfl
@[simp] theorem withForest_si (f : Forest) (s : State) : (withForest f s).si = s.si := rfl
@[simp] theorem withForest_bo (f : Forest) (s : State) : (withForest f s).bo = s.bo := rfl
@[simp] theorem withForest_bi (f : Forest) (s : State) : (withForest f s).bi = s.bi := rfl
@[simp] theorem withForest_so (f : Forest) (s : State) : (withForest f s).so = s.so := rfl
@[simp] theorem withForest_resp (f : Forest) (s : State) : (withForest f s).resp = s.resp := rfl
@[simp] theorem withForest_plan (f : Forest) (s : State) : (withForest f s).plan = s.plan := rfl

/-! ### answerHost -/

@[simp] theorem answerHost_ft (a : HostAnswer) (s : State) : (answerHost a s).ft = s.ft := rfl
@[simp] theorem answerHost_nm (a : HostAnswer) (s : State) : (answerHost a s).nm = s.nm := rfl
@[simp] theorem answerHost_ts (a : HostAnswer) (s : State) : (answerHost a s).ts = s.ts := rfl
@[simp] theorem answerHost_root (a : HostAnswer) (s : State) : (answerHost a s).root = s.root := rfl
@[simp] theorem answerHost_nsym (a : HostAnswer) (s : State) : (answerHost a s).nsym = s.nsym := rfl
@[simp] theorem answerHost_ct (a : HostAnswer) (s : State) : (answerHost a s).ct = s.ct := rfl
@[simp] theorem answerHost_cur (a : HostAnswer) (s : State) : (answerHost a s).cur = s.cur := rfl
@[simp] theorem answerHost_ph (a : HostAnswer) (s : State) : (answerHost a s).ph = s.ph := rfl
@[simp] theorem answerHost_op (a : HostAnswer) (s : State) : (answerHost a s).op = s.op := rfl
@[simp] theorem answerHost_done (a : HostAnswer) (s : State) : (answerHost a s).done = s.done := rfl
@[simp] theorem answerHost_err (a : HostAnswer) (s : State) : (answerHost a s).err = s.err := rfl
@[simp] theorem answerHost_ctsel (a : HostAnswer) (s : State) : (answerHost a s).ctsel = s.ctsel := rfl
@[simp] theorem answerHost_pq (a : HostAnswer) (s : State) : (answerHost a s).pq = s.pq := rfl
@[simp] theorem answerHost_next (a : HostAnswer) (s : State) : (answerHost a s).next = s.next := rfl
@[simp] theorem answerHost_esym (a : HostAnswer) (s : State) : (answerHost a s).esym = s.esym := rfl
@[simp] theorem answerHost_epos (a : HostAnswer) (s : State) : (answerHost a s).epos = s.epos := rfl
@[simp] theorem answerHost_pt (a : HostAnswer) (s : State) : (answerHost a s).pt = s.pt := rfl
@[simp] theorem answerHost_si (a : HostAnswer) (s : State) : (answerHost a s).si = s.si := rfl
@[simp] theorem answerHost_bo (a : HostAnswer) (s : State) : (answerHost a s).bo = s.bo := rfl
@[simp] theorem answerHost_bi (a : HostAnswer) (s : State) : (answerHost a s).bi = s.bi := rfl
@[simp] theorem answerHost_so (a : HostAnswer) (s : State) : (answerHost a s).so = s.so := rfl
@[simp] theorem answerHost_resp (a : HostAnswer) (s : State) : (answerHost a s).resp = a := rfl
@[simp] theorem answerHost_plan (a : HostAnswer) (s : State) : (answerHost a s).plan = s.plan := rfl

end Sys2Proof.Machine
end

