-- ==== Sys2Proof/Laws/Step.lean ====
section
/-! SUPPORT. Inversion: for each shared operation, each micro-step and the step itself, once, everything it can
do. Proofs cite these instead of unfolding the machine. -/

namespace Sys2Proof.Machine

variable {α : Type} {s t : State} {r : Reply}

/-! ### Requests -/

theorem askMore_eq_got {src : Option (List α)} {b : Bool} :
    askMore r src = .got b ↔ r = .answer ∧ ∃ xs, src = some xs ∧ b = !xs.isEmpty := by
  cases src <;> cases r <;> simp [askMore, eq_comm]

theorem askMore_eq_err {src : Option (List α)} : askMore r src = .err ↔ r = .err ∧ src ≠ none := by
  cases src <;> cases r <;> simp [askMore]

theorem askMore_eq_waiting {src : Option (List α)} : askMore r src = .waiting ↔ src = none ∨ r = .silent := by
  cases src <;> cases r <;> simp [askMore]

theorem askItem_eq_got {src : Option (List α)} {x : α} {xs : List α} :
    askItem r src = .got (x, xs) ↔ r = .answer ∧ src = some (x :: xs) := by
  cases src with
  | none => simp [askItem]
  | some l => cases l <;> cases r <;> simp [askItem]

theorem askItem_eq_err {src : Option (List α)} : askItem r src = .err ↔ r = .err ∧ src ≠ none := by
  cases src with
  | none => simp [askItem]
  | some l => cases l <;> cases r <;> simp [askItem]

theorem askItem_eq_waiting {src : Option (List α)} :
    askItem r src = .waiting ↔ src = none ∨ r = .silent ∨ (r = .answer ∧ src = some []) := by
  cases src with
  | none => simp [askItem]
  | some l => cases l <;> cases r <;> simp [askItem]

theorem askPut_eq_got {snk : Option (List α)} {x : α} {ys : List α} :
    askPut r snk x = .got ys ↔ r = .answer ∧ ∃ xs, snk = some xs ∧ ys = xs ++ [x] := by
  cases snk <;> cases r <;> simp [askPut, eq_comm]

theorem askPut_eq_err {snk : Option (List α)} {x : α} : askPut r snk x = .err ↔ r = .err ∧ snk ≠ none := by
  cases snk <;> cases r <;> simp [askPut]

theorem askPut_eq_waiting {snk : Option (List α)} {x : α} :
    askPut r snk x = .waiting ↔ snk = none ∨ r = .silent := by
  cases snk <;> cases r <;> simp [askPut]

/-! ### Micro-steps -/

theorem stepF0_cases (r : Reply) (s : State) :
    stepF0 r s = s ∨ (r = .err ∧ stepF0 r s = raiseFault .siErr 0 s) ∨
    (∃ x xs, s.si = some (x :: xs) ∧ stepF0 r s = goto .f1 s) ∨ (s.si = some [] ∧ stepF0 r s = complete s) := by
  unfold stepF0
  cases h : askMore r s.si with
  | waiting => exact .inl rfl
  | err => exact .inr (.inl ⟨(askMore_eq_err.mp h).1, rfl⟩)
  | got b =>
    obtain ⟨-, xs, hx, rfl⟩ := askMore_eq_got.mp h
    cases xs with
    | nil => exact .inr (.inr (.inr ⟨hx, rfl⟩))
    | cons x xs => exact .inr (.inr (.inl ⟨x, xs, hx, rfl⟩))

theorem stepF1_cases (r : Reply) (s : State) :
    stepF1 r s = s ∨ (r = .err ∧ stepF1 r s = raiseFault .siErr 0 s) ∨
    (∃ x xs, s.si = some (x :: xs) ∧ stepF1 r s = countSymbol x { s with si := some xs }) := by
  unfold stepF1
  cases h : askItem r s.si with
  | waiting => exact .inl rfl
  | err => exact .inr (.inl ⟨(askItem_eq_err.mp h).1, rfl⟩)
  | got a =>
    obtain ⟨x, xs⟩ := a
    exact .inr (.inr ⟨x, xs, (askItem_eq_got.mp h).2, rfl⟩)

theorem countSymbol_cases (x : Sym) (s : State) :
    ((ftGet s.ft x.toNat).toNat = Config.wMax ∧ countSymbol x s = raiseFault .countOvf (x.setWidth 16) s) ∨
    ((ftGet s.ft x.toNat).toNat < Config.wMax ∧
      countSymbol x s = goto .f0 { s with ft := ftSet s.ft x.toNat (ftGet s.ft x.toNat + 1) }) := by
  unfold countSymbol
  have := (ftGet s.ft x.toNat).isLt
  split
  · exact .inl ⟨‹_›, rfl⟩
  · exact .inr ⟨by simp only [Config.wMax] at *; omega, rfl⟩

theorem stepE0_cases (r : Reply) (s : State) :
    stepE0 r s = s ∨ (r = .err ∧ stepE0 r s = raiseFault .siErr 0 s) ∨
    (∃ x xs, s.si = some (x :: xs) ∧ stepE0 r s = goto .e1 s) ∨ (s.si = some [] ∧ stepE0 r s = complete s) := by
  unfold stepE0
  cases h : askMore r s.si with
  | waiting => exact .inl rfl
  | err => exact .inr (.inl ⟨(askMore_eq_err.mp h).1, rfl⟩)
  | got b =>
    obtain ⟨-, xs, hx, rfl⟩ := askMore_eq_got.mp h
    cases xs with
    | nil => exact .inr (.inr (.inr ⟨hx, rfl⟩))
    | cons x xs => exact .inr (.inr (.inl ⟨x, xs, hx, rfl⟩))

theorem stepE1_cases (r : Reply) (s : State) :
    stepE1 r s = s ∨ (r = .err ∧ stepE1 r s = raiseFault .siErr 0 s) ∨
    (∃ x xs, s.si = some (x :: xs) ∧ stepE1 r s = startSymbol x { s with si := some xs }) := by
  unfold stepE1
  cases h : askItem r s.si with
  | waiting => exact .inl rfl
  | err => exact .inr (.inl ⟨(askItem_eq_err.mp h).1, rfl⟩)
  | got a =>
    obtain ⟨x, xs⟩ := a
    exact .inr (.inr ⟨x, xs, (askItem_eq_got.mp h).2, rfl⟩)

theorem encLoop_cases (s : State) :
    (s.epos.toNat < (encEntry s).len.toNat ∧ encLoop s = goto .e2 s) ∨
    ((encEntry s).len.toNat ≤ s.epos.toNat ∧ encLoop s = goto .e0 s) := by
  unfold encLoop
  split
  · exact .inl ⟨‹_›, rfl⟩
  · exact .inr ⟨by omega, rfl⟩

theorem startSymbol_cases (x : Sym) (s : State) :
    ((ctGet s.ct x.toNat).valid = true ∧ startSymbol x s = encLoop { s with esym := x, epos := 0 }) ∨
    ((ctGet s.ct x.toNat).valid = false ∧
      startSymbol x s = raiseFault .noCode (x.setWidth 16) { s with esym := x, epos := 0 }) := by
  unfold startSymbol
  cases h : (ctGet s.ct x.toNat).valid with
  | true => exact .inl ⟨rfl, by simp [encEntry, h]⟩
  | false => exact .inr ⟨rfl, by simp [encEntry, h]⟩

theorem stepE2_cases (r : Reply) (s : State) :
    stepE2 r s = s ∨ (r = .err ∧ stepE2 r s = raiseFault .boErr 0 s) ∨
    (∃ bs, s.bo = some bs ∧ stepE2 r s = encLoop { s with bo := some (bs ++ [encBit s]), epos := s.epos + 1 }) := by
  unfold stepE2
  cases h : askPut r s.bo (encBit s) with
  | waiting => exact .inl rfl
  | err => exact .inr (.inl ⟨(askPut_eq_err.mp h).1, rfl⟩)
  | got ys =>
    obtain ⟨-, xs, hx, rfl⟩ := askPut_eq_got.mp h
    exact .inr (.inr ⟨xs, hx, rfl⟩)

theorem stepDNoTree_cases (r : Reply) (s : State) :
    stepDNoTree r s = s ∨ (r = .err ∧ stepDNoTree r s = raiseFault .biErr 0 s) ∨
    (∃ b bs, s.bi = some (b :: bs) ∧ stepDNoTree r s = raiseFault .noTreeBits 0 s) ∨
    (s.bi = some [] ∧ stepDNoTree r s = complete s) := by
  unfold stepDNoTree
  cases h : askMore r s.bi with
  | waiting => exact .inl rfl
  | err => exact .inr (.inl ⟨(askMore_eq_err.mp h).1, rfl⟩)
  | got b =>
    obtain ⟨-, xs, hx, rfl⟩ := askMore_eq_got.mp h
    cases xs with
    | nil => exact .inr (.inr (.inr ⟨hx, rfl⟩))
    | cons x xs => exact .inr (.inr (.inl ⟨x, xs, hx, rfl⟩))

theorem stepD0_cases (r : Reply) (s : State) :
    stepD0 r s = s ∨ (r = .err ∧ stepD0 r s = raiseFault .biErr 0 s) ∨
    (∃ b bs, s.bi = some (b :: bs) ∧ stepD0 r s = goto .d1 s) ∨
    (s.bi = some [] ∧ s.cur = s.root ∧ stepD0 r s = complete s) ∨
    (s.bi = some [] ∧ s.cur ≠ s.root ∧ stepD0 r s = raiseFault .truncated (s.cur.setWidth 16) s) := by
  unfold stepD0
  cases h : askMore r s.bi with
  | waiting => exact .inl rfl
  | err => exact .inr (.inl ⟨(askMore_eq_err.mp h).1, rfl⟩)
  | got b =>
    obtain ⟨-, xs, hx, rfl⟩ := askMore_eq_got.mp h
    cases xs with
    | nil =>
      by_cases hc : s.cur = s.root
      · exact .inr (.inr (.inr (.inl ⟨hx, hc, by simp [hc]⟩)))
      · exact .inr (.inr (.inr (.inr ⟨hx, hc, by simp [hc]⟩)))
    | cons x xs => exact .inr (.inr (.inl ⟨x, xs, hx, rfl⟩))

theorem stepD1_cases (r : Reply) (s : State) :
    stepD1 r s = .next s ∨ (r = .err ∧ stepD1 r s = .next (raiseFault .biErr 0 s)) ∨
    (∃ b bs, s.bi = some (b :: bs) ∧ stepD1 r s = decodeBit b { s with bi := some bs }) := by
  unfold stepD1
  cases h : askItem r s.bi with
  | waiting => exact .inl rfl
  | err => exact .inr (.inl ⟨(askItem_eq_err.mp h).1, rfl⟩)
  | got a =>
    obtain ⟨x, xs⟩ := a
    exact .inr (.inr ⟨x, xs, (askItem_eq_got.mp h).2, rfl⟩)

theorem decodeBit_cases (b : Bool) (s : State) :
    (rootIsLeaf s = true ∧ isRecord s.root.toNat = true ∧ decodeBit b s = .next (goto .d2 s)) ∨
    (rootIsLeaf s = false ∧ isRecord s.cur.toNat = true ∧ isRecord (nextNode b s).toNat = true ∧
      (nmGet s.nm (nextNode b s).toNat).isLeaf = true ∧
      decodeBit b s = .next (goto .d2 (setCur (nextNode b s) s))) ∨
    (rootIsLeaf s = false ∧ isRecord s.cur.toNat = true ∧ isRecord (nextNode b s).toNat = true ∧
      (nmGet s.nm (nextNode b s).toNat).isLeaf = false ∧
      decodeBit b s = .next (goto .d0 (setCur (nextNode b s) s))) ∨
    (decodeBit b s = .fault .noSuchNode ∧
      (rootIsLeaf s = true → isRecord s.root.toNat = false) ∧
      (rootIsLeaf s = false → isRecord s.cur.toNat = false ∨ isRecord (nextNode b s).toNat = false)) := by
  unfold decodeBit decodeBitLeaf decodeBitInner
  cases h1 : rootIsLeaf s <;> cases h2 : isRecord s.root.toNat <;> cases h3 : isRecord s.cur.toNat <;>
    cases h4 : isRecord (nextNode b s).toNat <;> cases h5 : (nmGet s.nm (nextNode b s).toNat).isLeaf <;> simp

theorem stepD2_cases (r : Reply) (s : State) :
    (stepD2 r s = .fault .noSuchNode ∧ isRecord (emitIndex s).toNat = false) ∨
    stepD2 r s = .next s ∨ (r = .err ∧ stepD2 r s = .next (raiseFault .soErr 0 s)) ∨
    (∃ xs, s.so = some xs ∧
      stepD2 r s = .next (goto .d0 (setCur s.root { s with so := some (xs ++ [(nmGet s.nm (emitIndex s).toNat).sym]) }))) := by
  unfold stepD2
  cases hr : isRecord (emitIndex s).toNat with
  | false => exact .inl ⟨by simp, rfl⟩
  | true =>
    simp only [Bool.not_true, Bool.false_eq_true, if_false]
    cases h : askPut r s.so (nmGet s.nm (emitIndex s).toNat).sym with
    | waiting => exact .inr (.inl rfl)
    | err => exact .inr (.inr (.inl ⟨(askPut_eq_err.mp h).1, rfl⟩))
    | got ys =>
      obtain ⟨-, xs, hx, rfl⟩ := askPut_eq_got.mp h
      exact .inr (.inr (.inr ⟨xs, hx, rfl⟩))

/-! ### Commands from their acceptance -/

theorem execDec_cases (s : State) :
    (s.ts = .openTree ∧ execDec s = .next (raiseFault .treeOpen 0 s)) ∨
    (s.ts = .noTree ∧ execDec s = .next (goto .dNoTree s)) ∨
    (s.ts = .finalTree ∧ execDec s = .next (goto .d0 (setCur s.root s))) := by
  unfold execDec
  cases s.ts <;> simp

theorem execGen_cases (s : State) :
    (s.ts = .openTree ∧ execGen s = .next (raiseFault .treeOpen 0 s)) ∨
    (s.ts = .noTree ∧ execGen s = .next (complete { s with ct := [] })) ∨
    (s.ts = .finalTree ∧ ∃ ct, codeTable s.nm s.root.toNat = .ok ct ∧ execGen s = .next (complete { s with ct := ct })) ∨
    (s.ts = .finalTree ∧ ∃ x, codeTable s.nm s.root.toNat = .error x ∧ execGen s = .fault x) := by
  unfold execGen
  cases s.ts <;> simp
  cases codeTable s.nm s.root.toNat <;> simp

theorem execFin_cases (idx : Nat) (s : State) :
    (∃ n, check s.nm idx = .ok n ∧ execFin idx s = .next (complete (finaliseTree idx n (reopenTree s)))) ∨
    (∃ x, check s.nm idx = .error x ∧
      execFin idx s = .next (raiseFault .treeMalformed (BitVec.ofNat 16 x) (reopenTree s))) := by
  unfold execFin
  cases check s.nm idx <;> simp

theorem execBuild_cases (s : State) :
    (∃ g, mergeAll (seed s.ft).pq.length (seed s.ft) = .done g ∧
      execBuild s = .next (finishBuild (seed s.ft).next g (clearForBuild s))) ∨
    (∃ g, mergeAll (seed s.ft).pq.length (seed s.ft) = .overflow g ∧
      execBuild s = .next (raiseFault .weightOvf (BitVec.ofNat 16 g.next) (withForest g (clearForBuild s)))) := by
  unfold execBuild
  cases h : mergeAll (seed s.ft).pq.length (seed s.ft) <;> simp [h]

theorem finishBuild_cases (n : Nat) (f : Forest) (s : State) :
    (∃ r, f.pq = [r] ∧ finishBuild n f s = complete (finaliseTree r n (withForest { f with pq := [] } s))) ∨
    ((∀ r, f.pq ≠ [r]) ∧ finishBuild n f s = complete (withForest f s)) := by
  unfold finishBuild
  split
  · exact .inl ⟨_, ‹_›, rfl⟩
  · rename_i h
    exact .inr ⟨fun r hr => h r hr, rfl⟩

/-! ### The host's accesses -/

theorem issue_cases (v : Word) (s : State) :
    (∃ i, decode v = .ok i ∧ issue v s = exec i (accept v s)) ∨
    ((∃ e, decode v = .error e) ∧ issue v s = .next (raiseFault .badCmd (v.extractLsb' 16 16) (accept v s))) := by
  unfold issue
  cases h : decode v with
  | ok i => exact .inl ⟨i, rfl, rfl⟩
  | error e => exact .inr ⟨⟨e, rfl⟩, rfl⟩

/-- A host read changes nothing but the host port's answer. -/
theorem hostRead_cases (addr : Addr) (s : State) :
    (readPerformed s.ph (regionOf addr) = true ∧
      hostRead addr s = answerHost (.data (regionWord s (regionOf addr))) s) ∨
    (readPerformed s.ph (regionOf addr) = false ∧ hostRead addr s = answerHost .refused s) := by
  unfold hostRead
  cases h : readPerformed s.ph (regionOf addr) <;> simp

/-- Everything a host write can do. -/
theorem hostWrite_cases (addr : Addr) (v : Word) (s : State) :
    (writePerformed s.ph v (regionOf addr) = false ∧ hostWrite addr v s = .next (answerHost .refused s)) ∨
    (regionOf addr = .cmd ∧ (s.ph = .idle ∨ (s.ph = .fault ∧ v = 1)) ∧
      hostWrite addr v s = issue v (answerHost .done s)) ∨
    (regionOf addr = .ctsel ∧ s.ph ≠ .busy ∧
      hostWrite addr v s = .next { answerHost .done s with ctsel := v.extractLsb' 0 8 }) ∨
    (∃ x, regionOf addr = .ft x ∧ s.ph = .idle ∧
      hostWrite addr v s = .next { answerHost .done s with ft := ftSet s.ft x v }) ∨
    (∃ i, (regionOf addr = .attr i ∨ regionOf addr = .weight i) ∧ s.ph = .idle ∧
      ∃ nd, hostWrite addr v s = .next (reopenTree { answerHost .done s with nm := nmSet s.nm i nd })) := by
  unfold hostWrite
  cases h : regionOf addr with
  | cmd =>
    cases hp : s.ph with
    | idle => exact .inr (.inl ⟨rfl, .inl rfl, by simp [writePerformed, writeRegion]⟩)
    | busy => exact .inl ⟨rfl, by simp [writePerformed]⟩
    | fault =>
      by_cases hv : v = 1
      · exact .inr (.inl ⟨rfl, .inr ⟨rfl, hv⟩, by simp [writePerformed, writeRegion, hv]⟩)
      · exact .inl ⟨by simp [writePerformed, show ¬v = 1#32 from hv], by simp [writePerformed, show ¬v = 1#32 from hv]⟩
  | ctsel =>
    by_cases hp : s.ph = .busy
    · exact .inl ⟨by simp [writePerformed, hp], by simp [writePerformed, hp]⟩
    · exact .inr (.inr (.inl ⟨rfl, hp, by simp [writePerformed, writeRegion, hp]⟩))
  | ft x =>
    by_cases hp : s.ph = .idle
    · exact .inr (.inr (.inr (.inl ⟨x, rfl, hp, by simp [writePerformed, writeRegion, hp]⟩)))
    · exact .inl ⟨by simp [writePerformed, hp], by simp [writePerformed, hp]⟩
  | attr i =>
    by_cases hp : s.ph = .idle
    · exact .inr (.inr (.inr (.inr ⟨i, .inl rfl, hp, _, by simp [writePerformed, writeRegion, hp]; rfl⟩)))
    · exact .inl ⟨by simp [writePerformed, hp], by simp [writePerformed, hp]⟩
  | weight i =>
    by_cases hp : s.ph = .idle
    · exact .inr (.inr (.inr (.inr ⟨i, .inr rfl, hp, _, by simp [writePerformed, writeRegion, hp]; rfl⟩)))
    · exact .inl ⟨by simp [writePerformed, hp], by simp [writePerformed, hp]⟩
  | status => exact .inl ⟨rfl, by simp [writePerformed]⟩
  | err => exact .inl ⟨rfl, by simp [writePerformed]⟩
  | tree => exact .inl ⟨rfl, by simp [writePerformed]⟩
  | cur => exact .inl ⟨rfl, by simp [writePerformed]⟩
  | ctlen => exact .inl ⟨rfl, by simp [writePerformed]⟩
  | ctbits j => exact .inl ⟨rfl, by simp [writePerformed]⟩
  | reserved => exact .inl ⟨rfl, by simp [writePerformed]⟩

/-! ### The address map -/

theorem registerAt_cases {a : Nat} (h : a < 0x010) :
    (a = 0 ∧ registerAt a = .cmd) ∨ (a = 1 ∧ registerAt a = .status) ∨ (a = 2 ∧ registerAt a = .err) ∨
    (a = 3 ∧ registerAt a = .tree) ∨ (a = 4 ∧ registerAt a = .cur) ∨ (a = 5 ∧ registerAt a = .ctsel) ∨
    (a = 6 ∧ registerAt a = .ctlen) ∨ (a = 7 ∧ registerAt a = .reserved) ∨
    (∃ j, j < 8 ∧ a = 8 + j ∧ registerAt a = .ctbits j) := by
  match a, h with
  | 0, _ => simp [registerAt]
  | 1, _ => simp [registerAt]
  | 2, _ => simp [registerAt]
  | 3, _ => simp [registerAt]
  | 4, _ => simp [registerAt]
  | 5, _ => simp [registerAt]
  | 6, _ => simp [registerAt]
  | 7, _ => simp [registerAt]
  | j + 8, h => exact .inr (.inr (.inr (.inr (.inr (.inr (.inr (.inr ⟨j, by omega, by omega, rfl⟩)))))))

/-- The address map, address by address (20_memory.md R29). -/
theorem regionAt_cases (a : Nat) :
    (a = 0 ∧ regionAt a = .cmd) ∨ (a = 1 ∧ regionAt a = .status) ∨ (a = 2 ∧ regionAt a = .err) ∨
    (a = 3 ∧ regionAt a = .tree) ∨ (a = 4 ∧ regionAt a = .cur) ∨ (a = 5 ∧ regionAt a = .ctsel) ∨
    (a = 6 ∧ regionAt a = .ctlen) ∨ (∃ j, j < 8 ∧ a = 8 + j ∧ regionAt a = .ctbits j) ∨
    (∃ x, x < 256 ∧ a = 0x100 + x ∧ regionAt a = .ft x) ∨
    (∃ i, i < 511 ∧ a = 0x400 + 2 * i ∧ regionAt a = .attr i) ∨
    (∃ i, i < 511 ∧ a = 0x401 + 2 * i ∧ regionAt a = .weight i) ∨
    ((a = 7 ∨ (0x010 ≤ a ∧ a ≤ 0x0FF) ∨ (0x200 ≤ a ∧ a ≤ 0x3FF) ∨ 0x7FE ≤ a) ∧ regionAt a = .reserved) := by
  by_cases h1 : a < 0x010
  · rw [show regionAt a = registerAt a from if_pos h1]
    rcases registerAt_cases h1 with h | h | h | h | h | h | h | h | h
    · exact .inl h
    · exact .inr (.inl h)
    · exact .inr (.inr (.inl h))
    · exact .inr (.inr (.inr (.inl h)))
    · exact .inr (.inr (.inr (.inr (.inl h))))
    · exact .inr (.inr (.inr (.inr (.inr (.inl h)))))
    · exact .inr (.inr (.inr (.inr (.inr (.inr (.inl h))))))
    · exact .inr (.inr (.inr (.inr (.inr (.inr (.inr (.inr (.inr (.inr (.inr ⟨.inl h.1, h.2⟩))))))))))
    · exact .inr (.inr (.inr (.inr (.inr (.inr (.inr (.inl h)))))))
  by_cases h2 : a < 0x100
  · exact .inr (.inr (.inr (.inr (.inr (.inr (.inr (.inr (.inr (.inr (.inr
      ⟨by omega, by rw [regionAt, if_neg h1, if_pos h2]⟩))))))))))
  by_cases h3 : a < 0x200
  · exact .inr (.inr (.inr (.inr (.inr (.inr (.inr (.inr (.inl
      ⟨a - 0x100, by omega, by omega, by rw [regionAt, if_neg h1, if_neg h2, if_pos h3]⟩))))))))
  by_cases h4 : a < 0x400
  · exact .inr (.inr (.inr (.inr (.inr (.inr (.inr (.inr (.inr (.inr (.inr
      ⟨by omega, by rw [regionAt, if_neg h1, if_neg h2, if_neg h3, if_pos h4]⟩))))))))))
  by_cases h5 : a < 0x7FE
  · have e : regionAt a = nodeWordAt a := by rw [regionAt, if_neg h1, if_neg h2, if_neg h3, if_neg h4, if_pos h5]
    rw [e, nodeWordAt]
    by_cases h6 : a % 2 = 0
    · exact .inr (.inr (.inr (.inr (.inr (.inr (.inr (.inr (.inr (.inl
        ⟨(a - 0x400) / 2, by omega, by omega, if_pos h6⟩)))))))))
    · exact .inr (.inr (.inr (.inr (.inr (.inr (.inr (.inr (.inr (.inr (.inl
        ⟨(a - 0x400) / 2, by omega, by omega, if_neg h6⟩))))))))))
  · exact .inr (.inr (.inr (.inr (.inr (.inr (.inr (.inr (.inr (.inr (.inr
      ⟨by omega, by rw [regionAt, if_neg h1, if_neg h2, if_neg h3, if_neg h4, if_neg h5]⟩))))))))))

theorem regionOf_ft_iff {addr : Addr} {x : Nat} : regionOf addr = .ft x ↔ x < 256 ∧ addr.toNat = 0x100 + x := by
  rw [regionOf]
  rcases regionAt_cases addr.toNat with ⟨h, e⟩ | ⟨h, e⟩ | ⟨h, e⟩ | ⟨h, e⟩ | ⟨h, e⟩ | ⟨h, e⟩ | ⟨h, e⟩ |
      ⟨k, hk, h, e⟩ | ⟨k, hk, h, e⟩ | ⟨k, hk, h, e⟩ | ⟨k, hk, h, e⟩ | ⟨h, e⟩ <;>
    rw [e] <;> simp only [reduceCtorEq, false_iff, Region.ft.injEq] <;> omega

theorem regionOf_attr_iff {addr : Addr} {i : Nat} : regionOf addr = .attr i ↔ i < 511 ∧ addr.toNat = 0x400 + 2 * i := by
  rw [regionOf]
  rcases regionAt_cases addr.toNat with ⟨h, e⟩ | ⟨h, e⟩ | ⟨h, e⟩ | ⟨h, e⟩ | ⟨h, e⟩ | ⟨h, e⟩ | ⟨h, e⟩ |
      ⟨k, hk, h, e⟩ | ⟨k, hk, h, e⟩ | ⟨k, hk, h, e⟩ | ⟨k, hk, h, e⟩ | ⟨h, e⟩ <;>
    rw [e] <;> simp only [reduceCtorEq, false_iff, Region.attr.injEq] <;> omega

theorem regionOf_weight_iff {addr : Addr} {i : Nat} : regionOf addr = .weight i ↔ i < 511 ∧ addr.toNat = 0x401 + 2 * i := by
  rw [regionOf]
  rcases regionAt_cases addr.toNat with ⟨h, e⟩ | ⟨h, e⟩ | ⟨h, e⟩ | ⟨h, e⟩ | ⟨h, e⟩ | ⟨h, e⟩ | ⟨h, e⟩ |
      ⟨k, hk, h, e⟩ | ⟨k, hk, h, e⟩ | ⟨k, hk, h, e⟩ | ⟨k, hk, h, e⟩ | ⟨h, e⟩ <;>
    rw [e] <;> simp only [reduceCtorEq, false_iff, Region.weight.injEq] <;> omega

theorem regionOf_ctbits_iff {addr : Addr} {j : Nat} : regionOf addr = .ctbits j ↔ j < 8 ∧ addr.toNat = 0x008 + j := by
  rw [regionOf]
  rcases regionAt_cases addr.toNat with ⟨h, e⟩ | ⟨h, e⟩ | ⟨h, e⟩ | ⟨h, e⟩ | ⟨h, e⟩ | ⟨h, e⟩ | ⟨h, e⟩ |
      ⟨k, hk, h, e⟩ | ⟨k, hk, h, e⟩ | ⟨k, hk, h, e⟩ | ⟨k, hk, h, e⟩ | ⟨h, e⟩ <;>
    rw [e] <;> simp only [reduceCtorEq, false_iff, Region.ctbits.injEq] <;> omega

theorem regionOf_cmd_iff {addr : Addr} : regionOf addr = .cmd ↔ addr.toNat = 0 := by
  rw [regionOf]
  rcases regionAt_cases addr.toNat with ⟨h, e⟩ | ⟨h, e⟩ | ⟨h, e⟩ | ⟨h, e⟩ | ⟨h, e⟩ | ⟨h, e⟩ | ⟨h, e⟩ |
      ⟨k, hk, h, e⟩ | ⟨k, hk, h, e⟩ | ⟨k, hk, h, e⟩ | ⟨k, hk, h, e⟩ | ⟨h, e⟩ <;>
    rw [e] <;> simp only [reduceCtorEq, false_iff, true_iff] <;> omega

/-- Which reads are refused, address by address (20_memory.md R31). -/
theorem readPerformed_eq_false {ph : Phase} {addr : Addr} :
    readPerformed ph (regionOf addr) = false ↔ ReadRefusedAt ph addr.toNat := by
  unfold ReadRefusedAt
  have hb : (ph = .busy ∧ addr.toNat ≠ 0x001 ∧ addr.toNat ≠ 0x002) ↔
      (ph = .busy ∧ ¬(addr.toNat = 0x001 ∨ addr.toNat = 0x002)) := by simp only [not_or, ne_eq]
  rw [hb, regionOf]
  rcases regionAt_cases addr.toNat with ⟨h, e⟩ | ⟨h, e⟩ | ⟨h, e⟩ | ⟨h, e⟩ | ⟨h, e⟩ | ⟨h, e⟩ | ⟨h, e⟩ |
      ⟨k, hk, h, e⟩ | ⟨k, hk, h, e⟩ | ⟨k, hk, h, e⟩ | ⟨k, hk, h, e⟩ | ⟨h, e⟩ <;>
    rw [e] <;> by_cases hp : ph = .busy <;>
    simp only [readPerformed, hp, ne_eq, not_true_eq_false, not_false_eq_true, decide_true, decide_false, true_and,
      false_and, or_false, Bool.true_eq_false, true_iff, false_iff] <;> omega

/-- Which writes are refused, address by address (20_memory.md R31). -/
theorem writePerformed_eq_false {ph : Phase} {v : Word} {addr : Addr} :
    writePerformed ph v (regionOf addr) = false ↔ WriteRefusedAt ph addr.toNat v := by
  unfold WriteRefusedAt
  rw [regionOf]
  rcases regionAt_cases addr.toNat with ⟨h, e⟩ | ⟨h, e⟩ | ⟨h, e⟩ | ⟨h, e⟩ | ⟨h, e⟩ | ⟨h, e⟩ | ⟨h, e⟩ |
      ⟨k, hk, h, e⟩ | ⟨k, hk, h, e⟩ | ⟨k, hk, h, e⟩ | ⟨k, hk, h, e⟩ | ⟨h, e⟩
  case inl => rw [e, h]; cases ph <;> simp [writePerformed]
  case inr.inr.inr.inr.inr.inl => rw [e, h]; cases ph <;> simp [writePerformed]
  all_goals
    rw [e]
    cases ph <;>
      simp only [writePerformed, ne_eq, reduceCtorEq, decide_true, decide_false,
        true_and, false_and, or_false, or_true, Bool.true_eq_false, true_iff, false_iff] <;> omega

/-! ### Fault entry -/

/-- The fields of the fault record (10_state.md R20). -/
theorem errWord_toNat (c : Cause) (stage : BitVec 8) (info : BitVec 16) :
    (errWord c stage info).toNat = c.code.toNat + 256 * stage.toNat + 65536 * info.toNat := by
  unfold errWord
  rw [toNat_concat, toNat_concat]
  omega

/-- A fault record is never 0 (10_state.md R20). -/
theorem errWord_ne_zero (c : Cause) (stage : BitVec 8) (info : BitVec 16) : errWord c stage info ≠ 0 := by
  intro h
  have h' := congrArg BitVec.toNat h
  rw [errWord_toNat] at h'
  have hc : 0 < c.code.toNat := by cases c <;> decide
  simp at h'
  omega

theorem opcodeField_eq (v : Word) : opcodeField v = BitVec.ofNat 8 v.toNat := by
  apply BitVec.eq_of_toNat_eq
  simp [opcodeField_toNat]

/-! ### Decoding -/

/-- The word CLR is the only word that decodes to CLR. -/
theorem decode_one : decode 1 = .ok .clr := rfl

/-! ### The step -/

/-- Everything a step can do: an engine turn with nothing planned, or the oldest planned event. -/
theorem step_cases (s : State) :
    (s.plan = [] ∧ step s = engineTurn .answer s) ∨
    (∃ e rest, s.plan = e :: rest ∧ step s = happen e { s with plan := rest }) := by
  unfold step
  cases s.plan with
  | nil => exact .inl ⟨rfl, rfl⟩
  | cons e rest => exact .inr ⟨e, rest, rfl, rfl⟩

theorem step_of_plan {e : Event} {rest : List Event} (h : s.plan = e :: rest) :
    step s = happen e { s with plan := rest } := by
  unfold step; rw [h]

theorem step_of_noPlan (h : s.plan = []) : step s = engineTurn .answer s := by
  unfold step; rw [h]

theorem engineTurn_of_busy (h : s.ph = .busy) : engineTurn r s = microStep r s := by
  unfold engineTurn; rw [h]

theorem engineTurn_of_notBusy (h : s.ph ≠ .busy) : engineTurn r s = .next s := by
  unfold engineTurn
  cases hp : s.ph <;> simp_all

theorem attach_cases (t s : State) :
    (s.ph = .busy ∧ attach t s = .refused .attachWhileBusy) ∨ (s.ph ≠ .busy ∧ attach t s = .next t) := by
  unfold attach
  cases h : s.ph <;> simp

/-! ### Invariants -/

/-- What a tree and a table satisfy depends on seven fields and on leaving FAULT only to where it holds. -/
theorem TreeConsistent.congr (h : TreeConsistent s) (hp : t.ph ≠ .fault → s.ph ≠ .fault) (e1 : t.ts = s.ts)
    (e2 : t.nm = s.nm) (e3 : t.root = s.root) (e4 : t.nsym = s.nsym) (e5 : t.ct = s.ct) (e6 : t.pq = s.pq) :
    TreeConsistent t := by
  obtain ⟨h1, h2, h3, h4, h5⟩ := h
  constructor
  · intro a b
    rw [e2]
    exact h1 (hp a) (e1 ▸ b)
  · rw [e1, e3, e4]; exact h2
  · rw [e1, e2, e3, e4]; exact h3
  · rw [e1, e2, e3, e5]; exact h4
  · intro a
    rw [e6]
    exact h5 (hp a)

/-- At rest nothing is claimed of the points. -/
theorem PointConsistent.of_rest (h : t.pt = .rest) : PointConsistent t := by
  constructor <;> simp [h]

/-- Between two steps only a BUSY engine is at a point. -/
theorem RunConsistent.rest (h : RunConsistent s) (hb : s.ph ≠ .busy) : s.pt = .rest :=
  Decidable.byContradiction fun hc => hb (h.pointIffBusy.mpr hc)

/-! ### Runs -/

theorem run_succ {s t : State} (k : Nat) (h : step s = .next t) :
    Host.Core.run Sys2Proof.core (k + 1) s = Host.Core.run Sys2Proof.core k t := by
  have h' : Sys2Proof.core.step s = .next t := h
  exact (Host.Core.run.eq_2 Sys2Proof.core s k).trans (by rw [h'])

theorem run_succ_inv {s u : State} (k : Nat) (h : Host.Core.run Sys2Proof.core (k + 1) s = .next u) :
    ∃ t, step s = .next t ∧ Host.Core.run Sys2Proof.core k t = .next u := by
  replace h := (Host.Core.run.eq_2 Sys2Proof.core s k).symm.trans h
  have e : Sys2Proof.core.step s = step s := rfl
  cases hs : step s with
  | next t => rw [hs] at e; rw [e] at h; exact ⟨t, rfl, h⟩
  | fault x => rw [hs] at e; rw [e] at h; cases h
  | refused x => rw [hs] at e; rw [e] at h; cases h

theorem Reaches.refl (s : State) : Reaches s s := ⟨0, rfl⟩

theorem Reaches.head {u : State} (h : step s = .next t) (h' : Reaches t u) : Reaches s u := by
  obtain ⟨k, hk⟩ := h'
  exact ⟨k + 1, by rw [run_succ k h]; exact hk⟩

theorem Reaches.trans {u : State} (h : Reaches s t) (h' : Reaches t u) : Reaches s u := by
  obtain ⟨k, hk⟩ := h
  induction k generalizing s with
  | zero => cases hk; exact h'
  | succ k ih =>
    obtain ⟨v, hv, hk⟩ := run_succ_inv k hk
    exact Reaches.head hv (ih hk)

theorem Reaches.step (h : Machine.step s = .next t) : Reaches s t := Reaches.head h (Reaches.refl t)

end Sys2Proof.Machine
end

