-- ==== Sys2Proof/Tests/Slice0.lean ====
section
/-! SUPPORT. The model's own tests: expected values are transcribed from 95_test_vectors.md and from the examples of
the rules, by hand; and, for every obligation with hypotheses, a state and operands that meet them. -/

namespace Sys2Proof.Tests

open Sys2Proof Sys2Proof.Machine

/-- The state a step or a meaning answers, if it answers one. -/
def got : Host.Outcome State Fault Refusal → Option State
  | .next s => some s
  | .fault _ => none
  | .refused _ => none

/-- A state with a plan. -/
def planned (s : State) (es : List Event) : State := { s with plan := es }

/-- Reset with a command running at a point of its rule. -/
def running (s : State) (op : BitVec 8) (pt : Point) : State := { s with ph := .busy, op := op, pt := pt }

/-- A state in FAULT with an ERR word. -/
def faulted (w : Word) : State := { State.reset with ph := .fault, err := w }

/-! ## Well-formedness -/

theorem test_wellFormed_fin_511 : (Instr.fin 511).wellFormed = true := by decide
theorem test_wellFormed_refuses_fin_512 : (Instr.fin 512).wellFormed = false := by decide

/-! ## Decoding: words written out bit by bit from 30_encoding.md R44 to R46 -/

theorem test_decode_clr : decode 0b00000000000000000000000000000001 = .ok .clr := by rfl
theorem test_decode_freq : decode 0b00000000000000000000000000000010 = .ok .freq := by rfl
theorem test_decode_build : decode 0b00000000000000000000000000000011 = .ok .build := by rfl
theorem test_decode_gen : decode 0b00000000000000000000000000000100 = .ok .gen := by rfl
theorem test_decode_enc : decode 0b00000000000000000000000000000101 = .ok .enc := by rfl
theorem test_decode_dec : decode 0b00000000000000000000000000000110 = .ok .dec := by rfl
/-- IDX is bits 24:16: 0000000 101010011 00000000 00000111 is FIN 339. -/
theorem test_decode_fin : decode 0b00000001010100110000000000000111 = .ok (.fin 339) := by rfl
/-- 95_test_vectors.md 2.9: a set must-be-zero bit and a reserved opcode. -/
theorem test_decode_rejects : decode 0x00010001 = .error .mustBeZero ∧ decode 0x00000008 = .error .reservedOpcode := by
  exact ⟨rfl, rfl⟩
theorem test_table_word : decodeTableWord 32 0x01FF0007 = some (.fin 511) := by rfl
theorem test_withFetchWord : (got (step (State.reset.withFetchWord 32 0x00000005))).map (fun s => (s.pt, s.op)) =
    some (.e0, 0x05) := by decide +kernel

/-! ## Records -/

theorem test_reset_memory_canonical : Memory.wf 0 State.reset.ft ∧ Memory.wf Node.zero State.reset.nm ∧
    Memory.wf CodeEntry.invalid State.reset.ct := by decide
/-- R48: the leaf for 'a' and the inner node with left child 3 and right child 2. -/
theorem test_attr_words : attrWord (leafNode 0x61 5) = 0x00000161 ∧ attrWord (innerNode 3 2 2) = 0x10140600 := by decide
/-- R49: "1101" and "10" in the window. -/
theorem test_code_words : ctlenWord (codeOf [true, true, false, true]) = 0x80000004 ∧
    ctbitsWord (codeOf [true, true, false, true]) 0 = 0x0000000B ∧ ctbitsWord (codeOf [true, false]) 0 = 0x00000001 := by
  decide

/-! ## The commands -/

/-- R85: from FAULT with `ERR = 0x00630520`, CLR gives `STATUS = 0x00000102` and `ERR = 0`. -/
theorem test_clr_from_fault : (got (step (planned (faulted 0x00630520) [.write 0 1]))).map (fun s => (statusWord s, s.err)) =
    some (0x00000102, 0) := by decide +kernel

/-- R55: FREQ starts from a fresh table. -/
theorem test_freq_clears : (got (exec .freq { State.reset with ft := [(0x61, 5)] })).map (fun s => (s.ft, s.pt)) =
    some ([], .f0) := by decide
/-- R55, R90: a count at `W_MAX` overflows; the symbol is gone from SI and the count is left. -/
theorem test_freq_count_ovf :
    (got (step { running State.reset 0x02 .f1 with si := some [0x61, 0x62], ft := [(0x61, 0xFFFFFFFF)] })).map
      (fun s => (s.err, s.si, s.ft)) = some (0x00610210, some [0x62], [(0x61, 0xFFFFFFFF)]) := by decide +kernel

/-- The counts of "abracadabra" (R55). -/
def abraCounts : Memory Word := [(0x61, 5), (0x62, 2), (0x63, 1), (0x64, 1), (0x72, 2)]

/-- The records of the tree of "abracadabra", their ATTR and WEIGHT words as 95_test_vectors.md 2.1 lists them. -/
def abraWords : List (Word × Word) :=
  [(0x00000161, 5), (0x00000162, 2), (0x00000163, 1), (0x00000164, 1), (0x00000172, 2), (0x10140600, 2),
    (0x10240A00, 4), (0x10340200, 6), (0x103C0000, 11)]

/-- The state those words make once the tree is finalised. -/
def abra : State :=
  { State.reset with
    nm := (List.range 9).zip (abraWords.map fun w => { withAttr Node.zero w.1 with weight := w.2 })
    ts := .finalTree
    root := 8
    nsym := 5 }

/-- 95_test_vectors.md 2.1: the nine records, `TREE = 0x00050008`. -/
theorem test_build_abracadabra : (got (exec .build { State.reset with ft := abraCounts })).map
    (fun s => ((List.range 9).map fun i => (attrWord (nmGet s.nm i), (nmGet s.nm i).weight), treeWord s)) =
    some (abraWords, 0x00050008) := by decide +kernel
/-- R63: two counts that pass `W_MAX`; the new node would have had index 2. -/
theorem test_build_weight_ovf : (got (exec .build { State.reset with op := 0x03, ft := [(0x61, 0xFFFFFFFF), (0x62, 1)] })).map
    (fun s => (s.err, s.ph)) = some (0x00020311, .fault) := by decide +kernel

/-- R68: the codes of "abracadabra". -/
theorem test_gen_abracadabra : (got (exec .gen abra)).map (fun s => [0x61, 0x62, 0x72, 0x64, 0x63].map (codeBits s.ct)) =
    some [[false], [true, false], [true, true, true], [true, true, false, false], [true, true, false, true]] := by
  decide +kernel
/-- R70: the single symbol gets the code "0". -/
theorem test_gen_single_leaf : (got (exec .gen { State.reset with nm := [(0, leafNode 0x61 4)], ts := .finalTree, nsym := 1 })).map
    (fun s => s.ct) = some [(0x61, codeOf [false])] := by decide +kernel

/-- R74: E2 sends `bits[EPOS]` and goes on to the next bit. -/
theorem test_enc_bit : (got (step { running State.reset 0x05 .e2 with
      ct := [(0x62, codeOf [true, false])], esym := 0x62, epos := 0, bo := some [false] })).map
    (fun s => (s.bo, s.epos, s.pt)) = some (some [false, true], 1, .e2) := by decide +kernel
/-- R92: ENC meeting 'c' with no code gives `ERR = 0x00630520`. -/
theorem test_enc_no_code : (got (step { running State.reset 0x05 .e1 with si := some [0x63, 0x61] })).map
    (fun s => (s.err, s.si)) = some (0x00630520, some [0x61]) := by decide +kernel

/-- R79: at the root of the tree of "abracadabra" a 0 bit leads to the leaf 'a'. -/
theorem test_dec_bit : (got (step { running abra 0x06 .d1 with cur := 8, bi := some [false, true] })).map
    (fun s => (s.cur, s.pt, s.bi)) = some (0, .d2, some [true]) := by decide +kernel
/-- 95_test_vectors.md 1.8: the bits run out at node 5: `ERR = 0x00050630`. -/
theorem test_dec_truncated : (got (step { running abra 0x06 .d0 with cur := 5, bi := some [] })).map
    (fun s => (s.err, s.cur)) = some (0x00050630, 5) := by decide +kernel

/-- R65: the three-node tree passes: `STATUS = 0x00000722`, `TREE = 0x00020002`. -/
theorem test_fin_pair : (got (step (planned { State.reset with
      nm := [(0, leafNode 0x61 1), (1, leafNode 0x62 1), (2, innerNode 0 1 2)], ts := .openTree } [.write 0 0x00020007]))).map
    (fun s => (statusWord s, treeWord s)) = some (0x00000722, 0x00020002) := by decide +kernel
/-- R65: `idx = 511` names no record. -/
theorem test_fin_511 : (got (exec (.fin 511) { State.reset with op := 0x07 })).map (fun s => (s.err, s.ts)) =
    some (0x01FF0712, .openTree) := by decide +kernel

/-! ## States that meet the obligations' hypotheses -/

/-- Three leaves at 0, 1, 2; node 3 over 0 and 1; node 4, the root, over 2 and 3; codes 'c' 0, 'a' 10, 'b' 11. -/
def grove : State :=
  { State.reset with
    nm := [(0, leafNode 0x61 1), (1, leafNode 0x62 1), (2, leafNode 0x63 2), (3, innerNode 0 1 2), (4, innerNode 2 3 4)]
    ts := .finalTree
    root := 4
    nsym := 3
    ct := [(0x61, codeOf [true, false]), (0x62, codeOf [true, true]), (0x63, codeOf [false])] }

/-- One leaf. -/
def solo : State := { State.reset with nm := [(0, leafNode 0x61 4)], ts := .finalTree, nsym := 1 }

/-- A running command over the three-leaf tree. -/
def inGrove (op : BitVec 8) (pt : Point) : State := { grove with ph := .busy, op := op, pt := pt }

theorem grove_check : check grove.nm grove.root.toNat = .ok grove.nsym.toNat := by rfl
theorem grove_table : codeTable grove.nm grove.root.toNat = .ok grove.ct := by rfl
theorem solo_check : check solo.nm solo.root.toNat = .ok 1 := by rfl

theorem grove_arrays : ArraysCanonical grove := by constructor <;> decide

theorem grove_tree : TreeConsistent grove :=
  ⟨fun _ h => (nomatch h), fun h => absurd rfl h, fun _ => grove_check, .inr ⟨rfl, grove_table⟩, fun _ => rfl⟩

theorem reset_consistent : Consistent State.reset := by
  refine ⟨by constructor <;> decide, by constructor <;> decide, ?_, PointConsistent.of_rest rfl⟩
  exact ⟨fun _ _ => rfl, fun _ => ⟨rfl, rfl⟩, fun h => (nomatch h), .inl rfl, fun _ => rfl⟩

theorem grove_consistent : Consistent grove :=
  ⟨grove_arrays, by constructor <;> decide, grove_tree, PointConsistent.of_rest rfl⟩

/-- A running command over the three-leaf tree is consistent when its run state and its points are. -/
theorem inGrove_consistent {s : State} (hft : s.ft = []) (hnm : s.nm = grove.nm) (hct : s.ct = grove.ct)
    (hts : s.ts = .finalTree) (hroot : s.root = 4) (hnsym : s.nsym = 3) (hpq : s.pq = []) (_ : s.ph = .busy)
    (hr : RunConsistent s) (hp : PointConsistent s) : Consistent s := by
  refine ⟨⟨?_, ?_, ?_, ?_, ?_, ?_⟩, hr, grove_tree.congr (fun _ => by decide) hts hnm hroot hnsym hct hpq, hp⟩
  · rw [hft]; exact grove_arrays.ftWf
  · rw [hft]; exact grove_arrays.ftWithin
  · rw [hnm]; exact grove_arrays.nmWf
  · rw [hnm]; exact grove_arrays.nmWithin
  · rw [hct]; exact grove_arrays.ctWf
  · rw [hct]; exact grove_arrays.ctWithin

theorem grove_codes : CodesConsistent grove.ct := by
  intro x
  by_cases h1 : x = 0x61
  · subst h1; exact .inr (by decide)
  by_cases h2 : x = 0x62
  · subst h2; exact .inr (by decide)
  by_cases h3 : x = 0x63
  · subst h3; exact .inr (by decide)
  refine .inl ?_
  simp [ctGet, grove, Memory.get, h1, h2, h3]

/-! ### Encoding and the host port -/

theorem witness_wellFormed : (Instr.fin 0).wellFormed = true ∧ (Instr.fin 511).wellFormed = true := by decide
theorem witness_word_decodes : decode 0x01FF0007 = .ok (.fin 511) := by rfl

/-- An illegal word (the first and the last reserved opcode, a must-be-zero bit) next, in each run state. -/
theorem witness_illegal_idle : (∃ e, decode 0x00000000 = .error e) ∧ (planned State.reset [.write 0 0]).ph = .idle ∧
    (planned State.reset [.write 0 0]).plan = .write 0 0x00000000 :: [] := ⟨⟨_, rfl⟩, rfl, rfl⟩
theorem witness_illegal_fault : (∃ e, decode 0x000000FF = .error e) ∧ (planned (faulted 0x50) [.write 0 0xFF]).ph ≠ .idle ∧
    (planned (faulted 0x50) [.write 0 0xFF]).plan = .write 0 0x000000FF :: [] := ⟨⟨_, rfl⟩, by decide, rfl⟩
theorem witness_illegal_busy : (∃ e, decode 0x00000106 = .error e) ∧
    (planned (running State.reset 2 .f0) [.write 0 0x106]).ph ≠ .idle ∧
    (planned (running State.reset 2 .f0) [.write 0 0x106]).plan = .write 0 0x00000106 :: [] := ⟨⟨_, rfl⟩, by decide, rfl⟩

theorem witness_step_runs_idle : (planned State.reset [.write 0 0x01FF0007]).plan = .write 0 0x01FF0007 :: [] ∧
    (planned State.reset [.write 0 0x01FF0007]).ph = .idle ∧ decode 0x01FF0007 = .ok (.fin 511) := ⟨rfl, rfl, rfl⟩
theorem witness_step_runs_fault : (planned (faulted 0x11) [.write 0 1]).plan = .write 0 0x00000001 :: [] ∧
    (planned (faulted 0x11) [.write 0 1]).ph = .fault ∧ decode 0x00000001 = .ok .clr := ⟨rfl, rfl, rfl⟩

/-- A read is the next event of some state, whatever its address. -/
theorem witness_read_planned (addr : Addr) : (planned State.reset [.read addr]).plan = .read addr :: [] := rfl

/-- Refused reads at both ends of every refused range, and one that only BUSY refuses. -/
theorem witness_reads_refused : (∀ a ∈ [0x000, 0x007, 0x010, 0x0FF, 0x200, 0x3FF, 0x7FE, 0xFFF], ReadRefusedAt .idle a) ∧
    ReadRefusedAt .busy 0x003 ∧ ReadRefusedAt .busy 0x7FD := by unfold ReadRefusedAt; decide

/-- Performed reads at both ends of every performed range, in each run state. -/
theorem witness_reads_performed :
    (∀ a ∈ [0x001, 0x002, 0x003, 0x006, 0x008, 0x00F, 0x100, 0x1FF, 0x400, 0x401, 0x7FC, 0x7FD], ¬ReadRefusedAt .fault a) ∧
    ¬ReadRefusedAt .busy 0x001 ∧ ¬ReadRefusedAt .busy 0x002 := by unfold ReadRefusedAt; decide

/-- Refused writes at both ends of every refused range. -/
theorem witness_writes_refused :
    (∀ a ∈ [0x001, 0x004, 0x006, 0x007, 0x008, 0x0FF, 0x200, 0x3FF, 0x7FE, 0xFFF], WriteRefusedAt .idle a 0) ∧
    WriteRefusedAt .fault 0x000 2 ∧ WriteRefusedAt .fault 0x100 1 ∧ WriteRefusedAt .busy 0x000 1 ∧
    (planned State.reset [.write 0x7FE 0]).plan = .write 0x7FE 0 :: [] := by unfold WriteRefusedAt; decide

/-- Performed writes at both ends of every performed range: the premises of each clause on a write. -/
theorem witness_writes_performed :
    ArraysCanonical (planned State.reset [.write 0x7FD 5]) ∧
    (planned State.reset [.write 0x7FD 5]).plan = .write 0x7FD 5 :: [] ∧ State.reset.ph = .idle ∧
    (¬WriteRefusedAt .idle 0x000 0 ∧ (0 : Addr).toNat = 0x000) ∧
    (¬WriteRefusedAt .fault 0x000 1 ∧ (faulted 0x11).ph = .fault) ∧
    (¬WriteRefusedAt .fault 0x005 9 ∧ (0x005 : Addr).toNat = 0x005) ∧
    (¬WriteRefusedAt .idle 0x100 9 ∧ (0x100 : Addr).toNat = 0x100 + 0) ∧
    (¬WriteRefusedAt .idle 0x1FF 9 ∧ (0x1FF : Addr).toNat = 0x100 + 255) ∧
    (¬WriteRefusedAt .idle 0x400 9 ∧ (0x400 : Addr).toNat = 0x400 + 2 * 0) ∧
    (¬WriteRefusedAt .idle 0x7FC 9 ∧ (0x7FC : Addr).toNat = 0x400 + 2 * 510) ∧
    (¬WriteRefusedAt .idle 0x401 9 ∧ (0x401 : Addr).toNat = 0x401 + 2 * 0) ∧
    (¬WriteRefusedAt .idle 0x7FD 9 ∧ (0x7FD : Addr).toNat = 0x401 + 2 * 510) := by
  unfold WriteRefusedAt
  refine ⟨by constructor <;> decide, rfl, rfl, by decide, ⟨by decide, rfl⟩, by decide, by decide, by decide, by decide,
    by decide, by decide, by decide⟩

/-- A completed BUILD (30_encoding.md R48's last clause). -/
theorem witness_build_answers : ∃ t, exec .build State.reset = .next t := by
  rcases execBuild_cases State.reset with ⟨_, _, h⟩ | ⟨_, _, h⟩ <;> exact ⟨_, h⟩

/-! ### Reset, faults, the run state, invariants -/

theorem witness_reset_planned : (planned (running State.reset 2 .f0) [.rst]).plan = .rst :: [] := rfl

theorem witness_clr_planned : (planned State.reset [.write 0 1]).plan = .write 0 0x00000001 :: [] ∧
    (planned State.reset [.write 0 1]).ph ≠ .busy ∧ (planned (running State.reset 2 .f0) [.write 0 1]).ph = .busy ∧
    (planned (faulted 0x11) [.write 0 2]).ph = .fault ∧ (planned (faulted 0x11) [.write 0 2]).plan = .write 0 2 :: [] ∧
    (2 : Word) ≠ 0x00000001 := by decide

theorem witness_fault_steps : (planned (faulted 0x11) [.write 0x005 7]).ph = .fault ∧
    step (planned (faulted 0x11) [.write 0x005 7]) = .next { faulted 0x11 with ctsel := 7, resp := .done } := ⟨rfl, rfl⟩

/-- A consistent state with a step into FAULT: BAD_CMD at issue. -/
theorem witness_step_faults : RunConsistent (planned State.reset [.write 0 0x00420000]) ∧
    (planned State.reset [.write 0 0x00420000]).ph ≠ .fault ∧
    ∃ t, step (planned State.reset [.write 0 0x00420000]) = .next t ∧ t.ph = .fault ∧ t.err = 0x00420050 := by
  refine ⟨by constructor <;> decide, by decide, _, rfl, rfl, by decide⟩

/-- A step out of IDLE, a step out of BUSY and a step out of FAULT. -/
theorem witness_transitions : (∃ t, step (planned State.reset [.write 0 2]) = .next t ∧ t.ph = .busy) ∧
    (∃ t, step { running State.reset 0x02 .f0 with si := some [] } = .next t ∧ t.ph = .idle) ∧
    (∃ t, step (planned (faulted 0x11) [.rst]) = .next t ∧ t.ph = .idle) := ⟨⟨_, rfl, rfl⟩, ⟨_, rfl, rfl⟩, ⟨_, rfl, rfl⟩⟩

/-- The premises of the writers' rule on a step that changes FT. -/
theorem witness_writer : RunConsistent (planned State.reset [.write 0x1FF 3]) ∧
    step (planned State.reset [.write 0x1FF 3]) = .next { State.reset with ft := [(255, 3)], resp := .done } :=
  ⟨by constructor <;> decide, rfl⟩

/-- A step from a consistent state in the middle of a DEC. -/
theorem witness_consistent_step : ∃ s t, Consistent s ∧ step s = .next t ∧ t.cur = 3 := by
  refine ⟨{ inGrove 0x06 .d1 with cur := 4, bi := some [true, false] }, _,
    inGrove_consistent rfl rfl rfl rfl rfl rfl rfl rfl (by constructor <;> decide) ?_, rfl, rfl⟩
  exact ⟨fun h => by simp [inGrove] at h, fun _ => ⟨_, _, rfl⟩, fun h => (nomatch h), fun h => (nomatch h), fun _ => rfl,
    fun _ => ⟨fun h => absurd (show rootIsLeaf grove = true from h) (by decide), fun _ => ⟨⟨[], rfl⟩, rfl⟩⟩, fun h => (nomatch h)⟩

theorem witness_attach_idle : AttachesOnlyWhenNotBusy (planned State.reset [.attachBO]) :=
  fun h => (nomatch h)
theorem witness_attach_busy : ∃ s, Consistent s ∧ ¬AttachesOnlyWhenNotBusy s := by
  refine ⟨{ inGrove 0x02 .f0 with plan := [.attachBO] },
    inGrove_consistent rfl rfl rfl rfl rfl rfl rfl rfl (by constructor <;> decide) ?_, fun h => ?_⟩
  · constructor <;> simp [inGrove]
  · exact (h rfl _ _ rfl).2.1 rfl

/-- Consistent idle states: no tree, and a finalised tree with its table. -/
theorem witness_idle : (Consistent State.reset ∧ State.reset.ph = .idle ∧ State.reset.ts = .noTree) ∧
    (Consistent grove ∧ grove.ph = .idle ∧ grove.ts = .finalTree) :=
  ⟨⟨reset_consistent, rfl, rfl⟩, grove_consistent, rfl, rfl⟩

/-! ### FREQ -/

theorem witness_freq : (inGrove 0x02 .f0).ph = .busy ∧ (inGrove 0x02 .f0).plan = [] ∧
    ∀ x : Sym, List.count x [0x61, 0x62, 0x61] ≤ Config.wMax :=
  ⟨rfl, rfl, fun x => le_trans List.count_le_length (by decide)⟩

/-- The premises of the four clauses on FREQ's micro-steps, the count below and at `W_MAX`. -/
theorem witness_freq_points :
    ArraysCanonical { running State.reset 0x02 .f1 with ft := [(0x61, 0xFFFFFFFF), (0x62, 0xFFFFFFFE)] } ∧
    (ftGet [(0x61, 0xFFFFFFFF), (0x62, 0xFFFFFFFE)] (0x61 : Sym).toNat).toNat = Config.wMax ∧
    (ftGet [(0x61, 0xFFFFFFFF), (0x62, 0xFFFFFFFE)] (0x62 : Sym).toNat).toNat < Config.wMax := by
  refine ⟨by constructor <;> decide, by decide, by decide⟩

theorem witness_freq_orders : [0x61, 0x62].Perm [0x62, (0x61 : Sym)] ∧
    ∃ t u t' u', exec .freq { running State.reset 0x02 .rest with si := some [0x61, 0x62] } = .next t ∧ Reaches t u ∧
      u.ph = .idle ∧ exec .freq { running State.reset 0x02 .rest with si := some [0x62, 0x61] } = .next t' ∧
      Reaches t' u' ∧ u'.ph = .idle :=
  ⟨by decide, _, _, _, _, rfl, ⟨5, rfl⟩, rfl, rfl, ⟨5, rfl⟩, rfl⟩

/-! ### BUILD and FIN -/

theorem witness_queue : ([3, 1] : List Nat) ≠ [] := by decide

/-- The sum of two counts just past `W_MAX`, and exactly at it. -/
theorem witness_build_overflow :
    2 ≤ (presentSymbols [(0x61, 0xFFFFFFFF), (0x62, 1)]).length ∧ Config.wMax < totalCount [(0x61, 0xFFFFFFFF), (0x62, 1)] := by
  decide +kernel
theorem witness_build_fits :
    ¬(2 ≤ (presentSymbols [(0x61, 0xFFFFFFFE), (0x62, 1)]).length ∧
      Config.wMax < totalCount [(0x61, 0xFFFFFFFE), (0x62, 1)]) ∧
    totalCount [(0x61, 0xFFFFFFFE), (0x62, 1)] = Config.wMax := by decide +kernel

/-- No present symbol, one, and two. -/
theorem witness_build_sizes : presentSymbols [] = [] ∧ presentSymbols [(255, 0xFFFFFFFF)] = [255] ∧
    presentSymbols [(0, 1), (255, 1)] = [0, 255] ∧ totalCount [(0, 1), (255, 1)] ≤ Config.wMax := by decide +kernel

theorem witness_same_counts : ({ State.reset with cur := 3 } : State).ft = State.reset.ft := rfl

theorem witness_fin_accepts : 4 < 512 ∧ check grove.nm 4 = .ok 3 := ⟨by decide, rfl⟩
theorem witness_fin_reports : 511 < 512 ∧ check grove.nm 511 = .error 511 ∧ check ([] : Memory Node) 510 = .error 510 :=
  ⟨by decide, rfl, rfl⟩

/-! ### GEN -/

theorem witness_gen_states : State.reset.ts = .noTree ∧ ({ State.reset with ts := .openTree } : State).ts = .openTree :=
  ⟨rfl, rfl⟩
theorem witness_gen_leaf : solo.ts = .finalTree ∧ WellFormedTree solo.nm solo.root.toNat ∧ rootIsLeaf solo = true :=
  ⟨rfl, ⟨_, solo_check⟩, rfl⟩
theorem witness_gen_inner : grove.ts = .finalTree ∧ WellFormedTree grove.nm grove.root.toNat ∧ rootIsLeaf grove = false :=
  ⟨rfl, ⟨_, grove_check⟩, rfl⟩
theorem witness_gen_two_codes : ∃ t, exec .gen grove = .next t ∧ HasCode t.ct 0x61 ∧ HasCode t.ct 0x62 ∧
    (0x61 : Sym) ≠ 0x62 := ⟨_, rfl, rfl, rfl, by decide⟩
theorem witness_gen_count : grove.ts = .finalTree ∧ check grove.nm grove.root.toNat = .ok 3 := ⟨rfl, grove_check⟩

/-! ### ENC -/

theorem witness_enc : ∃ s : State, s.ph = .busy ∧ s.plan = [] ∧ s.si = some [0x61, 0x63] ∧ s.bo = some [] ∧
    CodesConsistent s.ct ∧ ∀ x ∈ [(0x61 : Sym), 0x63], HasCode s.ct x :=
  ⟨{ inGrove 0x05 .rest with si := some [0x61, 0x63], bo := some [] }, rfl, rfl, rfl, rfl, grove_codes,
    by simp only [HasCode]; decide⟩

theorem witness_enc_missing : ∃ s : State, s.ph = .busy ∧ s.plan = [] ∧ s.si = some ([0x61] ++ 0x64 :: [0x61]) ∧
    s.bo = some [] ∧ CodesConsistent s.ct ∧ (∀ y ∈ [(0x61 : Sym)], HasCode s.ct y) ∧ ¬HasCode s.ct 0x64 :=
  ⟨{ inGrove 0x05 .rest with si := some [0x61, 0x64, 0x61], bo := some [] }, rfl, rfl, rfl, rfl, grove_codes,
    by simp only [HasCode]; decide, by simp only [HasCode]; decide⟩

theorem witness_enc_nothing : ∃ s : State, s.ph = .busy ∧ s.plan = [] ∧ s.si = some [] :=
  ⟨{ inGrove 0x05 .rest with si := some [] }, rfl, rfl, rfl⟩

/-- The premises of ENC's micro-steps: a first and a last bit of a code, a symbol with and one without a code. -/
theorem witness_enc_points : CodesConsistent grove.ct ∧
    (inGrove 0x05 .e2).ph = .busy ∧ (0 : BitVec 8).toNat < (codeBits grove.ct 0x61).length ∧
    (1 : BitVec 8).toNat < (codeBits grove.ct 0x61).length ∧ (codeBits grove.ct 0x61).length = 2 ∧
    HasCode grove.ct 0x61 ∧ ¬HasCode grove.ct 0x64 :=
  ⟨grove_codes, rfl, by decide, by decide, by decide, rfl, by simp only [HasCode]; decide⟩

theorem witness_enc_turn : ∃ s t : State, RunConsistent s ∧ s.ph = .busy ∧ s.op = 0x05 ∧ engineTurn .answer s = .next t :=
  ⟨{ inGrove 0x05 .e0 with si := some [0x61] }, _, by constructor <;> decide, rfl, rfl, rfl⟩

/-! ### DEC -/

theorem witness_dec_states : ({ State.reset with ts := .openTree } : State).ts = .openTree ∧ State.reset.ts = .noTree ∧
    grove.ts = .finalTree := ⟨rfl, rfl, rfl⟩

/-- Between bits at the root and at the inner node 3; about to read a bit; at the leaf 2. -/
theorem witness_dec_points (cur : Idx) (bits : List Bool) (h : cur = 4 ∨ cur = 3) :
    Consistent { inGrove 0x06 .d0 with cur := cur, bi := some bits, plan := [.turn .answer] } := by
  refine inGrove_consistent rfl rfl rfl rfl rfl rfl rfl rfl (by constructor <;> simp [inGrove, grove, State.reset]) ?_
  refine ⟨fun h => by simp [inGrove] at h, fun h => (nomatch h), fun h => (nomatch h), fun h => (nomatch h), fun _ => rfl,
    fun _ => ⟨fun h => absurd (show rootIsLeaf grove = true from h) (by decide), fun _ => ?_⟩, fun h => (nomatch h)⟩
  rcases h with rfl | rfl
  · exact ⟨⟨[], rfl⟩, rfl⟩
  · exact ⟨⟨[true], rfl⟩, rfl⟩

theorem witness_dec_bit : Consistent { inGrove 0x06 .d1 with cur := 4, bi := some [true], plan := [.turn .answer] } ∧
    rootIsLeaf (inGrove 0x06 .d1) = false := by
  refine ⟨inGrove_consistent rfl rfl rfl rfl rfl rfl rfl rfl (by constructor <;> decide) ?_, rfl⟩
  exact ⟨fun h => by simp [inGrove] at h, fun _ => ⟨_, _, rfl⟩, fun h => (nomatch h), fun h => (nomatch h), fun _ => rfl,
    fun _ => ⟨fun h => absurd (show rootIsLeaf grove = true from h) (by decide), fun _ => ⟨⟨[], rfl⟩, rfl⟩⟩, fun h => (nomatch h)⟩

theorem witness_dec_symbol : Consistent { inGrove 0x06 .d2 with cur := 2, so := some [], plan := [.turn .answer] } := by
  refine inGrove_consistent rfl rfl rfl rfl rfl rfl rfl rfl (by constructor <;> decide) ?_
  exact ⟨fun h => by simp [inGrove] at h, fun h => (nomatch h), fun h => (nomatch h), fun h => (nomatch h), fun _ => rfl,
    fun h => by simp [inGrove] at h, fun _ => ⟨fun h => absurd (show rootIsLeaf grove = true from h) (by decide), fun _ => ⟨⟨[false], rfl⟩, rfl⟩⟩⟩

theorem witness_dec_solo : ∃ s : State, s.ph = .busy ∧ s.plan = [] ∧ s.ts = .finalTree ∧
    WellFormedTree s.nm s.root.toNat ∧ rootIsLeaf s = true ∧ s.bi = some [false, true] ∧ s.so = some [] :=
  ⟨{ running solo 0x06 .rest with bi := some [false, true], so := some [] }, rfl, rfl, rfl, ⟨_, solo_check⟩, rfl, rfl, rfl⟩

/-- No tree, with no bits and with some. -/
theorem witness_dec_noTree : (∃ s : State, s.ph = .busy ∧ s.plan = [] ∧ s.ts = .noTree ∧ s.bi = some []) ∧
    ∃ s : State, s.ph = .busy ∧ s.plan = [] ∧ s.ts = .noTree ∧ s.bi = some (true :: []) :=
  ⟨⟨{ running State.reset 0x06 .rest with bi := some [] }, rfl, rfl, rfl, rfl⟩,
    { running State.reset 0x06 .rest with bi := some [true] }, rfl, rfl, rfl, rfl⟩

theorem witness_dec_inverts : ∃ s : State, s.ph = .busy ∧ s.plan = [] ∧ s.ts = .finalTree ∧
    WellFormedTree s.nm s.root.toNat ∧ codeTable s.nm s.root.toNat = .ok grove.ct ∧
    (∀ x ∈ [(0x62 : Sym), 0x63], HasCode grove.ct x) ∧ s.bi = some (encodedBits grove.ct [0x62, 0x63]) ∧ s.so = some [] :=
  ⟨{ inGrove 0x06 .rest with bi := some [true, true, false], so := some [] }, rfl, rfl, rfl, ⟨_, grove_check⟩, grove_table,
    by simp only [HasCode]; decide, rfl, rfl⟩

/-- The stream "11" of 'b' followed by "1", the start of a code, which ends at node 3. -/
theorem witness_dec_cut : ∃ s : State, s.ph = .busy ∧ s.plan = [] ∧ s.ts = .finalTree ∧
    WellFormedTree s.nm s.root.toNat ∧ rootIsLeaf s = false ∧ codeTable s.nm s.root.toNat = .ok grove.ct ∧
    (∀ x ∈ [(0x62 : Sym)], HasCode grove.ct x) ∧ [true] ≠ [] ∧ follow s.nm s.root.toNat [true] = some 3 ∧
    (nmGet s.nm 3).isLeaf = false ∧ s.bi = some (encodedBits grove.ct [0x62] ++ [true]) ∧ s.so = some [] :=
  ⟨{ inGrove 0x06 .rest with bi := some [true, true, true], so := some [] }, rfl, rfl, rfl, ⟨_, grove_check⟩, rfl, grove_table,
    by simp only [HasCode]; decide, by decide, rfl, rfl, rfl, rfl⟩

theorem witness_dec_turn : ∃ s t : State, RunConsistent s ∧ s.ph = .busy ∧ s.op = 0x06 ∧ engineTurn .answer s = .next t :=
  ⟨{ inGrove 0x06 .d0 with bi := some [true] }, _, by constructor <;> decide, rfl, rfl, rfl⟩

/-! ### The streams, frames and whole runs -/

/-- A consistent state at each point where a source is asked first, and at ENC's and DEC's sinks; the port attached
or not. -/
theorem witness_waiting_sources (si : Option (List Sym)) : Consistent { inGrove 0x02 .f0 with si := si } ∧
    Consistent { inGrove 0x05 .e0 with si := si } := by
  refine ⟨inGrove_consistent rfl rfl rfl rfl rfl rfl rfl rfl (by constructor <;> simp [inGrove, grove, State.reset]) ?_,
    inGrove_consistent rfl rfl rfl rfl rfl rfl rfl rfl (by constructor <;> simp [inGrove, grove, State.reset]) ?_⟩ <;>
    constructor <;> simp [inGrove]

theorem witness_waiting_reads : Consistent { inGrove 0x02 .f1 with si := some [0x61] } ∧
    Consistent { inGrove 0x05 .e1 with si := some [0x61] } := by
  refine ⟨inGrove_consistent rfl rfl rfl rfl rfl rfl rfl rfl (by constructor <;> decide) ?_,
    inGrove_consistent rfl rfl rfl rfl rfl rfl rfl rfl (by constructor <;> decide) ?_⟩ <;>
    constructor <;> simp [inGrove]

theorem witness_waiting_bitSink (bo : Option (List Bool)) :
    Consistent { inGrove 0x05 .e2 with esym := 0x61, epos := 1, bo := bo } := by
  refine inGrove_consistent rfl rfl rfl rfl rfl rfl rfl rfl (by constructor <;> simp [inGrove, grove, State.reset]) ?_
  exact ⟨fun h => by simp [inGrove] at h, fun h => (nomatch h), fun _ => by
    show (ctGet grove.ct 0x61).valid = true ∧ (1 : BitVec 8).toNat < (ctGet grove.ct 0x61).len.toNat
    decide, fun h => (nomatch h),
    fun h => by simp [inGrove] at h, fun h => by simp [inGrove] at h, fun h => (nomatch h)⟩

theorem witness_waiting_noTree (bi : Option (List Bool)) : Consistent { running State.reset 0x06 .dNoTree with bi := bi } := by
  have a := reset_consistent.arrays
  refine ⟨⟨a.1, a.2, a.3, a.4, a.5, a.6⟩, by constructor <;> simp [running, State.reset],
    reset_consistent.tree.congr (fun _ => by decide) rfl rfl rfl rfl rfl rfl, ?_⟩
  constructor <;> simp [running, State.reset]

theorem witness_waiting_symbolSink (so : Option (List Sym)) : Consistent { inGrove 0x06 .d2 with cur := 2, so := so } := by
  refine inGrove_consistent rfl rfl rfl rfl rfl rfl rfl rfl (by constructor <;> simp [inGrove, grove, State.reset]) ?_
  exact ⟨fun h => by simp [inGrove] at h, fun h => (nomatch h), fun h => (nomatch h), fun h => (nomatch h), fun _ => rfl,
    fun h => by simp [inGrove] at h, fun _ => ⟨fun h => absurd (show rootIsLeaf grove = true from h) (by decide), fun _ => ⟨⟨[false], rfl⟩, rfl⟩⟩⟩

/-- Each command answers a next state somewhere. -/
theorem witness_commands_answer : (∃ t, exec .freq State.reset = .next t) ∧ (∃ t, exec .build State.reset = .next t) ∧
    (∃ t, exec .gen grove = .next t) ∧ (∃ t, exec .enc State.reset = .next t) ∧ (∃ t, exec .dec grove = .next t) ∧
    (∃ t, exec (.fin 4) grove = .next t) ∧ (∃ t, exec .clr grove = .next t) :=
  ⟨⟨_, rfl⟩, witness_build_answers, ⟨_, rfl⟩, ⟨_, rfl⟩, ⟨_, rfl⟩, ⟨_, rfl⟩, ⟨_, rfl⟩⟩

/-- A walk that fails below its root: node 1, the right child, carries no symbol (c4). -/
theorem witness_fin_reports_below : check [(0, leafNode 0x61 1), (2, innerNode 0 1 1)] 2 = .error 1 := rfl

theorem witness_freq_turn : ∃ s t : State, RunConsistent s ∧ s.ph = .busy ∧ s.op = 0x02 ∧ engineTurn .answer s = .next t :=
  ⟨{ inGrove 0x02 .f0 with si := some [0x61] }, _, by constructor <;> decide, rfl, rfl, rfl⟩

theorem witness_attached_run : ∃ s : State, Consistent s ∧ s.ph = .busy ∧ s.plan = [] ∧ s.si ≠ none ∧ s.bo ≠ none ∧
    s.bi ≠ none ∧ s.so ≠ none := by
  refine ⟨{ inGrove 0x05 .e0 with si := some [0x61, 0x62], bo := some [], bi := some [true], so := some [] },
    inGrove_consistent rfl rfl rfl rfl rfl rfl rfl rfl (by constructor <;> decide) ?_, rfl, rfl, by decide, by decide,
    by decide, by decide⟩
  constructor <;> simp [inGrove]

theorem witness_round_trip : Consistent State.reset ∧ State.reset.ph = .idle ∧
    ([0x61, 0x62, 0x61] : List Sym).length ≤ Config.wMax ∧ ([] : List Sym).length ≤ Config.wMax :=
  ⟨reset_consistent, rfl, by decide, by decide⟩

end Sys2Proof.Tests
end

section
/-! PROOF. What one step can do, said once as inductive relations with the guards of every case: the commands from
their acceptance, the micro-steps of a running command, and the step. The invariants and the frames of the state are
case analyses of these relations. -/

namespace Sys2Proof.Machine

/-! ### The commands -/

/-- What a command makes of the state `s` at its acceptance (45_control.md R88). -/
inductive CommandTo (s : State) : Instr → State → Prop where
  | clr : CommandTo s .clr (complete { blockReset s with op := 0x01 })
  | freq : CommandTo s .freq (goto .f0 { s with ft := [] })
  | buildTree {g : Forest} {r : Nat} (hm : mergeAll (seed s.ft).pq.length (seed s.ft) = .done g) (hq : g.pq = [r]) :
      CommandTo s .build
        (complete (finaliseTree r (seed s.ft).next (withForest { g with pq := [] } (clearForBuild s))))
  | buildNone {g : Forest} (hm : mergeAll (seed s.ft).pq.length (seed s.ft) = .done g) (hq : ∀ r, g.pq ≠ [r]) :
      CommandTo s .build (complete (withForest g (clearForBuild s)))
  | buildOverflow {g : Forest} (hm : mergeAll (seed s.ft).pq.length (seed s.ft) = .overflow g) :
      CommandTo s .build (raiseFault .weightOvf (BitVec.ofNat 16 g.next) (withForest g (clearForBuild s)))
  | genOpen (ht : s.ts = .openTree) : CommandTo s .gen (raiseFault .treeOpen 0 s)
  | genNone (ht : s.ts = .noTree) : CommandTo s .gen (complete { s with ct := [] })
  | genTree {ct : Memory CodeEntry} (ht : s.ts = .finalTree) (hc : codeTable s.nm s.root.toNat = .ok ct) :
      CommandTo s .gen (complete { s with ct := ct })
  | enc : CommandTo s .enc (goto .e0 s)
  | decOpen (ht : s.ts = .openTree) : CommandTo s .dec (raiseFault .treeOpen 0 s)
  | decNone (ht : s.ts = .noTree) : CommandTo s .dec (goto .dNoTree s)
  | decTree (ht : s.ts = .finalTree) : CommandTo s .dec (goto .d0 (setCur s.root s))
  | finTree {idx n : Nat} (hc : check s.nm idx = .ok n) :
      CommandTo s (.fin idx) (complete (finaliseTree idx n (reopenTree s)))
  | finMalformed {idx x : Nat} (hc : check s.nm idx = .error x) :
      CommandTo s (.fin idx) (raiseFault .treeMalformed (BitVec.ofNat 16 x) (reopenTree s))

/-- BUILD's three ends. -/
theorem execBuild_to {s t : State} (h : execBuild s = .next t) : CommandTo s .build t := by
  rcases execBuild_cases s with ⟨g, hm, e⟩ | ⟨g, hm, e⟩
  · rcases finishBuild_cases (seed s.ft).next g (clearForBuild s) with ⟨r, hq, e'⟩ | ⟨hq, e'⟩
    · rw [e, e'] at h
      cases h
      exact .buildTree hm hq
    · rw [e, e'] at h
      cases h
      exact .buildNone hm hq
  · rw [e] at h
    cases h
    exact .buildOverflow hm

theorem execGen_to {s t : State} (h : execGen s = .next t) : CommandTo s .gen t := by
  rcases execGen_cases s with ⟨ht, e⟩ | ⟨ht, e⟩ | ⟨ht, ct, hc, e⟩ | ⟨-, x, -, e⟩ <;> rw [e] at h <;> cases h
  · exact .genOpen ht
  · exact .genNone ht
  · exact .genTree ht hc

theorem execDec_to {s t : State} (h : execDec s = .next t) : CommandTo s .dec t := by
  rcases execDec_cases s with ⟨ht, e⟩ | ⟨ht, e⟩ | ⟨ht, e⟩ <;> rw [e] at h <;> cases h
  · exact .decOpen ht
  · exact .decNone ht
  · exact .decTree ht

theorem execFin_to {idx : Nat} {s t : State} (h : execFin idx s = .next t) : CommandTo s (.fin idx) t := by
  rcases execFin_cases idx s with ⟨n, hc, e⟩ | ⟨x, hc, e⟩ <;> rw [e] at h <;> cases h
  · exact .finTree hc
  · exact .finMalformed hc

/-- Every answer of a command is one of the cases of `CommandTo`. -/
theorem exec_to {i : Instr} {s t : State} (h : exec i s = .next t) : CommandTo s i t := by
  cases i with
  | clr => cases h; exact .clr
  | freq => cases h; exact .freq
  | build => exact execBuild_to h
  | gen => exact execGen_to h
  | enc => cases h; exact .enc
  | dec => exact execDec_to h
  | fin idx => exact execFin_to h

/-! ### The micro-steps -/

/-- What a micro-step makes of the state `s` of a running command (40_freq.md R56, 43_encoder.md R74, 44_decoder.md
R79, R82). -/
inductive MicroTo (s : State) : State → Prop where
  | waits : MicroTo s s
  | siErr (hp : s.pt = .f0 ∨ s.pt = .f1 ∨ s.pt = .e0 ∨ s.pt = .e1) : MicroTo s (raiseFault .siErr 0 s)
  | boErr (hp : s.pt = .e2) : MicroTo s (raiseFault .boErr 0 s)
  | biErr (hp : s.pt = .dNoTree ∨ s.pt = .d0 ∨ s.pt = .d1) : MicroTo s (raiseFault .biErr 0 s)
  | soErr (hp : s.pt = .d2) : MicroTo s (raiseFault .soErr 0 s)
  | inputEnds (hp : s.pt = .f0 ∨ s.pt = .e0) (hi : s.si = some []) : MicroTo s (complete s)
  | moreToCount {x : Sym} {xs : List Sym} (hp : s.pt = .f0) (hi : s.si = some (x :: xs)) : MicroTo s (goto .f1 s)
  | countOverflows {x : Sym} {xs : List Sym} (hp : s.pt = .f1) (hi : s.si = some (x :: xs))
      (hc : (ftGet s.ft x.toNat).toNat = Config.wMax) :
      MicroTo s (raiseFault .countOvf (x.setWidth 16) { s with si := some xs })
  | counts {x : Sym} {xs : List Sym} (hp : s.pt = .f1) (hi : s.si = some (x :: xs))
      (hc : (ftGet s.ft x.toNat).toNat < Config.wMax) :
      MicroTo s (goto .f0 { s with si := some xs, ft := ftSet s.ft x.toNat (ftGet s.ft x.toNat + 1) })
  | moreToSend {x : Sym} {xs : List Sym} (hp : s.pt = .e0) (hi : s.si = some (x :: xs)) : MicroTo s (goto .e1 s)
  | noCode {x : Sym} {xs : List Sym} (hp : s.pt = .e1) (hi : s.si = some (x :: xs))
      (hv : (ctGet s.ct x.toNat).valid = false) :
      MicroTo s (raiseFault .noCode (x.setWidth 16) { s with si := some xs, esym := x, epos := 0 })
  | startsCode {x : Sym} {xs : List Sym} (hp : s.pt = .e1) (hi : s.si = some (x :: xs))
      (hv : (ctGet s.ct x.toNat).valid = true) (hl : 0 < (ctGet s.ct x.toNat).len.toNat) :
      MicroTo s (goto .e2 { s with si := some xs, esym := x, epos := 0 })
  | emptyCode {x : Sym} {xs : List Sym} (hp : s.pt = .e1) (hi : s.si = some (x :: xs))
      (hv : (ctGet s.ct x.toNat).valid = true) (hl : (ctGet s.ct x.toNat).len.toNat = 0) :
      MicroTo s (goto .e0 { s with si := some xs, esym := x, epos := 0 })
  | sendsBit {bs : List Bool} (hp : s.pt = .e2) (ho : s.bo = some bs)
      (hl : (s.epos + 1).toNat < (encEntry s).len.toNat) :
      MicroTo s (goto .e2 { s with bo := some (bs ++ [encBit s]), epos := s.epos + 1 })
  | sendsLastBit {bs : List Bool} (hp : s.pt = .e2) (ho : s.bo = some bs)
      (hl : (encEntry s).len.toNat ≤ (s.epos + 1).toNat) :
      MicroTo s (goto .e0 { s with bo := some (bs ++ [encBit s]), epos := s.epos + 1 })
  | bitsWithoutTree {b : Bool} {bs : List Bool} (hp : s.pt = .dNoTree) (hi : s.bi = some (b :: bs)) :
      MicroTo s (raiseFault .noTreeBits 0 s)
  | noBits (hp : s.pt = .dNoTree) (hi : s.bi = some []) : MicroTo s (complete s)
  | moreBits {b : Bool} {bs : List Bool} (hp : s.pt = .d0) (hi : s.bi = some (b :: bs)) : MicroTo s (goto .d1 s)
  | bitsEnd (hp : s.pt = .d0) (hi : s.bi = some []) (hc : s.cur = s.root) : MicroTo s (complete s)
  | truncated (hp : s.pt = .d0) (hi : s.bi = some []) (hc : s.cur ≠ s.root) :
      MicroTo s (raiseFault .truncated (s.cur.setWidth 16) s)
  | bitAtLeafRoot {b : Bool} {bs : List Bool} (hp : s.pt = .d1) (hi : s.bi = some (b :: bs))
      (hr : rootIsLeaf s = true) : MicroTo s (goto .d2 { s with bi := some bs })
  | bitToLeaf {b : Bool} {bs : List Bool} (hp : s.pt = .d1) (hi : s.bi = some (b :: bs))
      (hr : rootIsLeaf s = false) (hl : (nmGet s.nm (nextNode b s).toNat).isLeaf = true) :
      MicroTo s (goto .d2 (setCur (nextNode b s) { s with bi := some bs }))
  | bitToInner {b : Bool} {bs : List Bool} (hp : s.pt = .d1) (hi : s.bi = some (b :: bs))
      (hr : rootIsLeaf s = false) (hl : (nmGet s.nm (nextNode b s).toNat).isLeaf = false) :
      MicroTo s (goto .d0 (setCur (nextNode b s) { s with bi := some bs }))
  | givesSymbol {xs : List Sym} (hp : s.pt = .d2) (ho : s.so = some xs) :
      MicroTo s (goto .d0 (setCur s.root { s with so := some (xs ++ [(nmGet s.nm (emitIndex s).toNat).sym]) }))

variable {r : Reply} {s : State}

theorem stepF0_to (hp : s.pt = .f0) : MicroTo s (stepF0 r s) := by
  rcases stepF0_cases r s with e | ⟨-, e⟩ | ⟨x, xs, hi, e⟩ | ⟨hi, e⟩ <;> rw [e]
  · exact .waits
  · exact .siErr (.inl hp)
  · exact .moreToCount hp hi
  · exact .inputEnds (.inl hp) hi

theorem stepF1_to (hp : s.pt = .f1) : MicroTo s (stepF1 r s) := by
  rcases stepF1_cases r s with e | ⟨-, e⟩ | ⟨x, xs, hi, e⟩ <;> rw [e]
  · exact .waits
  · exact .siErr (.inr (.inl hp))
  · rcases countSymbol_cases x { s with si := some xs } with ⟨hc, e'⟩ | ⟨hc, e'⟩ <;> rw [e']
    · exact .countOverflows hp hi hc
    · exact .counts hp hi hc

theorem stepE0_to (hp : s.pt = .e0) : MicroTo s (stepE0 r s) := by
  rcases stepE0_cases r s with e | ⟨-, e⟩ | ⟨x, xs, hi, e⟩ | ⟨hi, e⟩ <;> rw [e]
  · exact .waits
  · exact .siErr (.inr (.inr (.inl hp)))
  · exact .moreToSend hp hi
  · exact .inputEnds (.inr hp) hi

theorem stepE1_to (hp : s.pt = .e1) : MicroTo s (stepE1 r s) := by
  rcases stepE1_cases r s with e | ⟨-, e⟩ | ⟨x, xs, hi, e⟩ <;> rw [e]
  · exact .waits
  · exact .siErr (.inr (.inr (.inr hp)))
  · rcases startSymbol_cases x { s with si := some xs } with ⟨hv, e'⟩ | ⟨hv, e'⟩ <;> rw [e']
    · rcases encLoop_cases { s with si := some xs, esym := x, epos := 0 } with ⟨hl, e'⟩ | ⟨hl, e'⟩ <;> rw [e']
      · exact .startsCode hp hi hv hl
      · exact .emptyCode hp hi hv (Nat.le_zero.mp hl)
    · exact .noCode hp hi hv

theorem stepE2_to (hp : s.pt = .e2) : MicroTo s (stepE2 r s) := by
  rcases stepE2_cases r s with e | ⟨-, e⟩ | ⟨bs, ho, e⟩ <;> rw [e]
  · exact .waits
  · exact .boErr hp
  · rcases encLoop_cases { s with bo := some (bs ++ [encBit s]), epos := s.epos + 1 } with ⟨hl, e'⟩ | ⟨hl, e'⟩ <;>
      rw [e']
    · exact .sendsBit hp ho hl
    · exact .sendsLastBit hp ho hl

theorem stepDNoTree_to (hp : s.pt = .dNoTree) : MicroTo s (stepDNoTree r s) := by
  rcases stepDNoTree_cases r s with e | ⟨-, e⟩ | ⟨b, bs, hi, e⟩ | ⟨hi, e⟩ <;> rw [e]
  · exact .waits
  · exact .biErr (.inl hp)
  · exact .bitsWithoutTree hp hi
  · exact .noBits hp hi

theorem stepD0_to (hp : s.pt = .d0) : MicroTo s (stepD0 r s) := by
  rcases stepD0_cases r s with e | ⟨-, e⟩ | ⟨b, bs, hi, e⟩ | ⟨hi, hc, e⟩ | ⟨hi, hc, e⟩ <;> rw [e]
  · exact .waits
  · exact .biErr (.inr (.inl hp))
  · exact .moreBits hp hi
  · exact .bitsEnd hp hi hc
  · exact .truncated hp hi hc

theorem stepD1_to {t : State} (hp : s.pt = .d1) (h : stepD1 r s = .next t) : MicroTo s t := by
  rcases stepD1_cases r s with e | ⟨-, e⟩ | ⟨b, bs, hi, e⟩ <;> rw [e] at h
  · cases h; exact .waits
  · cases h; exact .biErr (.inr (.inr hp))
  · rcases decodeBit_cases b { s with bi := some bs } with
      ⟨hr, -, e'⟩ | ⟨hr, -, -, hl, e'⟩ | ⟨hr, -, -, hl, e'⟩ | ⟨e', -⟩ <;> rw [e'] at h <;> cases h
    · exact .bitAtLeafRoot hp hi hr
    · exact .bitToLeaf hp hi hr hl
    · exact .bitToInner hp hi hr hl

theorem stepD2_to {t : State} (hp : s.pt = .d2) (h : stepD2 r s = .next t) : MicroTo s t := by
  rcases stepD2_cases r s with ⟨e, -⟩ | e | ⟨-, e⟩ | ⟨xs, ho, e⟩ <;> rw [e] at h <;> cases h
  · exact .waits
  · exact .soErr hp
  · exact .givesSymbol hp ho

/-- Every answer of a micro-step is one of the cases of `MicroTo`. -/
theorem microStep_to {t : State} (h : microStep r s = .next t) : MicroTo s t := by
  unfold microStep at h
  split at h
  case h_1 => cases h
  case h_2 hp => cases h; exact stepF0_to hp
  case h_3 hp => cases h; exact stepF1_to hp
  case h_4 hp => cases h; exact stepE0_to hp
  case h_5 hp => cases h; exact stepE1_to hp
  case h_6 hp => cases h; exact stepE2_to hp
  case h_7 hp => cases h; exact stepDNoTree_to hp
  case h_8 hp => cases h; exact stepD0_to hp
  case h_9 hp => exact stepD1_to hp h
  case h_10 hp => exact stepD2_to hp h

/-! ### The step -/

/-- The state with its oldest planned event taken. -/
def taken (s : State) : State := { s with plan := s.plan.tail }

theorem taken_of_plan {s : State} {e : Event} {rest : List Event} (hp : s.plan = e :: rest) :
    taken s = { s with plan := rest } := by
  rw [taken, hp, List.tail_cons]

theorem taken_of_noPlan {s : State} (hp : s.plan = []) : taken s = s := by
  rw [taken, hp, List.tail_nil, ← hp]

/-- What a step makes of the state `s` (00_scope.md R8). -/
inductive StepTo (s : State) : State → Prop where
  | reads {addr : Addr} {rest : List Event} (hp : s.plan = .read addr :: rest)
      (hr : readPerformed s.ph (regionOf addr) = true) :
      StepTo s (answerHost (.data (regionWord (taken s) (regionOf addr))) (taken s))
  | readRefused {addr : Addr} {rest : List Event} (hp : s.plan = .read addr :: rest)
      (hr : readPerformed s.ph (regionOf addr) = false) : StepTo s (answerHost .refused (taken s))
  | writeRefused {addr : Addr} {v : Word} {rest : List Event} (hp : s.plan = .write addr v :: rest)
      (hr : writePerformed s.ph v (regionOf addr) = false) : StepTo s (answerHost .refused (taken s))
  | badCommand {v : Word} {rest : List Event} {e : Illegal} (hp : s.plan = .write 0 v :: rest) (hi : s.ph = .idle)
      (hd : decode v = .error e) :
      StepTo s (raiseFault .badCmd (v.extractLsb' 16 16) (accept v (answerHost .done (taken s))))
  | command {v : Word} {rest : List Event} {i : Instr} {t : State} (hp : s.plan = .write 0 v :: rest)
      (hi : s.ph = .idle ∨ (s.ph = .fault ∧ v = 1)) (hd : decode v = .ok i)
      (hc : CommandTo (accept v (answerHost .done (taken s))) i t) : StepTo s t
  | writeCtsel {addr : Addr} {v : Word} {rest : List Event} (hp : s.plan = .write addr v :: rest)
      (hb : s.ph ≠ .busy) (ha : addr.toNat = 0x005) :
      StepTo s { answerHost .done (taken s) with ctsel := v.extractLsb' 0 8 }
  | writeFt {addr : Addr} {v : Word} {rest : List Event} {x : Nat} (hp : s.plan = .write addr v :: rest)
      (hi : s.ph = .idle) (hx : x < 256) (ha : addr.toNat = 0x100 + x) :
      StepTo s { answerHost .done (taken s) with ft := ftSet s.ft x v }
  | writeNm {addr : Addr} {v : Word} {rest : List Event} {i : Nat} (nd : Node) (hp : s.plan = .write addr v :: rest)
      (hi : s.ph = .idle) (hx : i < 511) (ha : addr.toNat = 0x400 + 2 * i ∨ addr.toNat = 0x401 + 2 * i) :
      StepTo s (reopenTree { answerHost .done (taken s) with nm := nmSet s.nm i nd })
  | attachSI {xs : List Sym} {rest : List Event} (hp : s.plan = .attachSI xs :: rest) (hb : s.ph ≠ .busy) :
      StepTo s { taken s with si := some xs }
  | attachBO {rest : List Event} (hp : s.plan = .attachBO :: rest) (hb : s.ph ≠ .busy) :
      StepTo s { taken s with bo := some [] }
  | attachBI {bs : List Bool} {rest : List Event} (hp : s.plan = .attachBI bs :: rest) (hb : s.ph ≠ .busy) :
      StepTo s { taken s with bi := some bs }
  | attachSO {rest : List Event} (hp : s.plan = .attachSO :: rest) (hb : s.ph ≠ .busy) :
      StepTo s { taken s with so := some [] }
  | reset {rest : List Event} (hp : s.plan = .rst :: rest) : StepTo s (applyReset (taken s))
  | idles (hb : s.ph ≠ .busy) : StepTo s (taken s)
  | runs {t : State} (hb : s.ph = .busy) (hm : MicroTo (taken s) t) : StepTo s t

/-- A turn of the engine. -/
theorem engineTurn_to {t : State} (h : engineTurn r (taken s) = .next t) : StepTo s t := by
  by_cases hb : (taken s).ph = .busy
  · rw [engineTurn_of_busy hb] at h
    exact .runs hb (microStep_to h)
  · rw [engineTurn_of_notBusy hb] at h
    cases h
    exact .idles hb

theorem regionOf_ctsel_iff {addr : Addr} : regionOf addr = .ctsel ↔ addr.toNat = 0x005 := by
  rw [regionOf]
  rcases regionAt_cases addr.toNat with ⟨h, e⟩ | ⟨h, e⟩ | ⟨h, e⟩ | ⟨h, e⟩ | ⟨h, e⟩ | ⟨h, e⟩ | ⟨h, e⟩ |
      ⟨k, hk, h, e⟩ | ⟨k, hk, h, e⟩ | ⟨k, hk, h, e⟩ | ⟨k, hk, h, e⟩ | ⟨h, e⟩ <;>
    rw [e] <;> simp only [reduceCtorEq, false_iff, true_iff] <;> omega

theorem addr_eq_zero {addr : Addr} (h : addr.toNat = 0) : addr = 0 := BitVec.eq_of_toNat_eq h

/-- The issue of a word by a performed write to CMD. -/
theorem issue_to {v : Word} {rest : List Event} {t : State} (hp : s.plan = .write 0 v :: rest)
    (hi : s.ph = .idle ∨ (s.ph = .fault ∧ v = 1)) (h : issue v (answerHost .done (taken s)) = .next t) :
    StepTo s t := by
  rcases issue_cases v (answerHost .done (taken s)) with ⟨i, hd, e⟩ | ⟨⟨x, hd⟩, e⟩ <;> rw [e] at h
  · exact .command hp hi hd (exec_to h)
  · cases h
    have hidle : s.ph = .idle := hi.resolve_right fun ⟨_, hv⟩ => by rw [hv, decode_one] at hd; cases hd
    exact .badCommand hp hidle hd

/-- A host write. -/
theorem hostWrite_to {addr : Addr} {v : Word} {rest : List Event} {t : State} (hp : s.plan = .write addr v :: rest)
    (h : hostWrite addr v (taken s) = .next t) : StepTo s t := by
  rcases hostWrite_cases addr v (taken s) with
    ⟨hr, e⟩ | ⟨hr, hi, e⟩ | ⟨hr, hb, e⟩ | ⟨x, hr, hi, e⟩ | ⟨i, hr, hi, nd, e⟩ <;> rw [e] at h
  · cases h; exact .writeRefused hp hr
  · obtain rfl := addr_eq_zero (regionOf_cmd_iff.mp hr)
    exact issue_to hp hi h
  · cases h; exact .writeCtsel hp hb (regionOf_ctsel_iff.mp hr)
  · cases h
    obtain ⟨hx, ha⟩ := regionOf_ft_iff.mp hr
    exact .writeFt hp hi hx ha
  · cases h
    rcases hr with hr | hr
    · obtain ⟨hx, ha⟩ := regionOf_attr_iff.mp hr
      exact .writeNm nd hp hi hx (.inl ha)
    · obtain ⟨hx, ha⟩ := regionOf_weight_iff.mp hr
      exact .writeNm nd hp hi hx (.inr ha)

theorem attach_next {s t u : State} (h : attach u s = .next t) : s.ph ≠ .busy ∧ t = u := by
  rcases attach_cases u s with ⟨-, e⟩ | ⟨hb, e⟩ <;> rw [e] at h <;> cases h
  exact ⟨hb, rfl⟩

/-- Every next state of a step is one of the cases of `StepTo`. -/
theorem step_to {t : State} (h : step s = .next t) : StepTo s t := by
  cases hp : s.plan with
  | nil =>
    rw [step_of_noPlan hp, ← taken_of_noPlan hp] at h
    exact engineTurn_to h
  | cons e rest =>
    rw [step_of_plan hp, ← taken_of_plan hp] at h
    cases e with
    | read addr =>
      cases h
      rcases hostRead_cases addr (taken s) with ⟨hr, e⟩ | ⟨hr, e⟩ <;> rw [e]
      · exact .reads hp hr
      · exact .readRefused hp hr
    | write addr v => exact hostWrite_to hp h
    | attachSI xs => obtain ⟨hb, rfl⟩ := attach_next h; exact .attachSI hp hb
    | attachBO => obtain ⟨hb, rfl⟩ := attach_next h; exact .attachBO hp hb
    | attachBI bs => obtain ⟨hb, rfl⟩ := attach_next h; exact .attachBI hp hb
    | attachSO => obtain ⟨hb, rfl⟩ := attach_next h; exact .attachSO hp hb
    | rst => cases h; exact .reset hp
    | turn r => exact engineTurn_to h

end Sys2Proof.Machine
end

section
/-! PROOF. Every step keeps FT, NM and CT canonical and in bounds (10_state.md R10; log entry 1). -/

namespace Sys2Proof.Machine

/-! ### What BUILD's forest keeps to the end -/

/-- Merging that is done has ended on a grown forest with fewer than two trees (41_tree_build.md R62). -/
theorem mergeAll_done {ft : Memory Word} {g : Forest} (h : mergeAll (seed ft).pq.length (seed ft) = .done g) :
    ∃ ts, Grown ft g ts ∧ g.pq.length < 2 := by
  rcases mergeAll_grown (seed_grown ft) le_rfl with ⟨g', ts, e, hg, hl⟩ | ⟨-, -, g', e, -, -⟩ <;> rw [e] at h <;> cases h
  exact ⟨ts, hg, hl⟩

/-- With no tree in the forest no record has been used. -/
theorem Grown.next_of_empty {ft : Memory Word} {f : Forest} {ts : List Shape} (h : Grown ft f ts) (hq : f.pq = []) :
    f.next = 0 := by
  have hts : ts = [] := List.map_eq_nil_iff.mp (hq ▸ h.roots).eq_nil
  have := (hts ▸ h.indices).length_eq
  simpa using this.symm

/-- A forest never needs more than the records there are: 256 symbols make 511 nodes (10_state.md R12). -/
theorem Grown.next_le {ft : Memory Word} {f : Forest} {ts : List Shape} (h : Grown ft f ts) :
    f.next ≤ Config.nodeMax := by
  have hb := h.bound
  have hk := presentSymbols_length_le ft
  by_cases hq : f.pq = []
  · rw [h.next_of_empty hq]; exact Nat.zero_le _
  · have := List.length_pos_of_ne_nil hq
    simp only [Config.nSymbols, Config.nodeMax] at *
    omega

theorem Grown.nm_within {ft : Memory Word} {f : Forest} {ts : List Shape} (h : Grown ft f ts) :
    Memory.within Config.nodeMax f.nm := fun e he => (h.within e he).trans_le h.next_le

/-- An overflow leaves the records of a grown forest (41_tree_build.md R63). -/
theorem mergeAll_overflow {ft : Memory Word} {g : Forest} (h : mergeAll (seed ft).pq.length (seed ft) = .overflow g) :
    Memory.wf Node.zero g.nm ∧ Memory.within Config.nodeMax g.nm := by
  rcases mergeAll_grown (seed_grown ft) le_rfl with ⟨g', -, e, -, -⟩ | ⟨f, ts, g', e, hf, hm⟩ <;> rw [e] at h <;> cases h
  rw [(mergeOnce_overflow hf hm).1]
  exact ⟨hf.wf, hf.nm_within⟩

/-! ### The arrays -/

variable {s t : State}

theorem ArraysCanonical.congr (h : ArraysCanonical s) (e1 : t.ft = s.ft) (e2 : t.nm = s.nm) (e3 : t.ct = s.ct) :
    ArraysCanonical t := by
  constructor
  · rw [e1]; exact h.ftWf
  · rw [e1]; exact h.ftWithin
  · rw [e2]; exact h.nmWf
  · rw [e2]; exact h.nmWithin
  · rw [e3]; exact h.ctWf
  · rw [e3]; exact h.ctWithin

/-- The state keeps FT, has a node memory in canonical form, and no codes. -/
theorem ArraysCanonical.without_codes (h : ArraysCanonical s) (e1 : t.ft = s.ft) (hw : Memory.wf Node.zero t.nm)
    (hb : Memory.within Config.nodeMax t.nm) (e3 : t.ct = []) : ArraysCanonical t := by
  refine ⟨e1 ▸ h.ftWf, e1 ▸ h.ftWithin, hw, hb, ?_, ?_⟩ <;> rw [e3]
  · exact Memory.nil_wf _
  · exact Memory.nil_within _

theorem ArraysCanonical.with_ft (h : ArraysCanonical s) (hw : Memory.wf 0 t.ft)
    (hb : Memory.within Config.nSymbols t.ft) (e2 : t.nm = s.nm) (e3 : t.ct = s.ct) : ArraysCanonical t :=
  ⟨hw, hb, e2 ▸ h.nmWf, e2 ▸ h.nmWithin, e3 ▸ h.ctWf, e3 ▸ h.ctWithin⟩

theorem ArraysCanonical.with_ct (h : ArraysCanonical s) (e1 : t.ft = s.ft) (e2 : t.nm = s.nm)
    (hw : Memory.wf CodeEntry.invalid t.ct) (hb : Memory.within Config.nSymbols t.ct) : ArraysCanonical t :=
  ⟨e1 ▸ h.ftWf, e1 ▸ h.ftWithin, e2 ▸ h.nmWf, e2 ▸ h.nmWithin, hw, hb⟩

/-- Arrays at their reset content are canonical (10_state.md R25). -/
theorem ArraysCanonical.of_empty (e1 : t.ft = []) (e2 : t.nm = []) (e3 : t.ct = []) : ArraysCanonical t := by
  refine ⟨?_, ?_, ?_, ?_, ?_, ?_⟩
  · rw [e1]; exact Memory.nil_wf _
  · rw [e1]; exact Memory.nil_within _
  · rw [e2]; exact Memory.nil_wf _
  · rw [e2]; exact Memory.nil_within _
  · rw [e3]; exact Memory.nil_wf _
  · rw [e3]; exact Memory.nil_within _

theorem CommandTo.arrays {i : Instr} (c : CommandTo s i t) (h : ArraysCanonical s) : ArraysCanonical t := by
  cases c with
  | clr => exact .of_empty rfl rfl rfl
  | freq => exact h.with_ft (Memory.nil_wf _) (Memory.nil_within _) rfl rfl
  | buildTree hm hq =>
    obtain ⟨ts, hg, -⟩ := mergeAll_done hm
    exact h.without_codes rfl hg.wf hg.nm_within rfl
  | buildNone hm hq =>
    obtain ⟨ts, hg, -⟩ := mergeAll_done hm
    exact h.without_codes rfl hg.wf hg.nm_within rfl
  | buildOverflow hm =>
    obtain ⟨hw, hb⟩ := mergeAll_overflow hm
    exact h.without_codes rfl hw hb rfl
  | genNone ht => exact h.with_ct rfl rfl (Memory.nil_wf _) (Memory.nil_within _)
  | genTree ht hc => exact h.with_ct rfl rfl (codeTable_canonical hc).1 (codeTable_canonical hc).2
  | finTree hc => exact h.without_codes rfl h.nmWf h.nmWithin rfl
  | finMalformed hc => exact h.without_codes rfl h.nmWf h.nmWithin rfl
  | genOpen | enc | decOpen | decNone | decTree => exact h.congr rfl rfl rfl

/-- A running command writes at most a count. -/
theorem MicroTo.arrays (m : MicroTo s t) (h : ArraysCanonical s) : ArraysCanonical t := by
  cases m with
  | @counts x xs hp hi hc => exact h.with_ft (Memory.set_wf _ _ h.ftWf) (Memory.set_within h.ftWithin x.isLt) rfl rfl
  | _ => exact h.congr rfl rfl rfl

theorem StepTo.arrays (d : StepTo s t) (h : ArraysCanonical s) : ArraysCanonical t := by
  cases d with
  | command hp hi hd hc => exact hc.arrays (h.congr rfl rfl rfl)
  | writeFt hp hi hx ha => exact h.with_ft (Memory.set_wf _ _ h.ftWf) (Memory.set_within h.ftWithin hx) rfl rfl
  | writeNm nd hp hi hx ha =>
    exact h.without_codes rfl (Memory.set_wf _ _ h.nmWf) (Memory.set_within h.nmWithin hx) rfl
  | reset hp => exact .of_empty rfl rfl rfl
  | runs hb hm => exact hm.arrays (h.congr rfl rfl rfl)
  | _ => exact h.congr rfl rfl rfl

/-- Settles O21: a case analysis of the step; only FT's and NM's writers and the commands that make a table matter. -/
theorem arraysStayCanonical : Obligations.ArraysStayCanonical := fun _ _ h e => (step_to e).arrays h

end Sys2Proof.Machine
end

section
/-! PROOF. The run state: PH, OP, DONE, ERR and the point of the running command (10_state.md R18 to R20). -/

namespace Sys2Proof.Machine

/-- The opcode of the command a point belongs to (30_encoding.md R46); 0, the opcode of no command, at rest. -/
def Point.opcode : Point → BitVec 8
  | .rest => 0x00
  | .f0 | .f1 => 0x02
  | .e0 | .e1 | .e2 => 0x05
  | .dNoTree | .d0 | .d1 | .d2 => 0x06

@[simp] theorem Point.opcode_eq_zero {p : Point} : p.opcode = 0 ↔ p = .rest := by cases p <;> decide

theorem decodeZ_eq_ok {v : Word} {i j : Instr} (h : decodeZ v j = .ok i) : i = j := by
  unfold decodeZ at h
  split at h <;> cases h
  rfl

theorem decodeX_eq_ok {v : Word} {i : Instr} (h : decodeX v = .ok i) : ∃ idx, i = .fin idx := by
  unfold decodeX at h
  split at h <;> cases h
  exact ⟨_, rfl⟩

/-- The opcode of a word is the opcode of the command it spells (30_encoding.md R44, R46). -/
theorem opcodeField_of_decode {v : Word} {i : Instr} (h : decode v = .ok i) :
    opcodeField v = opcodeField (encode i) := by
  apply BitVec.eq_of_toNat_eq
  unfold decode at h
  split at h
  case h_7 hop =>
    obtain ⟨idx, rfl⟩ := decodeX_eq_ok h
    rw [hop, opcodeField_toNat, encode_fin_toNat]
    omega
  case h_8 => cases h
  all_goals
    rename_i hop
    rw [decodeZ_eq_ok h, hop]
    rfl

theorem opcodeField_encode_ne_zero (i : Instr) : opcodeField (encode i) ≠ 0 := by
  cases i with
  | fin idx =>
    intro h
    have := congrArg BitVec.toNat h
    rw [opcodeField_toNat, encode_fin_toNat] at this
    simp at this
    omega
  | _ => decide

variable {s t : State}

/-! ### The run state case by case -/

theorem RunConsistent.of_busy (h1 : t.ph = .busy) (h2 : t.pt ≠ .rest) (h3 : t.op = t.pt.opcode) (h4 : t.done = false)
    (h5 : t.err = 0) : RunConsistent t := by
  refine ⟨by simp [h1, h2], ?_, ?_, ?_, by simp [h4], by simp [h1, h5]⟩ <;> rw [h3]
  · rintro (h | h) <;> rw [h] <;> rfl
  · rintro (h | h | h) <;> rw [h] <;> rfl
  · rintro (h | h | h | h) <;> rw [h] <;> rfl

theorem RunConsistent.of_idle (h1 : t.ph = .idle) (h2 : t.pt = .rest) (h3 : t.err = 0) : RunConsistent t := by
  constructor <;> simp [h1, h2, h3]

theorem RunConsistent.of_fault (h1 : t.ph = .fault) (h2 : t.pt = .rest) (h3 : t.done = false) (h4 : t.err ≠ 0) :
    RunConsistent t := by
  refine ⟨?_, ?_, ?_, ?_, ?_, iff_of_true h4 h1⟩ <;> simp [h1, h2, h3]

theorem RunConsistent.congr (h : RunConsistent s) (e1 : t.ph = s.ph) (e2 : t.pt = s.pt) (e3 : t.op = s.op)
    (e4 : t.done = s.done) (e5 : t.err = s.err) : RunConsistent t := by
  obtain ⟨h1, h2, h3, h4, h5, h6⟩ := h
  constructor
  · rw [e1, e2]; exact h1
  · rw [e2, e3]; exact h2
  · rw [e2, e3]; exact h3
  · rw [e2, e3]; exact h4
  · rw [e1, e4]; exact h5
  · rw [e1, e5]; exact h6

/-- While BUSY the point is one of the command in OP. -/
theorem RunConsistent.op_eq (h : RunConsistent s) (hb : s.ph = .busy) : s.op = s.pt.opcode := by
  cases hp : s.pt with
  | rest => exact absurd hp (h.pointIffBusy.mp hb)
  | f0 | f1 => exact h.pointOfFreq (by simp [hp])
  | e0 | e1 | e2 => exact h.pointOfEnc (by simp [hp])
  | dNoTree | d0 | d1 | d2 => exact h.pointOfDec (by simp [hp])

theorem RunConsistent.done_eq_false (h : RunConsistent s) (hi : s.ph ≠ .idle) : s.done = false := by
  rw [← Bool.not_eq_true]
  exact mt h.doneOnlyIdle hi

theorem RunConsistent.err_eq_zero (h : RunConsistent s) (hf : s.ph ≠ .fault) : s.err = 0 :=
  not_not.mp (mt h.errIffFault.mp hf)

/-! ### How a command goes on -/

/-- How the command with the opcode `op` goes on from the run state of `s`: at a point of its rule, to a fault, or to
its end (10_state.md R18, 45_control.md R88, 60_exceptions.md R95). -/
inductive RunTo (op : BitVec 8) (s t : State) : Prop where
  | goesOn (hph : t.ph = s.ph) (hop : t.op = s.op) (hdone : t.done = s.done) (herr : t.err = s.err)
      (hpt : t.pt.opcode = op)
  | faults (hph : t.ph = .fault) (hop : t.op = s.op) (hdone : t.done = s.done) (herr : t.err ≠ 0) (hpt : t.pt = .rest)
  | completes (hph : t.ph = .idle) (hop : t.op = s.op) (hdone : t.done = true) (herr : t.err = s.err)
      (hpt : t.pt = .rest)

theorem CommandTo.runTo {i : Instr} (c : CommandTo s i t) (hi : i ≠ .clr) : RunTo (opcodeField (encode i)) s t := by
  cases c with
  | clr => exact absurd rfl hi
  | freq | enc | decNone | decTree => exact .goesOn rfl rfl rfl rfl rfl
  | buildOverflow | genOpen | decOpen | finMalformed => exact .faults rfl rfl rfl (errWord_ne_zero _ _ _) rfl
  | buildTree | buildNone | genNone | genTree | finTree => exact .completes rfl rfl rfl rfl rfl

theorem MicroTo.runTo (m : MicroTo s t) : RunTo s.pt.opcode s t := by
  cases m with
  | waits => exact .goesOn rfl rfl rfl rfl rfl
  | siErr | boErr | biErr | soErr | countOverflows | noCode | bitsWithoutTree | truncated =>
    exact .faults rfl rfl rfl (errWord_ne_zero _ _ _) rfl
  | inputEnds | noBits | bitsEnd => exact .completes rfl rfl rfl rfl rfl
  | moreToCount hp | counts hp | moreToSend hp | startsCode hp | emptyCode hp | sendsBit hp | sendsLastBit hp
  | moreBits hp | bitAtLeafRoot hp | bitToLeaf hp | bitToInner hp | givesSymbol hp =>
    exact .goesOn rfl rfl rfl rfl (by rw [hp]; rfl)

theorem RunTo.runConsistent {op : BitVec 8} (r : RunTo op s t) (hb : s.ph = .busy) (hd : s.done = false)
    (he : s.err = 0) (ho : s.op = op) (hne : op ≠ 0) : RunConsistent t := by
  cases r with
  | goesOn hph hop hdone herr hpt =>
    refine .of_busy (hph.trans hb) ?_ (hop.trans (ho.trans hpt.symm)) (hdone.trans hd) (herr.trans he)
    rw [Ne, ← Point.opcode_eq_zero, hpt]
    exact hne
  | faults hph hop hdone herr hpt => exact .of_fault hph hpt (hdone.trans hd) herr
  | completes hph hop hdone herr hpt => exact .of_idle hph hpt (herr.trans he)

/-- In FAULT only CLR is accepted (45_control.md R88). -/
theorem idle_or_clr {v : Word} {i : Instr} (hi : s.ph = .idle ∨ (s.ph = .fault ∧ v = 1)) (hd : decode v = .ok i) :
    i ≠ .clr → s.ph = .idle := by
  rcases hi with hi | ⟨-, rfl⟩
  · exact fun _ => hi
  · rw [decode_one] at hd
    cases hd
    exact fun h => absurd rfl h

/-- A command that is accepted leaves a consistent run state. -/
theorem CommandTo.runConsistent {v : Word} {i : Instr} (c : CommandTo (accept v s) i t) (hd : decode v = .ok i)
    (he : i ≠ .clr → s.err = 0) : RunConsistent t := by
  by_cases hi : i = .clr
  · subst hi
    cases c
    exact .of_idle rfl rfl rfl
  · exact (c.runTo hi).runConsistent rfl rfl (he hi) (opcodeField_of_decode hd) (opcodeField_encode_ne_zero i)

theorem MicroTo.runConsistent (m : MicroTo s t) (h : RunConsistent s) (hb : s.ph = .busy) : RunConsistent t := by
  refine m.runTo.runConsistent hb (h.done_eq_false (by simp [hb])) (h.err_eq_zero (by simp [hb])) (h.op_eq hb) ?_
  rw [Ne, Point.opcode_eq_zero]
  exact h.pointIffBusy.mp hb

theorem StepTo.runConsistent (d : StepTo s t) (h : RunConsistent s) : RunConsistent t := by
  cases d with
  | badCommand hp hi hd => exact .of_fault rfl rfl rfl (errWord_ne_zero _ _ _)
  | command hp hi hd hc =>
    exact hc.runConsistent hd fun hne => h.err_eq_zero (by simp [idle_or_clr hi hd hne])
  | reset hp => exact .of_idle rfl rfl rfl
  | runs hb hm => exact hm.runConsistent (h.congr rfl rfl rfl rfl rfl) hb
  | _ => exact h.congr rfl rfl rfl rfl rfl

/-- Settles O22: only issue, reset and the running command touch the run state, and each leaves a consistent one. -/
theorem runStateStaysConsistent : Obligations.RunStateStaysConsistent := fun _ _ h e => (step_to e).runConsistent h

end Sys2Proof.Machine
end

section
/-! PROOF. What holds of the tree and the table in every state (10_state.md R13 to R16, R26), BUILD's tree passing
FIN's check among it (41_tree_build.md R64 (c)). -/

namespace Sys2Proof.Machine

/-! ### BUILD's tree -/

/-- Distinct present symbols are distinct bytes. -/
theorem presentSymbols_bytes_nodup (ft : Memory Word) : ((presentSymbols ft).map (BitVec.ofNat 8)).Nodup := by
  refine (presentSymbols_nodup ft).map_on fun x hx y hy hxy => ?_
  have hx' := (mem_presentSymbols.mp hx).1
  have hy' := (mem_presentSymbols.mp hy).1
  have := congrArg BitVec.toNat hxy
  simp only [BitVec.toNat_ofNat, Config.nSymbols] at *
  omega

/-- The one tree left at the end of merging passes the check with a leaf for every present symbol
(41_tree_build.md R64 (c)). -/
theorem Grown.check_root {ft : Memory Word} {f : Forest} {ts : List Shape} {r : Nat} (h : Grown ft f ts)
    (hq : f.pq = [r]) : check f.nm r = .ok (presentSymbols ft).length := by
  have hr : ts.map Shape.root = [r] := List.perm_singleton.mp (hq ▸ h.roots)
  obtain ⟨t, rfl, hroot⟩ := List.map_eq_singleton_iff.mp hr
  have hi : t.indices.Perm (List.range f.next) := by simpa using h.indices
  have hs : t.symbols.Perm ((presentSymbols ft).map (BitVec.ofNat 8)) := by simpa using h.symbols
  refine check_ok_iff.mpr ⟨t, h.inNm t (by simp), hroot, hi.nodup_iff.mpr List.nodup_range,
    hs.nodup_iff.mpr (presentSymbols_bytes_nodup ft), ?_⟩
  rw [hs.length_eq, List.length_map]

/-- Merging that leaves no tree has left no record. -/
theorem Grown.empty {ft : Memory Word} {f : Forest} {ts : List Shape} (h : Grown ft f ts) (hl : f.pq.length < 2)
    (hq : ∀ r, f.pq ≠ [r]) : f.pq = [] ∧ f.nm = [] := by
  have hpq : f.pq = [] := by
    rw [← List.length_eq_zero_iff]
    have h1 : f.pq.length ≠ 1 := fun h1 => (List.length_eq_one_iff.mp h1).elim hq
    omega
  refine ⟨hpq, (Memory.eq_nil_iff h.wf).mpr fun k => Memory.get_of_bound _ h.within ?_⟩
  rw [h.next_of_empty hpq]
  exact Nat.zero_le k

/-- The root of a checked tree is the index of a record. -/
theorem check_root_lt {nm : Memory Node} {r n : Nat} (h : check nm r = .ok n) : r < Config.nodeMax := by
  obtain ⟨t, hIn, rfl, -⟩ := check_ok_iff.mp h
  exact Shape.root_lt hIn

variable {s t : State}

/-! ### The three states of the tree -/

theorem TreeConsistent.of_none (e1 : t.ts = .noTree) (e2 : t.root = 0 ∧ t.nsym = 0) (e3 : t.ct = [])
    (e4 : t.ph ≠ .fault → t.nm = [] ∧ t.pq = []) : TreeConsistent t :=
  ⟨fun hp _ => (e4 hp).1, fun _ => e2, fun h => by simp [e1] at h, .inl e3, fun hp => (e4 hp).2⟩

theorem TreeConsistent.of_open (e1 : t.ts = .openTree) (e2 : t.root = 0 ∧ t.nsym = 0) (e3 : t.ct = [])
    (e4 : t.ph ≠ .fault → t.pq = []) : TreeConsistent t :=
  ⟨fun _ h => by simp [e1] at h, fun _ => e2, fun h => by simp [e1] at h, .inl e3, e4⟩

/-- A tree that passes the check is entered: its root and its number of leaves fit ROOT and NSYM (10_state.md R15). -/
theorem TreeConsistent.of_final {r n : Nat} (hc : check s.nm r = .ok n) (e3 : s.ct = []) (e4 : s.pq = []) :
    TreeConsistent (complete (finaliseTree r n s)) := by
  have hr := check_root_lt hc
  have hn := check_leaves_le hc
  have hroot : (BitVec.ofNat 9 r).toNat = r := by
    rw [BitVec.toNat_ofNat]; simp only [Config.nodeMax] at hr; omega
  have hnsym : (BitVec.ofNat 9 n).toNat = n := by rw [BitVec.toNat_ofNat]; omega
  refine ⟨fun _ h => (nomatch h), fun h => absurd rfl h, fun _ => ?_, .inl e3, fun _ => e4⟩
  show check s.nm (BitVec.ofNat 9 r).toNat = .ok (BitVec.ofNat 9 n).toNat
  rw [hroot, hnsym, hc]

/-- GEN's table replaces the one there was. -/
theorem TreeConsistent.with_table (h : TreeConsistent s) {ct : Memory CodeEntry} (hb : s.ph ≠ .fault)
    (hct : ct = [] ∨ (s.ts = .finalTree ∧ codeTable s.nm s.root.toNat = .ok ct)) :
    TreeConsistent (complete { s with ct := ct }) :=
  ⟨fun _ => h.noTreeEmpty hb, h.notFinalNoRoot, h.finalChecked, hct, fun _ => h.queueEmpty hb⟩

/-! ### Every step -/

theorem CommandTo.treeConsistent {i : Instr} (c : CommandTo s i t) (hb : s.ph = .busy)
    (h : i ≠ .clr → TreeConsistent s) : TreeConsistent t := by
  have hf : s.ph ≠ .fault := by simp [hb]
  cases c with
  | clr => exact .of_none rfl ⟨rfl, rfl⟩ rfl fun _ => ⟨rfl, rfl⟩
  | buildTree hm hq =>
    obtain ⟨ts, hg, -⟩ := mergeAll_done hm
    refine .of_final ?_ rfl rfl
    rw [(seed_seeded s.ft).next]
    exact hg.check_root hq
  | buildNone hm hq =>
    obtain ⟨ts, hg, hl⟩ := mergeAll_done hm
    obtain ⟨hpq, hnm⟩ := hg.empty hl hq
    exact .of_none rfl ⟨rfl, rfl⟩ rfl fun _ => ⟨hnm, hpq⟩
  | buildOverflow hm => exact .of_none rfl ⟨rfl, rfl⟩ rfl fun hp => absurd rfl hp
  | genNone ht => exact (h nofun).with_table hf (.inl rfl)
  | genTree ht hc => exact (h nofun).with_table hf (.inr ⟨ht, hc⟩)
  | finTree hc => exact .of_final hc rfl ((h nofun).queueEmpty hf)
  | finMalformed hc => exact .of_open rfl ⟨rfl, rfl⟩ rfl fun hp => absurd rfl hp
  | freq | genOpen | enc | decOpen | decNone | decTree =>
    exact (h nofun).congr (fun _ => hf) rfl rfl rfl rfl rfl rfl

/-- A running command touches neither the tree nor the table. -/
theorem MicroTo.treeConsistent (m : MicroTo s t) (hb : s.ph = .busy) (h : TreeConsistent s) : TreeConsistent t := by
  have hf : t.ph ≠ .fault → s.ph ≠ .fault := fun _ => by simp [hb]
  cases m <;> exact h.congr hf rfl rfl rfl rfl rfl rfl

theorem StepTo.treeConsistent (d : StepTo s t) (h : TreeConsistent s) : TreeConsistent t := by
  cases d with
  | badCommand hp hi hd => exact h.congr (fun hf => absurd rfl hf) rfl rfl rfl rfl rfl rfl
  | command hp hi hd hc =>
    refine hc.treeConsistent rfl fun hne => ?_
    exact h.congr (fun _ => by simp [idle_or_clr hi hd hne]) rfl rfl rfl rfl rfl rfl
  | writeNm nd hp hi hx ha => exact .of_open rfl ⟨rfl, rfl⟩ rfl fun _ => h.queueEmpty (by simp [hi])
  | reset hp => exact .of_none rfl ⟨rfl, rfl⟩ rfl fun _ => ⟨rfl, rfl⟩
  | runs hb hm => exact hm.treeConsistent hb (h.congr id rfl rfl rfl rfl rfl rfl)
  | _ => exact h.congr id rfl rfl rfl rfl rfl rfl

end Sys2Proof.Machine
end

section
/-! PROOF. What holds at each point of a running command (40_freq.md R56, 43_encoder.md R74, 44_decoder.md R79, R81,
R82), and with it every invariant at once. -/

namespace Sys2Proof.Machine

variable {s t : State}

/-! ### The decoder's cursor -/

/-- CUR at the root of a single-leaf tree, else at a node reached from the root that is a leaf or not, as `leaf` says
(44_decoder.md R79, R81). -/
def CursorAt (leaf : Bool) (s : State) : Prop :=
  (rootIsLeaf s = true → s.cur = s.root) ∧
  (rootIsLeaf s = false → Reachable s.nm s.root.toNat s.cur.toNat ∧ (nmGet s.nm s.cur.toNat).isLeaf = leaf)

/-- At the root the cursor is between bits. -/
theorem cursorAt_root (h : s.cur = s.root) : CursorAt false s :=
  ⟨fun _ => h, fun hr => ⟨⟨[], by rw [h]; rfl⟩, by rw [h]; exact hr⟩⟩

/-- On a single-leaf tree all that is claimed is CUR = ROOT, between bits and at a symbol alike (44_decoder.md R81). -/
theorem CursorAt.of_leafRoot {a : Bool} (h : CursorAt a s) (hr : rootIsLeaf s = true) (b : Bool) : CursorAt b s :=
  ⟨h.1, fun hr' => by rw [hr] at hr'; cases hr'⟩

/-- Below an inner root a bit moves the cursor to a child (44_decoder.md R79). -/
theorem CursorAt.child (h : CursorAt false s) (hr : rootIsLeaf s = false) (b : Bool) :
    CursorAt (nmGet s.nm (nextNode b s).toNat).isLeaf (setCur (nextNode b s) s) := by
  refine ⟨fun hr' => ?_, fun _ => ⟨?_, rfl⟩⟩
  · have : rootIsLeaf s = true := hr'
    rw [hr] at this
    cases this
  · obtain ⟨⟨p, hp⟩, hl⟩ := h.2 hr
    exact ⟨p ++ [b], follow_child hp hl b⟩

theorem CursorAt.congr {a : Bool} (h : CursorAt a s) (e1 : t.nm = s.nm) (e2 : t.root = s.root) (e3 : t.cur = s.cur) :
    CursorAt a t := by
  have hr : rootIsLeaf t = rootIsLeaf s := by rw [rootIsLeaf, e1, e2, rootIsLeaf]
  rw [CursorAt, hr, e1, e2, e3]
  exact h

/-! ### What has to be shown at each point -/

theorem PointConsistent.congr (h : PointConsistent s) (e : t = { s with resp := t.resp, plan := t.plan }) :
    PointConsistent t := by
  rw [e]
  exact ⟨h.1, h.2, h.3, h.4, h.5, h.6, h.7⟩

/-- Nothing is claimed where FREQ and ENC are about to ask for more symbols. -/
theorem PointConsistent.at_askSymbol (hp : t.pt = .f0 ∨ t.pt = .e0) : PointConsistent t := by
  rcases hp with hp | hp <;> constructor <;> simp [hp]

theorem PointConsistent.at_readSymbol {x : Sym} {xs : List Sym} (hp : t.pt = .f1 ∨ t.pt = .e1)
    (hi : t.si = some (x :: xs)) : PointConsistent t := by
  rcases hp with hp | hp <;> constructor <;> simp [hp, hi]

theorem PointConsistent.at_e2 (hp : t.pt = .e2) (hv : (encEntry t).valid = true)
    (hl : t.epos.toNat < (encEntry t).len.toNat) : PointConsistent t := by
  constructor <;> simp [hp, hv, hl]

theorem PointConsistent.at_dNoTree (hp : t.pt = .dNoTree) (ht : t.ts = .noTree) : PointConsistent t := by
  constructor <;> simp [hp, ht]

theorem PointConsistent.at_d0 (hp : t.pt = .d0) (ht : t.ts = .finalTree) (hc : CursorAt false t) :
    PointConsistent t := by
  refine ⟨?_, ?_, ?_, ?_, fun _ => ht, fun _ => hc, ?_⟩ <;> simp [hp]

theorem PointConsistent.at_d1 {b : Bool} {bs : List Bool} (hp : t.pt = .d1) (hi : t.bi = some (b :: bs))
    (ht : t.ts = .finalTree) (hc : CursorAt false t) : PointConsistent t := by
  refine ⟨?_, fun _ => ⟨b, bs, hi⟩, ?_, ?_, fun _ => ht, fun _ => hc, ?_⟩ <;> simp [hp]

theorem PointConsistent.at_d2 (hp : t.pt = .d2) (ht : t.ts = .finalTree) (hc : CursorAt true t) :
    PointConsistent t := by
  refine ⟨?_, ?_, ?_, ?_, fun _ => ht, ?_, fun _ => hc⟩ <;> simp [hp]

/-! ### Every step -/

theorem CommandTo.pointConsistent {i : Instr} (c : CommandTo s i t) : PointConsistent t := by
  cases c with
  | freq => exact .at_askSymbol (.inl rfl)
  | enc => exact .at_askSymbol (.inr rfl)
  | decNone ht => exact .at_dNoTree rfl ht
  | decTree ht => exact .at_d0 rfl ht (cursorAt_root rfl)
  | _ => exact .of_rest rfl

theorem MicroTo.pointConsistent (m : MicroTo s t) (h : PointConsistent s) : PointConsistent t := by
  have between (hp : s.pt = .d0 ∨ s.pt = .d1) : CursorAt false s := h.cursorBetween hp
  cases m with
  | waits => exact h
  | counts => exact .at_askSymbol (.inl rfl)
  | emptyCode | sendsLastBit => exact .at_askSymbol (.inr rfl)
  | moreToCount hp hi => exact .at_readSymbol (.inl rfl) hi
  | moreToSend hp hi => exact .at_readSymbol (.inr rfl) hi
  | startsCode hp hi hv hl => exact .at_e2 rfl hv hl
  | sendsBit hp ho hl => exact .at_e2 rfl (h.bitInCode hp).1 hl
  | moreBits hp hi => exact .at_d1 rfl hi (h.treeAtBits (.inl hp)) ((between (.inl hp)).congr rfl rfl rfl)
  | bitAtLeafRoot hp hi hr =>
    exact .at_d2 rfl (h.treeAtBits (.inr (.inl hp))) (((between (.inr hp)).of_leafRoot hr true).congr rfl rfl rfl)
  | @bitToLeaf b bs hp hi hr hl =>
    exact .at_d2 rfl (h.treeAtBits (.inr (.inl hp))) ((hl ▸ (between (.inr hp)).child hr b).congr rfl rfl rfl)
  | @bitToInner b bs hp hi hr hl =>
    exact .at_d0 rfl (h.treeAtBits (.inr (.inl hp))) ((hl ▸ (between (.inr hp)).child hr b).congr rfl rfl rfl)
  | givesSymbol hp ho => exact .at_d0 rfl (h.treeAtBits (.inr (.inr hp))) (cursorAt_root rfl)
  | _ => exact .of_rest rfl

/-- A step keeps the points: only issue and the running command move, and while BUSY the host only reads, is refused,
or resets. -/
theorem StepTo.pointConsistent (d : StepTo s t) (hr : RunConsistent s) (h : PointConsistent s) : PointConsistent t := by
  cases d with
  | reads | readRefused | writeRefused | idles => exact h.congr rfl
  | badCommand | reset => exact .of_rest rfl
  | command hp hi hd hc => exact hc.pointConsistent
  | runs hb hm => exact hm.pointConsistent (h.congr rfl)
  | writeFt hp hi | writeNm nd hp hi => exact .of_rest (hr.rest (by simp [hi]))
  | writeCtsel hp hb | attachSI hp hb | attachBO hp hb | attachBI hp hb | attachSO hp hb => exact .of_rest (hr.rest hb)

/-- Settles O23: the four parts of consistency, each kept by every case of a step. -/
theorem consistencyIsKept : Obligations.ConsistencyIsKept := by
  intro s t h e
  have d := step_to e
  exact ⟨d.arrays h.arrays, d.runConsistent h.run, d.treeConsistent h.tree, d.pointConsistent h.run h.points⟩

/-- Settles O20: the reset state has empty arrays, no tree, and a command at rest. -/
theorem resetIsConsistent : Obligations.ResetIsConsistent :=
  ⟨.of_empty rfl rfl rfl, .of_idle rfl rfl rfl, .of_none rfl ⟨rfl, rfl⟩ rfl fun _ => ⟨rfl, rfl⟩, .of_rest rfl⟩

end Sys2Proof.Machine
end

section
/-! PROOF. The register words, the pins, and the state after reset (10_state.md R19, R21, R23, R25). -/

namespace Sys2Proof.Machine

/-- STATUS as a number, field by field (10_state.md R19). -/
theorem statusWord_toNat (s : State) : (statusWord s).toNat =
    (busyFlag s).toNat + 2 * s.done.toNat + 4 * (faultFlag s).toNat + 16 * s.ts.code.toNat + 256 * s.op.toNat := by
  simp only [statusWord, toNat_concat, BitVec.toNat_ofBool, BitVec.toNat_ofNat]
  omega

/-- Bits 5:4 of STATUS are TS (10_state.md R14, R19). -/
theorem statusWord_treeState (s : State) : (statusWord s).toNat / 16 % 4 = s.ts.code.toNat := by
  have := (busyFlag s).toNat_lt
  have := s.done.toNat_lt
  have := (faultFlag s).toNat_lt
  have := s.ts.code.isLt
  rw [statusWord_toNat]
  omega

/-- Bits 0, 1 and 2 of STATUS are BUSY, DONE and FAULT (10_state.md R19). -/
theorem statusWord_flags (s : State) : (statusWord s).getLsbD 0 = busyFlag s ∧ (statusWord s).getLsbD 1 = s.done ∧
    (statusWord s).getLsbD 2 = faultFlag s := by
  refine ⟨?_, ?_, ?_⟩ <;> simp only [statusWord, BitVec.getLsbD_append, BitVec.getLsbD_ofBool] <;> simp

/-- Settles O11: each word is the concatenation of its fields, read as a number. -/
theorem registerWordsAndPins : Obligations.RegisterWordsAndPins := by
  intro s
  obtain ⟨hbusy, hdone, hfault⟩ := statusWord_flags s
  refine ⟨statusWord_toNat s, ?_, ?_, ?_, decide_eq_true_iff, decide_eq_true_iff, ?_, ?_, ?_, hbusy.symm, hdone.symm,
    hfault.symm⟩
  · intro h; rw [statusWord_treeState, h]; rfl
  · intro h; rw [statusWord_treeState, h]; rfl
  · intro h; rw [statusWord_treeState, h]; rfl
  · simp only [treeWord, toNat_concat, BitVec.toNat_ofNat]; omega
  · simp only [curWord, toNat_concat, BitVec.toNat_ofNat]; omega
  · simp only [ctselWord, toNat_concat, BitVec.toNat_ofNat]; omega

/-- Settles O12: the reset state is written out in `State.reset`, and an engine that is not BUSY makes no step. -/
theorem resetHoldsTheStatedValues : Obligations.ResetHoldsTheStatedValues :=
  ⟨ftGet_nil, nmGet_nil, rfl, rfl, rfl, fun _ => ⟨rfl, rfl, rfl⟩, rfl, rfl, rfl, rfl, rfl, rfl, rfl, rfl, rfl, rfl, rfl,
    fun _ => engineTurn_of_notBusy (by decide)⟩

end Sys2Proof.Machine
end

section
/-! PROOF. The transitions of PH, OP and DONE, and the writers of every piece of state (10_state.md R10, R18). -/

namespace Sys2Proof.Machine

variable {s t : State}

/-! ### PH, OP and DONE -/

/-- OP holds the opcode of the accepted word whatever the command does; CLR, which resets OP, writes its own opcode
0x01 (45_control.md R85, R88). -/
theorem CommandTo.op_eq {v : Word} {i : Instr} (c : CommandTo (accept v s) i t) (hd : decode v = .ok i) :
    t.op = opcodeField v := by
  by_cases hi : i = .clr
  · subst hi
    cases c
    exact (opcodeField_of_decode hd).symm
  · cases c.runTo hi with
    | goesOn _ hop | faults _ hop | completes _ hop => exact hop

/-- PH leaves IDLE only where a word is written to CMD. -/
theorem StepTo.leaves_idle (d : StepTo s t) (hi : s.ph = .idle) (ht : t.ph ≠ .idle) :
    ∃ v rest, s.plan = .write 0 v :: rest := by
  cases d with
  | badCommand hp | command hp => exact ⟨_, _, hp⟩
  | reset => exact absurd rfl ht
  | runs hb => rw [hi] at hb; cases hb
  | _ => exact absurd hi ht

/-- PH leaves BUSY by completion, by a fault, or by reset. -/
theorem StepTo.leaves_busy (d : StepTo s t) (hd : s.done = false) (hb : s.ph = .busy) (ht : t.ph ≠ .busy) :
    (t.ph = .idle ∧ t.done = true) ∨ (t.ph = .fault ∧ t.done = false) ∨ ∃ rest, s.plan = .rst :: rest := by
  cases d with
  | badCommand hp hi => rw [hi] at hb; cases hb
  | command hp hi => simp [hb] at hi
  | reset hp => exact .inr (.inr ⟨_, hp⟩)
  | runs _ hm =>
    cases hm.runTo with
    | goesOn hph => exact absurd (hph.trans hb) ht
    | faults hph _ hdone => exact .inr (.inl ⟨hph, hdone.trans hd⟩)
    | completes hph _ hdone => exact .inl ⟨hph, hdone⟩
  | _ => exact absurd hb ht

/-- PH leaves FAULT only to IDLE, by CLR or by reset. -/
theorem StepTo.leaves_fault (d : StepTo s t) (hf : s.ph = .fault) (ht : t.ph ≠ .fault) :
    t.ph = .idle ∧ ((∃ rest, s.plan = .write 0 0x00000001 :: rest) ∨ ∃ rest, s.plan = .rst :: rest) := by
  cases d with
  | badCommand hp hi => rw [hi] at hf; cases hf
  | command hp hi hd hc =>
    obtain ⟨-, rfl⟩ := hi.resolve_left (by simp [hf])
    rw [decode_one] at hd
    cases hd
    cases hc
    exact ⟨rfl, .inl ⟨_, hp⟩⟩
  | reset hp => exact ⟨rfl, .inr ⟨_, hp⟩⟩
  | runs hb => rw [hf] at hb; cases hb
  | _ => exact absurd hf ht

/-- OP changes only to the low byte of a word written to CMD, or by reset. -/
theorem StepTo.op_writers (d : StepTo s t) (hne : t.op ≠ s.op) :
    (∃ v rest, s.plan = .write 0 v :: rest ∧ t.op = BitVec.ofNat 8 v.toNat) ∨ ∃ rest, s.plan = .rst :: rest := by
  cases d with
  | @badCommand v _ _ hp => exact .inl ⟨v, _, hp, opcodeField_eq v⟩
  | @command v _ _ _ hp _ hd hc => exact .inl ⟨v, _, hp, (hc.op_eq hd).trans (opcodeField_eq v)⟩
  | reset hp => exact .inr ⟨_, hp⟩
  | runs _ hm =>
    cases hm.runTo with
    | goesOn _ hop | faults _ hop | completes _ hop => exact absurd hop hne
  | _ => exact absurd rfl hne

/-- DONE changes only by issue, by reset, or by completion. -/
theorem StepTo.done_writers (d : StepTo s t) (hne : t.done ≠ s.done) :
    (∃ v rest, s.plan = .write 0 v :: rest) ∨ (∃ rest, s.plan = .rst :: rest) ∨
      (s.ph = .busy ∧ t.ph = .idle ∧ t.done = true) := by
  cases d with
  | badCommand hp | command hp => exact .inl ⟨_, _, hp⟩
  | reset hp => exact .inr (.inl ⟨_, hp⟩)
  | runs hb hm =>
    cases hm.runTo with
    | goesOn _ _ hdone | faults _ _ hdone => exact absurd hdone hne
    | completes hph _ hdone => exact .inr (.inr ⟨hb, hph, hdone⟩)
  | _ => exact absurd rfl hne

/-- Settles O18: each transition by the cases of a step, a running command's by how it goes on. -/
theorem runStateTransitions : Obligations.RunStateTransitions := by
  intro s t h e
  have d := step_to e
  exact ⟨d.leaves_idle, fun hb => d.leaves_busy (h.done_eq_false (by simp [hb])) hb, d.leaves_fault, d.op_writers,
    d.done_writers⟩

/-! ### The writers of each piece -/

theorem clears_of_reset {rest : List Event} (hp : s.plan = .rst :: rest) : Clears s := .inr ⟨rest, hp⟩

/-- The acceptance of a command is its issue (45_control.md R88). -/
theorem issues_of_command {v : Word} {rest : List Event} {i : Instr} (hp : s.plan = .write 0 v :: rest)
    (hi : s.ph = .idle ∨ (s.ph = .fault ∧ v = 1)) (hd : decode v = .ok i) : Issues s i := by
  refine ⟨?_, v, rest, hp, hd⟩
  rcases hi with hi | ⟨hf, rfl⟩
  · exact .inl hi
  · rw [decode_one] at hd
    cases hd
    exact .inr ⟨hf, rfl⟩

/-- A write to a record's words lies in NM's part of the address map (20_memory.md R29). -/
theorem writesBetween_nm {addr : Addr} {v : Word} {rest : List Event} {i : Nat} (hp : s.plan = .write addr v :: rest)
    (hi : i < 511) (ha : addr.toNat = 0x400 + 2 * i ∨ addr.toNat = 0x401 + 2 * i) : WritesBetween s 0x400 0x7FD :=
  ⟨addr, v, rest, hp, by omega, by omega⟩

section
/-! What a command may write, piece by piece (10_state.md R10). -/

variable {i : Instr}

theorem CommandTo.ft_writers (c : CommandTo s i t) (hne : t.ft ≠ s.ft) : i = .clr ∨ i = .freq := by
  cases c with
  | clr => exact .inl rfl
  | freq => exact .inr rfl
  | _ => exact absurd rfl hne

theorem CommandTo.nm_writers (c : CommandTo s i t) (hne : t.nm ≠ s.nm) : i = .clr ∨ i = .build := by
  cases c with
  | clr => exact .inl rfl
  | buildTree | buildNone | buildOverflow => exact .inr rfl
  | _ => exact absurd rfl hne

theorem CommandTo.tree_writers (c : CommandTo s i t) (hne : t.ts ≠ s.ts ∨ t.root ≠ s.root ∨ t.nsym ≠ s.nsym) :
    i = .clr ∨ i = .build ∨ ∃ idx, i = .fin idx := by
  cases c with
  | clr => exact .inl rfl
  | buildTree | buildNone | buildOverflow => exact .inr (.inl rfl)
  | finTree | finMalformed => exact .inr (.inr ⟨_, rfl⟩)
  | _ => rcases hne with hne | hne | hne <;> exact absurd rfl hne

theorem CommandTo.ct_writers (c : CommandTo s i t) (hne : t.ct ≠ s.ct) :
    i = .clr ∨ i = .gen ∨ i = .build ∨ ∃ idx, i = .fin idx := by
  cases c with
  | clr => exact .inl rfl
  | genNone | genTree => exact .inr (.inl rfl)
  | buildTree | buildNone | buildOverflow => exact .inr (.inr (.inl rfl))
  | finTree | finMalformed => exact .inr (.inr (.inr ⟨_, rfl⟩))
  | _ => exact absurd rfl hne

theorem CommandTo.cur_writers (c : CommandTo s i t) (hne : t.cur ≠ s.cur) : i = .clr ∨ i = .dec := by
  cases c with
  | clr => exact .inl rfl
  | decTree => exact .inr rfl
  | _ => exact absurd rfl hne

theorem CommandTo.ctsel_writers (c : CommandTo s i t) (hne : t.ctsel ≠ s.ctsel) : i = .clr := by
  cases c with
  | clr => rfl
  | _ => exact absurd rfl hne

theorem CommandTo.queue_writers (c : CommandTo s i t) (hne : t.pq ≠ s.pq ∨ t.next ≠ s.next) :
    i = .clr ∨ i = .build := by
  cases c with
  | clr => exact .inl rfl
  | buildTree | buildNone | buildOverflow => exact .inr rfl
  | _ => rcases hne with hne | hne <;> exact absurd rfl hne

theorem CommandTo.encoder_writers (c : CommandTo s i t) (hne : t.esym ≠ s.esym ∨ t.epos ≠ s.epos) : i = .clr := by
  cases c with
  | clr => rfl
  | _ => rcases hne with hne | hne <;> exact absurd rfl hne

end

/-- A running command leaves NM, TS, ROOT, NSYM, CT, CTSEL, PQ and `n` alone (40_freq.md R55, 43_encoder.md R73,
44_decoder.md R78). -/
theorem MicroTo.frame (m : MicroTo s t) : t.nm = s.nm ∧ (t.ts = s.ts ∧ t.root = s.root ∧ t.nsym = s.nsym) ∧
    t.ct = s.ct ∧ t.ctsel = s.ctsel ∧ t.pq = s.pq ∧ t.next = s.next := by
  cases m <;> exact ⟨rfl, ⟨rfl, rfl, rfl⟩, rfl, rfl, rfl, rfl⟩

/-! The writers, from the cases of a step. -/

theorem StepTo.ft_writers (d : StepTo s t) (h : RunConsistent s) (hne : t.ft ≠ s.ft) :
    Running s 0x02 ∨ Issues s .freq ∨ WritesBetween s 0x100 0x1FF ∨ Clears s := by
  cases d with
  | command hp hi hd hc =>
    have hs := issues_of_command hp hi hd
    rcases hc.ft_writers hne with rfl | rfl
    · exact .inr (.inr (.inr (.inl hs)))
    · exact .inr (.inl hs)
  | writeFt hp hi hx ha => exact .inr (.inr (.inl ⟨_, _, _, hp, by omega, by omega⟩))
  | reset hp => exact .inr (.inr (.inr (clears_of_reset hp)))
  | runs hb hm =>
    cases hm with
    | counts hpt => exact .inl ⟨hb, h.pointOfFreq (.inr hpt)⟩
    | _ => exact absurd rfl hne
  | _ => exact absurd rfl hne

theorem StepTo.nm_writers (d : StepTo s t) (hne : t.nm ≠ s.nm) :
    Issues s .build ∨ WritesBetween s 0x400 0x7FD ∨ Clears s := by
  cases d with
  | command hp hi hd hc =>
    have hs := issues_of_command hp hi hd
    rcases hc.nm_writers hne with rfl | rfl
    · exact .inr (.inr (.inl hs))
    · exact .inl hs
  | writeNm nd hp hi hx ha => exact .inr (.inl (writesBetween_nm hp hx ha))
  | reset hp => exact .inr (.inr (clears_of_reset hp))
  | runs hb hm => exact absurd hm.frame.1 hne
  | _ => exact absurd rfl hne

theorem StepTo.tree_writers (d : StepTo s t) (hne : t.ts ≠ s.ts ∨ t.root ≠ s.root ∨ t.nsym ≠ s.nsym) :
    Issues s .build ∨ (∃ idx, Issues s (.fin idx)) ∨ WritesBetween s 0x400 0x7FD ∨ Clears s := by
  cases d with
  | command hp hi hd hc =>
    have hs := issues_of_command hp hi hd
    rcases hc.tree_writers hne with rfl | rfl | ⟨idx, rfl⟩
    · exact .inr (.inr (.inr (.inl hs)))
    · exact .inl hs
    · exact .inr (.inl ⟨idx, hs⟩)
  | writeNm nd hp hi hx ha => exact .inr (.inr (.inl (writesBetween_nm hp hx ha)))
  | reset hp => exact .inr (.inr (.inr (clears_of_reset hp)))
  | runs hb hm =>
    obtain ⟨-, ⟨hts, hroot, hnsym⟩, -⟩ := hm.frame
    rcases hne with hne | hne | hne
    · exact absurd hts hne
    · exact absurd hroot hne
    · exact absurd hnsym hne
  | _ => rcases hne with hne | hne | hne <;> exact absurd rfl hne

theorem StepTo.ct_writers (d : StepTo s t) (hne : t.ct ≠ s.ct) :
    Issues s .gen ∨ Issues s .build ∨ (∃ idx, Issues s (.fin idx)) ∨ WritesBetween s 0x400 0x7FD ∨ Clears s := by
  cases d with
  | command hp hi hd hc =>
    have hs := issues_of_command hp hi hd
    rcases hc.ct_writers hne with rfl | rfl | rfl | ⟨idx, rfl⟩
    · exact .inr (.inr (.inr (.inr (.inl hs))))
    · exact .inl hs
    · exact .inr (.inl hs)
    · exact .inr (.inr (.inl ⟨idx, hs⟩))
  | writeNm nd hp hi hx ha => exact .inr (.inr (.inr (.inl (writesBetween_nm hp hx ha))))
  | reset hp => exact .inr (.inr (.inr (.inr (clears_of_reset hp))))
  | runs hb hm =>
    obtain ⟨-, -, hct, -⟩ := hm.frame
    exact absurd hct hne
  | _ => exact absurd rfl hne

theorem StepTo.cur_writers (d : StepTo s t) (h : RunConsistent s) (hne : t.cur ≠ s.cur) :
    Running s 0x06 ∨ Issues s .dec ∨ Clears s := by
  cases d with
  | command hp hi hd hc =>
    have hs := issues_of_command hp hi hd
    rcases hc.cur_writers hne with rfl | rfl
    · exact .inr (.inr (.inl hs))
    · exact .inr (.inl hs)
  | reset hp => exact .inr (.inr (clears_of_reset hp))
  | runs hb hm =>
    cases hm with
    | bitToLeaf hpt | bitToInner hpt => exact .inl ⟨hb, h.pointOfDec (.inr (.inr (.inl hpt)))⟩
    | givesSymbol hpt => exact .inl ⟨hb, h.pointOfDec (.inr (.inr (.inr hpt)))⟩
    | _ => exact absurd rfl hne
  | _ => exact absurd rfl hne

theorem StepTo.ctsel_writers (d : StepTo s t) (hne : t.ctsel ≠ s.ctsel) :
    WritesBetween s 0x005 0x005 ∨ Clears s := by
  cases d with
  | command hp hi hd hc =>
    obtain rfl := hc.ctsel_writers hne
    exact .inr (.inl (issues_of_command hp hi hd))
  | writeCtsel hp hb ha => exact .inl ⟨_, _, _, hp, ha.ge, ha.le⟩
  | reset hp => exact .inr (clears_of_reset hp)
  | runs hb hm =>
    obtain ⟨-, -, -, hctsel, -⟩ := hm.frame
    exact absurd hctsel hne
  | _ => exact absurd rfl hne

theorem StepTo.err_writers (d : StepTo s t) (hne : t.err ≠ s.err) : (s.ph ≠ .fault ∧ t.ph = .fault) ∨ Clears s := by
  cases d with
  | badCommand hp hi => exact .inl ⟨by simp [hi], rfl⟩
  | @command _ _ i _ hp hi hd hc =>
    by_cases hclr : i = .clr
    · exact .inr (.inl (hclr ▸ issues_of_command hp hi hd))
    · cases hc.runTo hclr with
      | goesOn _ _ _ herr | completes _ _ _ herr => exact absurd herr hne
      | faults hph => exact .inl ⟨by simp [idle_or_clr hi hd hclr], hph⟩
  | reset hp => exact .inr (clears_of_reset hp)
  | runs hb hm =>
    cases hm.runTo with
    | goesOn _ _ _ herr | completes _ _ _ herr => exact absurd herr hne
    | faults hph => exact .inl ⟨by simp [hb], hph⟩
  | _ => exact absurd rfl hne

theorem StepTo.queue_writers (d : StepTo s t) (hne : t.pq ≠ s.pq ∨ t.next ≠ s.next) : Issues s .build ∨ Clears s := by
  cases d with
  | command hp hi hd hc =>
    have hs := issues_of_command hp hi hd
    rcases hc.queue_writers hne with rfl | rfl
    · exact .inr (.inl hs)
    · exact .inl hs
  | reset hp => exact .inr (clears_of_reset hp)
  | runs hb hm =>
    obtain ⟨-, -, -, -, hpq, hnext⟩ := hm.frame
    rcases hne with hne | hne
    · exact absurd hpq hne
    · exact absurd hnext hne
  | _ => rcases hne with hne | hne <;> exact absurd rfl hne

theorem StepTo.encoder_writers (d : StepTo s t) (h : RunConsistent s) (hne : t.esym ≠ s.esym ∨ t.epos ≠ s.epos) :
    Running s 0x05 ∨ Clears s := by
  cases d with
  | command hp hi hd hc =>
    obtain rfl := hc.encoder_writers hne
    exact .inr (.inl (issues_of_command hp hi hd))
  | reset hp => exact .inr (clears_of_reset hp)
  | runs hb hm =>
    cases hm with
    | noCode hpt | startsCode hpt | emptyCode hpt => exact .inl ⟨hb, h.pointOfEnc (.inr (.inl hpt))⟩
    | sendsBit hpt | sendsLastBit hpt => exact .inl ⟨hb, h.pointOfEnc (.inr (.inr hpt))⟩
    | _ => rcases hne with hne | hne <;> exact absurd rfl hne
  | _ => rcases hne with hne | hne <;> exact absurd rfl hne

/-! ### The writers of each stream -/

/-- No command touches a stream before its first micro-step (00_scope.md R8). -/
theorem CommandTo.streams {i : Instr} (c : CommandTo s i t) :
    t.si = s.si ∧ t.bo = s.bo ∧ t.bi = s.bi ∧ t.so = s.so := by
  cases c <;> exact ⟨rfl, rfl, rfl, rfl⟩

theorem StepTo.si_writers (d : StepTo s t) (h : RunConsistent s) (hne : t.si ≠ s.si) :
    Running s 0x02 ∨ Running s 0x05 ∨ ∃ xs rest, s.plan = .attachSI xs :: rest := by
  cases d with
  | command hp hi hd hc => exact absurd hc.streams.1 hne
  | attachSI hp => exact .inr (.inr ⟨_, _, hp⟩)
  | runs hb hm =>
    cases hm with
    | countOverflows hpt | counts hpt => exact .inl ⟨hb, h.pointOfFreq (.inr hpt)⟩
    | noCode hpt | startsCode hpt | emptyCode hpt => exact .inr (.inl ⟨hb, h.pointOfEnc (.inr (.inl hpt))⟩)
    | _ => exact absurd rfl hne
  | _ => exact absurd rfl hne

theorem StepTo.bo_writers (d : StepTo s t) (h : RunConsistent s) (hne : t.bo ≠ s.bo) :
    Running s 0x05 ∨ ∃ rest, s.plan = .attachBO :: rest := by
  cases d with
  | command hp hi hd hc => exact absurd hc.streams.2.1 hne
  | attachBO hp => exact .inr ⟨_, hp⟩
  | runs hb hm =>
    cases hm with
    | sendsBit hpt | sendsLastBit hpt => exact .inl ⟨hb, h.pointOfEnc (.inr (.inr hpt))⟩
    | _ => exact absurd rfl hne
  | _ => exact absurd rfl hne

theorem StepTo.bi_writers (d : StepTo s t) (h : RunConsistent s) (hne : t.bi ≠ s.bi) :
    Running s 0x06 ∨ ∃ bs rest, s.plan = .attachBI bs :: rest := by
  cases d with
  | command hp hi hd hc => exact absurd hc.streams.2.2.1 hne
  | attachBI hp => exact .inr ⟨_, _, hp⟩
  | runs hb hm =>
    cases hm with
    | bitAtLeafRoot hpt | bitToLeaf hpt | bitToInner hpt => exact .inl ⟨hb, h.pointOfDec (.inr (.inr (.inl hpt)))⟩
    | _ => exact absurd rfl hne
  | _ => exact absurd rfl hne

theorem StepTo.so_writers (d : StepTo s t) (h : RunConsistent s) (hne : t.so ≠ s.so) :
    Running s 0x06 ∨ ∃ rest, s.plan = .attachSO :: rest := by
  cases d with
  | command hp hi hd hc => exact absurd hc.streams.2.2.2 hne
  | attachSO hp => exact .inr ⟨_, hp⟩
  | runs hb hm =>
    cases hm with
    | givesSymbol hpt => exact .inl ⟨hb, h.pointOfDec (.inr (.inr (.inr hpt)))⟩
    | _ => exact absurd rfl hne
  | _ => exact absurd rfl hne

/-- Settles O19: for each piece the cases of a step that write it; every other case leaves it as it was. -/
theorem eachPieceOfStateHasItsWriters : Obligations.EachPieceOfStateHasItsWriters := by
  intro s t h e
  have d := step_to e
  exact ⟨d.ft_writers h, d.nm_writers, d.tree_writers, d.ct_writers, d.cur_writers h, d.ctsel_writers, d.err_writers,
    d.queue_writers, d.encoder_writers h, d.si_writers h, d.bo_writers h, d.bi_writers h, d.so_writers h⟩

end Sys2Proof.Machine
end

section
/-! PROOF. What the check guarantees of a tree, in terms of paths, and the invariants of an idle state (10_state.md
R13, R26; 41_tree_build.md R66). -/

namespace Sys2Proof.Machine

variable {nm : Memory Node}

/-- Every node reached in a tree is one of its nodes. -/
theorem Shape.mem_indices_of_follow {t : Shape} (ht : t.In nm) {p : List Bool} {j : Nat}
    (h : follow nm t.root p = some j) : j ∈ t.indices := by
  obtain ⟨u, -, rfl, hsub, -⟩ := Shape.follow_subtree ht h
  exact hsub u.root_mem_indices

/-- In a tree that names no record twice, a node has one path (10_state.md R13, no sharing). -/
theorem Shape.follow_unique {t : Shape} (ht : t.In nm) (hn : t.indices.Nodup) {p q : List Bool} {i : Nat}
    (hp : follow nm t.root p = some i) (hq : follow nm t.root q = some i) : p = q := by
  induction t generalizing p q with
  | leaf j x =>
    have hl := Shape.isLeaf_leaf ht
    rw [(follow_of_isLeaf hl hp).1, (follow_of_isLeaf hl hq).1]
  | node j l r ihl ihr =>
    have ⟨_, _, _, _, _, _, _, _, _, hlIn, hrIn⟩ := ht
    obtain ⟨hj, hnl, hnr, hlr⟩ : j ∉ l.indices ++ r.indices ∧ l.indices.Nodup ∧ r.indices.Nodup ∧
        l.indices.Disjoint r.indices := by
      simpa [Shape.indices, List.nodup_append'] using hn
    have below (b : Bool) (u : List Bool) (h : follow nm j (b :: u) = some i) :
        i ∈ (if b then r.indices else l.indices) := by
      rw [follow_node ht] at h
      cases b
      · exact Shape.mem_indices_of_follow hlIn h
      · exact Shape.mem_indices_of_follow hrIn h
    have hroot (b : Bool) (u : List Bool) (h : follow nm j (b :: u) = some i) : i ≠ j := by
      rintro rfl
      have := below b u h
      cases b
      · exact hj (List.mem_append_left _ this)
      · exact hj (List.mem_append_right _ this)
    rw [Shape.root_node] at hp hq
    match p, q with
    | [], [] => rfl
    | [], b :: q => exact absurd (Option.some.inj hp).symm (hroot b q hq)
    | b :: p, [] => exact absurd (Option.some.inj hq).symm (hroot b p hp)
    | false :: p, false :: q =>
      rw [follow_node ht] at hp hq
      rw [ihl hlIn hnl hp hq]
    | true :: p, true :: q =>
      rw [follow_node ht] at hp hq
      rw [ihr hrIn hnr hp hq]
    | false :: p, true :: q => exact (hlr (below _ _ hp) (below _ _ hq)).elim
    | true :: p, false :: q => exact (hlr (below _ _ hq) (below _ _ hp)).elim

/-- The symbols of a tree are those at the ends of its paths. -/
theorem Shape.mem_symbols_iff {t : Shape} (ht : t.In nm) (x : Sym) :
    x ∈ t.symbols ↔ ∃ p, PathToSymbol nm t.root p x := by
  rw [← Shape.paths_symbols t [], List.mem_map]
  constructor
  · rintro ⟨⟨y, q⟩, hq, rfl⟩
    obtain ⟨q', -, h⟩ := (Shape.mem_paths ht [] q y).mp hq
    exact ⟨q', h⟩
  · rintro ⟨p, h⟩
    exact ⟨(x, p), (Shape.mem_paths ht [] p x).mpr ⟨p, rfl, h⟩, rfl⟩

/-- A tree the check accepts meets the conditions of 10_state.md R13. -/
theorem treeConditions_of_check {r n : Nat} (h : check nm r = .ok n) : TreeConditions nm r n := by
  obtain ⟨t, ht, rfl, hn, hs, rfl⟩ := check_ok_iff.mp h
  have sub : ∀ i, Reachable nm t.root i → ∃ u : Shape, u.In nm ∧ u.root = i := fun i ⟨p, hp⟩ =>
    let ⟨u, hu, hr, _⟩ := Shape.follow_subtree ht hp
    ⟨u, hu, hr⟩
  constructor
  case records =>
    intro i hi
    obtain ⟨u, hu, rfl⟩ := sub i hi
    exact Shape.root_lt hu
  case pairs =>
    intro i hi
    obtain ⟨u, hu, rfl⟩ := sub i hi
    cases u with
    | leaf j x => obtain ⟨-, hl, hr, -⟩ := hu; exact hl.trans hr.symm
    | node j l r => obtain ⟨-, hl, hr, -⟩ := hu; exact hl.trans hr.symm
  case leaves =>
    intro i hi hleaf
    obtain ⟨u, hu, rfl⟩ := sub i hi
    cases u with
    | leaf j x => obtain ⟨-, -, -, hsym, -⟩ := hu; exact hsym
    | node j l r => rw [Shape.root_node, Shape.isLeaf_node hu] at hleaf; cases hleaf
  case inner =>
    intro i hi hleaf
    obtain ⟨u, hu, rfl⟩ := sub i hi
    cases u with
    | leaf j x => rw [Shape.root_leaf, Shape.isLeaf_leaf hu] at hleaf; cases hleaf
    | node j l r =>
      obtain ⟨-, -, -, hsym, hl, hr, hlt, hrt, hw, -⟩ := hu
      rw [Shape.root_node, hl, hr]
      exact ⟨hsym, hlt, hrt, hw⟩
  case noSharing => exact fun p q i => Shape.follow_unique ht hn
  case distinct => exact fun p q x => PathToSymbol.unique ht hs
  case count => exact ⟨t.symbols, hs, rfl, Shape.mem_symbols_iff ht⟩

/-- Settles O26: the tree of a consistent FINAL state has passed the check. -/
theorem finalTreesMeetTheTreeInvariants : Obligations.FinalTreesMeetTheTreeInvariants := fun _ h ht =>
  ⟨treeConditions_of_check (h.tree.finalChecked ht), fun _ _ _ _ hp hq => hp.prefix_eq hq⟩

/-- Settles O25: the parts of consistency, which hold in IDLE in full. -/
theorem idleStatesMeetTheIdleInvariants : Obligations.IdleStatesMeetTheIdleInvariants := by
  intro s h hi
  have hf : s.ph ≠ .fault := by simp [hi]
  refine ⟨fun ht i => ?_, h.tree.notFinalNoRoot, fun ht => ?_, ?_, h.run.err_eq_zero hf, h.tree.queueEmpty hf⟩
  · rw [h.tree.noTreeEmpty hf ht, nmGet_nil]
  · have hc := h.tree.finalChecked ht
    exact ⟨⟨_, hc⟩, (treeConditions_of_check hc).count⟩
  · exact h.tree.tableOfTree.imp_left fun hct x => by rw [hct, ctGet_nil]

end Sys2Proof.Machine
end

section
/-! PROOF. The host port: what a read answers, which accesses are refused, and what a write stores (20_memory.md R29
to R33, 45_control.md R86, R87). -/

namespace Sys2Proof.Machine

variable {s t : State} {addr : Addr} {v : Word} {rest : List Event}

/-! ### Reads -/

/-- A read looks at the block, not at what the outside does next. -/
theorem regionWord_plan (s : State) (p : List Event) (g : Region) : regionWord { s with plan := p } g = regionWord s g := by
  cases g <;> rfl

/-- The word of an address's region is the word 20_memory.md R29 places there. -/
theorem regionWord_wordAt (s : State) (addr : Addr) : WordAt s addr.toNat (regionWord s (regionOf addr)) where
  status h := by rw [regionOf, h]; rfl
  err h := by rw [regionOf, h]; rfl
  tree h := by rw [regionOf, h]; rfl
  cur h := by rw [regionOf, h]; rfl
  ctsel h := by rw [regionOf_ctsel_iff.mpr h]; rfl
  ctlen h := by rw [regionOf, h]; rfl
  ctbits j hj h := by rw [regionOf_ctbits_iff.mpr ⟨hj, h⟩]; rfl
  ft x hx h := by rw [regionOf_ft_iff.mpr ⟨hx, h⟩]; rfl
  attr i hi h := by rw [regionOf_attr_iff.mpr ⟨hi, h⟩]; rfl
  weight i hi h := by rw [regionOf_weight_iff.mpr ⟨hi, h⟩]; rfl

/-- A step that is a host read: refused as the table says, or answered with the word at the address. -/
theorem step_read (hp : s.plan = .read addr :: rest) :
    (ReadRefusedAt s.ph addr.toNat ∧ step s = .next { s with plan := rest, resp := .refused }) ∨
    (¬ReadRefusedAt s.ph addr.toNat ∧
      step s = .next { s with plan := rest, resp := .data (regionWord s (regionOf addr)) }) := by
  rw [step_of_plan hp, happen, ← readPerformed_eq_false]
  rcases hostRead_cases addr { s with plan := rest } with ⟨hr, e⟩ | ⟨hr, e⟩ <;> rw [e]
  · rw [regionWord_plan]
    exact .inr ⟨by rw [hr]; decide, rfl⟩
  · exact .inl ⟨hr, rfl⟩

/-- Settles O6: the two cases of a read; the word answered is that of the address's region. -/
theorem readsAnswerTheWordOrAreRefused : Obligations.ReadsAnswerTheWordOrAreRefused := by
  intro s addr rest hp
  rcases step_read hp with ⟨hr, e⟩ | ⟨hr, e⟩
  · exact ⟨fun _ => e, fun h => absurd hr h⟩
  · exact ⟨fun h => absurd h hr, fun _ => ⟨_, regionWord_wordAt s addr, e⟩⟩

/-! ### Writes, refused or performed -/

/-- A refused write changes no state (20_memory.md R31). -/
theorem step_write_refused (hp : s.plan = .write addr v :: rest) (hr : WriteRefusedAt s.ph addr.toNat v) :
    step s = .next { s with plan := rest, resp := .refused } := by
  rw [step_of_plan hp, happen, hostWrite, writePerformed_eq_false.mpr hr]
  rfl

/-- A performed write is answered, and does what its region says. -/
theorem step_write_performed {g : Region} (hp : s.plan = .write addr v :: rest) (hg : regionOf addr = g)
    (hw : writePerformed s.ph v g = true) : step s = writeRegion v { s with plan := rest, resp := .done } g := by
  rw [step_of_plan hp, happen, hostWrite, hg, hw]
  rfl

/-- No command touches the host port's answer. -/
theorem CommandTo.resp {i : Instr} (c : CommandTo s i t) : t.resp = s.resp := by
  cases c <;> rfl

/-- Whatever a performed write does, a command it issues included, its answer stands (45_control.md R87). -/
theorem writeRegion_resp {g : Region} (h : writeRegion v s g = .next t) : t.resp = s.resp := by
  cases g with
  | cmd =>
    rcases issue_cases v s with ⟨i, -, e⟩ | ⟨-, e⟩ <;> rw [writeRegion, e] at h
    · exact (exec_to h).resp
    · cases h; rfl
  | _ => cases h; rfl

/-- Settles O7: the tables of R31 as `readPerformed` and `writePerformed`, address by address. -/
theorem accessTableIsFollowed : Obligations.AccessTableIsFollowed := by
  refine ⟨fun s addr rest hp => ?_, fun s addr v rest hp => ⟨step_write_refused hp, fun hr t ht => ?_⟩⟩
  · rcases step_read hp with ⟨hr, e⟩ | ⟨hr, e⟩
    · exact ⟨_, e, iff_of_true rfl hr⟩
    · exact ⟨_, e, iff_of_false nofun hr⟩
  · have hw : writePerformed s.ph v (regionOf addr) = true :=
      Bool.eq_true_of_not_eq_false (mt writePerformed_eq_false.mp hr)
    rw [step_write_performed hp rfl hw] at ht
    exact writeRegion_resp ht

/-! ### The ATTR word (30_encoding.md R48) -/

theorem attrWord_toNat (nd : Node) : (attrWord nd).toNat =
    nd.sym.toNat + 2 ^ 8 * nd.hasSym.toNat + 2 ^ 9 * nd.left.toNat + 2 ^ 18 * nd.hasLeft.toNat +
      2 ^ 19 * nd.right.toNat + 2 ^ 28 * nd.hasRight.toNat := by
  simp only [attrWord, toNat_concat, BitVec.toNat_ofBool, BitVec.toNat_ofNat]
  omega

/-- A written ATTR word is read back without its bits 31:29. -/
theorem attrWord_withAttr (nd : Node) (v : Word) : attrWord (withAttr nd v) = v &&& 0x1FFFFFFF := by
  have hmask : (v &&& 0x1FFFFFFF).toNat = v.toNat % 2 ^ 29 := by
    rw [BitVec.toNat_and]
    exact Nat.and_two_pow_sub_one_eq_mod v.toNat 29
  apply BitVec.eq_of_toNat_eq
  rw [hmask, attrWord_toNat]
  simp only [withAttr, toNat_field, BitVec.getLsbD, Nat.toNat_testBit]
  omega

/-! ### What each performed write stores (20_memory.md R32, 45_control.md R87) -/

theorem step_write_cmd (hp : s.plan = .write addr v :: rest) (ha : addr.toNat = 0x000)
    (hi : s.ph = .idle ∨ (s.ph = .fault ∧ v = 0x00000001)) :
    step s = issue v { s with plan := rest, resp := .done } := by
  refine step_write_performed hp (regionOf_cmd_iff.mpr ha) ?_
  rcases hi with hi | ⟨hf, rfl⟩
  · rw [hi]; rfl
  · rw [hf]; rfl

theorem step_write_ctsel (hp : s.plan = .write addr v :: rest) (ha : addr.toNat = 0x005) (hb : s.ph ≠ .busy) :
    step s = .next { s with plan := rest, resp := .done, ctsel := BitVec.ofNat 8 v.toNat } := by
  rw [step_write_performed hp (regionOf_ctsel_iff.mpr ha) (decide_eq_true hb), ← opcodeField_eq]
  rfl

theorem step_write_ft {x : Nat} (hp : s.plan = .write addr v :: rest) (hx : x < 256) (ha : addr.toNat = 0x100 + x)
    (hi : s.ph = .idle) : step s = .next { s with plan := rest, resp := .done, ft := ftSet s.ft x v } :=
  step_write_performed hp (regionOf_ft_iff.mpr ⟨hx, ha⟩) (decide_eq_true hi)

theorem step_write_attr {i : Nat} (hp : s.plan = .write addr v :: rest) (hx : i < 511) (ha : addr.toNat = 0x400 + 2 * i)
    (hi : s.ph = .idle) : step s = .next (reopenTree
      { s with plan := rest, resp := .done, nm := nmSet s.nm i (withAttr (nmGet s.nm i) v) }) :=
  step_write_performed hp (regionOf_attr_iff.mpr ⟨hx, ha⟩) (decide_eq_true hi)

theorem step_write_weight {i : Nat} (hp : s.plan = .write addr v :: rest) (hx : i < 511)
    (ha : addr.toNat = 0x401 + 2 * i) (hi : s.ph = .idle) : step s = .next (reopenTree
      { s with plan := rest, resp := .done, nm := nmSet s.nm i { nmGet s.nm i with weight := v } }) :=
  step_write_performed hp (regionOf_weight_iff.mpr ⟨hx, ha⟩) (decide_eq_true hi)

/-- Settles O8: one equation per region, and read-after-write in the array it stores to. -/
theorem writesStoreWhatTheRuleSays : Obligations.WritesStoreWhatTheRuleSays := by
  intro s addr v rest h hp
  refine ⟨step_write_refused hp, step_write_cmd hp, step_write_ctsel hp, fun x hx ha hi => ?_, fun i hx ha hi => ?_,
    fun i hx ha hi => ?_⟩
  · exact ⟨_, step_write_ft hp hx ha hi, fun y => ftGet_ftSet h.ftWf x y v⟩
  · have hnew : nmGet (nmSet s.nm i (withAttr (nmGet s.nm i) v)) i = withAttr (nmGet s.nm i) v :=
      Memory.get_set_self _ _ _ h.nmWf
    refine ⟨_, step_write_attr hp hx ha hi, fun j hj => nmGet_nmSet_ne _ _ hj, ?_⟩
    rw [hnew]
    exact ⟨rfl, attrWord_withAttr _ v⟩
  · exact ⟨_, step_write_weight hp hx ha hi, fun j hj => nmGet_nmSet_ne _ _ hj, Memory.get_set_self _ _ _ h.nmWf⟩

end Sys2Proof.Machine
end

section
/-! PROOF. Requests of a running command that get no answer or an `err`, and what a turn leaves unchanged
(20_memory.md R42, 60_exceptions.md R94). -/

namespace Sys2Proof.Machine

variable {s t : State} {r : Reply}

/-! ### The request at each point -/

theorem askItem_waits {α : Type} {src : Option (List α)} (h : src = none ∨ r = .silent) : askItem r src = .waiting :=
  askItem_eq_waiting.mpr (h.imp_right .inl)

/-- The points at which SI is asked (40_freq.md R56, 43_encoder.md R74). -/
theorem microStep_si (hp : s.pt = .f0 ∨ s.pt = .f1 ∨ s.pt = .e0 ∨ s.pt = .e1) :
    (∀ r, s.si = none ∨ r = .silent → microStep r s = .next s) ∧
    (s.si ≠ none → microStep .err s = .next (raiseFault .siErr 0 s)) := by
  rcases hp with hp | hp | hp | hp <;>
    refine ⟨fun r h => ?_, fun h => ?_⟩ <;> simp only [microStep, hp]
  · rw [stepF0, askMore_eq_waiting.mpr h]
  · rw [stepF0, askMore_eq_err.mpr ⟨rfl, h⟩]
  · rw [stepF1, askItem_waits h]
  · rw [stepF1, askItem_eq_err.mpr ⟨rfl, h⟩]
  · rw [stepE0, askMore_eq_waiting.mpr h]
  · rw [stepE0, askMore_eq_err.mpr ⟨rfl, h⟩]
  · rw [stepE1, askItem_waits h]
  · rw [stepE1, askItem_eq_err.mpr ⟨rfl, h⟩]

/-- The point at which BO is asked (43_encoder.md R74). -/
theorem microStep_bo (hp : s.pt = .e2) :
    (∀ r, s.bo = none ∨ r = .silent → microStep r s = .next s) ∧
    (s.bo ≠ none → microStep .err s = .next (raiseFault .boErr 0 s)) := by
  refine ⟨fun r h => ?_, fun h => ?_⟩ <;> simp only [microStep, hp]
  · rw [stepE2, askPut_eq_waiting.mpr h]
  · rw [stepE2, askPut_eq_err.mpr ⟨rfl, h⟩]

/-- The points at which BI is asked (44_decoder.md R79, R82). -/
theorem microStep_bi (hp : s.pt = .dNoTree ∨ s.pt = .d0 ∨ s.pt = .d1) :
    (∀ r, s.bi = none ∨ r = .silent → microStep r s = .next s) ∧
    (s.bi ≠ none → microStep .err s = .next (raiseFault .biErr 0 s)) := by
  rcases hp with hp | hp | hp <;>
    refine ⟨fun r h => ?_, fun h => ?_⟩ <;> simp only [microStep, hp]
  · rw [stepDNoTree, askMore_eq_waiting.mpr h]
  · rw [stepDNoTree, askMore_eq_err.mpr ⟨rfl, h⟩]
  · rw [stepD0, askMore_eq_waiting.mpr h]
  · rw [stepD0, askMore_eq_err.mpr ⟨rfl, h⟩]
  · rw [stepD1, askItem_waits h]
  · rw [stepD1, askItem_eq_err.mpr ⟨rfl, h⟩]

/-- The point at which SO is asked, when the symbol's node is a record (44_decoder.md R79). -/
theorem microStep_so (hp : s.pt = .d2) (hr : isRecord (emitIndex s).toNat = true) :
    (∀ r, s.so = none ∨ r = .silent → microStep r s = .next s) ∧
    (s.so ≠ none → microStep .err s = .next (raiseFault .soErr 0 s)) := by
  refine ⟨fun r h => ?_, fun h => ?_⟩ <;>
    simp only [microStep, hp, stepD2, hr, Bool.not_true, Bool.false_eq_true, if_false]
  · rw [askPut_eq_waiting.mpr h]
  · rw [askPut_eq_err.mpr ⟨rfl, h⟩]

/-- In a consistent state the symbol due stands in a record: the root of the checked tree, or a node reached from
it. -/
theorem Consistent.isRecord_emitIndex (h : Consistent s) (hp : s.pt = .d2) : isRecord (emitIndex s).toNat = true := by
  have hc := treeConditions_of_check (h.tree.finalChecked (h.points.treeAtBits (.inr (.inr hp))))
  refine decide_eq_true (hc.records _ ?_)
  cases hl : rootIsLeaf s with
  | true =>
    rw [emitIndex, if_pos hl]
    exact ⟨[], rfl⟩
  | false =>
    rw [emitIndex, hl, if_neg Bool.false_ne_true]
    exact ((h.points.cursorAtSymbol hp).2 hl).1

/-- Settles O55: at each point the port asked there does not answer. -/
theorem unansweredRequestsWait : Obligations.UnansweredRequestsWait := by
  intro s r h hb
  rw [engineTurn_of_busy hb]
  exact ⟨fun hp hw => (microStep_si hp).1 r hw.symm, fun hp hw => (microStep_bo hp).1 r hw.symm,
    fun hp hw => (microStep_bi hp).1 r hw.symm, fun hp hw => (microStep_so hp (h.isRecord_emitIndex hp)).1 r hw.symm⟩

/-! ### Port faults -/

theorem raiseFault_recorded (c : Cause) (info : BitVec 16) (s : State) :
    FaultRecorded (raiseFault c info s) c info.toNat :=
  ⟨rfl, errWord_toNat c s.op info⟩

/-- A fault without INFO is recorded and changes nothing else (60_exceptions.md R95). -/
theorem engineTurn_faults {c : Cause} (hb : s.ph = .busy) (hm : microStep r s = .next (raiseFault c 0 s)) :
    ∃ t, engineTurn r s = .next t ∧ FaultRecorded t c 0 ∧ t = { s with ph := .fault, pt := .rest, err := t.err } :=
  ⟨_, (engineTurn_of_busy hb).trans hm, raiseFault_recorded c 0 s, rfl⟩

/-- Settles O56: at each point the port asked there answers `err`. -/
theorem errAnswersRaiseThePortsFault : Obligations.ErrAnswersRaiseThePortsFault := by
  intro s h hb
  exact ⟨fun hp hs => engineTurn_faults hb ((microStep_si hp).2 hs),
    fun hp hs => engineTurn_faults hb ((microStep_bo hp).2 hs),
    fun hp hs => engineTurn_faults hb ((microStep_bi hp).2 hs),
    fun hp hs => engineTurn_faults hb ((microStep_so hp (h.isRecord_emitIndex hp)).2 hs)⟩

/-! ### Frames -/

/-- A turn at a point of FREQ (40_freq.md R55). -/
theorem MicroTo.freq_frame (m : MicroTo s t) (h : s.pt.opcode = 0x02) :
    t = { s with ft := t.ft, si := t.si, ph := t.ph, done := t.done, err := t.err, pt := t.pt } := by
  cases m with
  | noCode hp | startsCode hp | emptyCode hp | sendsBit hp | sendsLastBit hp | bitAtLeafRoot hp | bitToLeaf hp
  | bitToInner hp | givesSymbol hp => rw [hp] at h; exact absurd h (by decide)
  | _ => rfl

/-- A turn at a point of ENC (43_encoder.md R73). -/
theorem MicroTo.enc_frame (m : MicroTo s t) (h : s.pt.opcode = 0x05) :
    t = { s with
      si := t.si, bo := t.bo, esym := t.esym, epos := t.epos, ph := t.ph, done := t.done, err := t.err, pt := t.pt } := by
  cases m with
  | counts hp | bitAtLeafRoot hp | bitToLeaf hp | bitToInner hp | givesSymbol hp =>
    rw [hp] at h; exact absurd h (by decide)
  | _ => rfl

/-- A turn at a point of DEC (44_decoder.md R78). -/
theorem MicroTo.dec_frame (m : MicroTo s t) (h : s.pt.opcode = 0x06) :
    t = { s with bi := t.bi, so := t.so, cur := t.cur, ph := t.ph, done := t.done, err := t.err, pt := t.pt } := by
  cases m with
  | countOverflows hp | counts hp | noCode hp | startsCode hp | emptyCode hp | sendsBit hp | sendsLastBit hp =>
    rw [hp] at h; exact absurd h (by decide)
  | _ => rfl

/-- Settles O58: OP names the command of the point, and the micro-steps at its points write what is named. -/
theorem engineTurnFrames : Obligations.EngineTurnFrames := by
  intro s t r h hb e
  rw [engineTurn_of_busy hb] at e
  have m := microStep_to e
  have hop := h.op_eq hb
  exact ⟨fun ho => m.freq_frame (hop.symm.trans ho), fun ho => m.enc_frame (hop.symm.trans ho),
    fun ho => m.dec_frame (hop.symm.trans ho)⟩

end Sys2Proof.Machine
end

section
/-! PROOF. Command words and the commands they spell (30_encoding.md R44 to R47, 45_control.md R89). -/

namespace Sys2Proof.Machine

variable {v : Word} {i j : Instr}

/-! ### Round trips -/

/-- Settles O2, constructor by constructor. -/
theorem decodeOfEncodeIsTheCommand : Obligations.DecodeOfEncodeIsTheCommand
  | .clr => Laws.Roundtrip.clr
  | .freq => Laws.Roundtrip.freq
  | .build => Laws.Roundtrip.build
  | .gen => Laws.Roundtrip.gen
  | .enc => Laws.Roundtrip.enc
  | .dec => Laws.Roundtrip.dec
  | .fin idx => Laws.Roundtrip.fin idx

/-- A word of format Z is its opcode alone: its other bits are 0 (R44). -/
theorem toNat_of_decodeZ (h : decodeZ v j = .ok i) : v.toNat = (opcodeField v).toNat := by
  have hz : zeroFieldZ v = 0 := by
    by_contra hz
    rw [decodeZ, if_neg hz] at h
    cases h
  rw [zeroFieldZ_eq_zero] at hz
  rw [opcodeField_toNat]
  omega

/-- A word that spells FIN holds its opcode and an index below 512 (R44, R45). -/
theorem fin_of_decodeX (hop : (opcodeField v).toNat = 7) (h : decodeX v = .ok i) :
    ∃ idx < 512, i = .fin idx ∧ v.toNat = idx * 65536 + 7 := by
  rw [decodeX] at h
  split at h
  case isTrue hz =>
    obtain ⟨hlow, hhigh⟩ := hz
    cases h
    rw [zeroFieldXLow_eq_zero] at hlow
    rw [zeroFieldXHigh_eq_zero] at hhigh
    rw [opcodeField_toNat] at hop
    refine ⟨_, (indexField v).isLt, rfl, ?_⟩
    rw [indexField_toNat]
    omega
  case isFalse => cases h

/-- Settles O3: OPC selects the format, and the must-be-zero bits leave room for the command's own fields only. -/
theorem encodeOfDecodeIsTheWord : Obligations.EncodeOfDecodeIsTheWord := by
  intro v i h
  rw [decode] at h
  split at h
  case h_7 hop =>
    obtain ⟨idx, hlt, rfl, hv⟩ := fin_of_decodeX hop h
    refine ⟨decide_eq_true hlt, BitVec.eq_of_toNat_eq ?_⟩
    rw [encode_fin_toNat, hv, Nat.mod_eq_of_lt hlt]
  case h_8 => cases h
  all_goals
    rename_i hop
    obtain rfl := decodeZ_eq_ok h
    exact ⟨rfl, BitVec.eq_of_toNat_eq ((toNat_of_decodeZ h).trans hop).symm⟩

/-- Settles O1: the fourteen words, each decoded. -/
theorem commandWordsSpellTheirCommands : Obligations.CommandWordsSpellTheirCommands :=
  ⟨rfl, rfl, rfl, rfl, rfl, rfl, rfl, rfl, rfl, rfl, rfl, rfl, rfl, rfl⟩

/-! ### Illegal words (R47) -/

theorem decodeZ_illegal_iff : (∃ e, decodeZ v i = .error e) ↔ v.toNat / 256 ≠ 0 := by
  rw [ne_eq, ← zeroFieldZ_eq_zero, decodeZ]
  split
  case isTrue hz => exact iff_of_false nofun (not_not.mpr hz)
  case isFalse hz => exact iff_of_true ⟨_, rfl⟩ hz

theorem decodeX_illegal_iff :
    (∃ e, decodeX v = .error e) ↔ (v.toNat / 33554432 ≠ 0 ∨ v.toNat / 256 % 256 ≠ 0) := by
  rw [ne_eq, ne_eq, ← zeroFieldXHigh_eq_zero, ← zeroFieldXLow_eq_zero, ← not_and_or, and_comm, decodeX]
  split
  case isTrue hz => exact iff_of_false nofun (not_not.mpr hz)
  case isFalse hz => exact iff_of_true ⟨_, rfl⟩ hz

/-- The words that spell no command, by opcode and must-be-zero bits. -/
theorem decode_illegal_iff : (∃ e, decode v = .error e) ↔
    (v.toNat % 256 = 0 ∨ 8 ≤ v.toNat % 256 ∨
      (1 ≤ v.toNat % 256 ∧ v.toNat % 256 ≤ 6 ∧ v.toNat / 256 ≠ 0) ∨
      (v.toNat % 256 = 7 ∧ (v.toNat / 33554432 ≠ 0 ∨ v.toNat / 256 % 256 ≠ 0))) := by
  rw [decode, opcodeField_toNat]
  split
  case h_7 hop => rw [decodeX_illegal_iff]; omega
  case h_8 =>
    refine iff_of_true ⟨_, rfl⟩ ?_
    simp only [imp_false] at *
    omega
  all_goals
    rw [decodeZ_illegal_iff]
    omega

/-- What the issue of an illegal word in IDLE leaves (45_control.md R88, R89 (a)). -/
theorem step_write_illegal {s : State} {rest : List Event} (hv : ∃ e, decode v = .error e)
    (hp : s.plan = .write 0 v :: rest) (hi : s.ph = .idle) :
    step s = .next (raiseFault .badCmd (v.extractLsb' 16 16) (accept v { s with plan := rest, resp := .done })) := by
  rw [step_write_cmd hp rfl (.inl hi), issue]
  obtain ⟨e, he⟩ := hv
  rw [he]

/-- INFO of BAD_CMD, `v[31:16]`, as a number. -/
theorem badCmd_info_toNat (v : Word) : (v.extractLsb' 16 16).toNat = v.toNat / 65536 := by
  have := v.isLt
  rw [toNat_field]
  omega

/-- An illegal word is not CLR, so CMD takes it in IDLE only (20_memory.md R31). -/
theorem writeRefusedAt_of_illegal {ph : Phase} (hv : ∃ e, decode v = .error e) (hi : ph ≠ .idle) :
    WriteRefusedAt ph 0x000 v := by
  cases ph with
  | idle => exact absurd rfl hi
  | busy => exact .inr (.inr (.inr (.inr (.inl rfl))))
  | fault =>
    refine .inr (.inr (.inr (.inr (.inr ⟨rfl, by decide, fun ⟨_, h1⟩ => ?_⟩))))
    obtain ⟨e, he⟩ := hv
    rw [h1, decode_one] at he
    cases he

/-- Settles O4: the illegal words case by case, then the write to CMD by run state. -/
theorem illegalWordsRaiseBadCmd : Obligations.IllegalWordsRaiseBadCmd := by
  refine ⟨fun v => decode_illegal_iff, fun s v rest hv hp => ⟨fun hi => ?_, fun hi => ?_⟩⟩
  · refine ⟨_, step_write_illegal hv hp hi, opcodeField_eq v, ?_, rfl⟩
    rw [← badCmd_info_toNat]
    exact raiseFault_recorded _ _ _
  · exact step_write_refused hp (writeRefusedAt_of_illegal hv hi)

end Sys2Proof.Machine
end

section
/-! PROOF. How node records and code-table entries are laid out in words (30_encoding.md R48, R49). -/

namespace Sys2Proof.Machine

/-! ### The ATTR word -/

/-- A field of a word is known by its number (00_scope.md R5). -/
theorem extractLsb'_eq {n start : Nat} {w : Word} {f : BitVec n} (h : w.toNat / 2 ^ start % 2 ^ n = f.toNat) :
    w.extractLsb' start n = f := BitVec.eq_of_toNat_eq ((toNat_field w start n).trans h)

/-- A bit of a word is known by its number (00_scope.md R5). -/
theorem getLsbD_eq {b : Nat} {w : Word} {f : Bool} (h : w.toNat / 2 ^ b % 2 = f.toNat) : w.getLsbD b = f :=
  Function.LeftInverse.injective Bool.ofNat_toNat ((Nat.toNat_testBit w.toNat b).trans h)

/-- The six fields of a record are read back from its ATTR word. -/
theorem withAttr_attrWord (nd : Node) : withAttr nd (attrWord nd) = nd := by
  have hw := attrWord_toNat nd
  have hs := nd.sym.isLt
  have hl := nd.left.isLt
  have hr := nd.right.isLt
  have hbs := nd.hasSym.toNat_le
  have hbl := nd.hasLeft.toNat_le
  have hbr := nd.hasRight.toNat_le
  rw [withAttr, extractLsb'_eq (f := nd.sym), extractLsb'_eq (f := nd.left), extractLsb'_eq (f := nd.right),
    getLsbD_eq (f := nd.hasSym), getLsbD_eq (f := nd.hasLeft), getLsbD_eq (f := nd.hasRight)]
  all_goals omega

theorem attrWord_leafNode_toNat (x : Sym) (c : Word) : (attrWord (leafNode x c)).toNat = 0x00000100 + x.toNat := by
  rw [attrWord_toNat]
  simp only [leafNode, Node.zero, Bool.toNat_true, Bool.toNat_false, BitVec.ofNat_eq_ofNat, BitVec.toNat_zero]
  omega

theorem attrWord_innerNode_toNat (l r : Idx) (w : Word) :
    (attrWord (innerNode l r w)).toNat = 0x10040000 + 2 ^ 19 * r.toNat + 2 ^ 9 * l.toNat := by
  rw [attrWord_toNat]
  simp only [innerNode, Node.zero, Bool.toNat_true, Bool.toNat_false, BitVec.ofNat_eq_ofNat, BitVec.toNat_zero]
  omega

/-! ### The records BUILD writes -/

/-- Every record of a grown forest is a leaf below `k`, an inner node from there to `n`, and 0 from `n` on. -/
theorem Grown.canonical_record {ft : Memory Word} {f : Forest} {ts : List Shape} (h : Grown ft f ts) (i : Nat) :
    nmGet f.nm i = Node.zero ∨ (∃ x c, nmGet f.nm i = leafNode x c) ∨ ∃ l r w, nmGet f.nm i = innerNode l r w := by
  by_cases hleaf : i < (presentSymbols ft).length
  · exact .inr (.inl ⟨_, _, h.leaves i hleaf⟩)
  by_cases hinner : i < f.next
  · obtain ⟨-, -, -, hrec⟩ := h.inner i (Nat.le_of_not_lt hleaf) hinner
    exact .inr (.inr ⟨_, _, _, hrec⟩)
  · exact .inl (Memory.get_of_bound _ h.within (Nat.le_of_not_lt hinner))

/-- However merging ends, an overflow included, NM is that of a grown forest (41_tree_build.md R63). -/
theorem mergeAll_nm_grown (ft : Memory Word) : ∃ f ts, Grown ft f ts ∧
    ∀ g, (mergeAll (seed ft).pq.length (seed ft) = .done g ∨ mergeAll (seed ft).pq.length (seed ft) = .overflow g) →
      g.nm = f.nm := by
  rcases mergeAll_grown (seed_grown ft) le_rfl with ⟨g', ts, e, hg, -⟩ | ⟨f, ts, g', e, hf, hm⟩
  · refine ⟨g', ts, hg, fun g h => ?_⟩
    rw [e] at h
    rcases h with h | h <;> cases h
    rfl
  · refine ⟨f, ts, hf, fun g h => ?_⟩
    rw [e] at h
    rcases h with h | h <;> cases h
    exact (mergeOnce_overflow hf hm).1

/-- NM after BUILD is that of a grown forest. -/
theorem CommandTo.build_nm_grown {s t : State} (c : CommandTo s .build t) : ∃ f ts, Grown s.ft f ts ∧ t.nm = f.nm := by
  obtain ⟨f, ts, hf, hnm⟩ := mergeAll_nm_grown s.ft
  refine ⟨f, ts, hf, ?_⟩
  cases c with
  | buildTree hm => exact hnm _ (.inl hm)
  | buildNone hm => exact hnm _ (.inl hm)
  | buildOverflow hm => exact hnm _ (.inr hm)

/-- Settles O9: the ATTR word field by field, the addresses, and the records of BUILD's forest. -/
theorem nodeRecordLayout : Obligations.NodeRecordLayout := by
  refine ⟨attrWord_toNat, fun nd v => ⟨attrWord_withAttr nd v, rfl⟩, withAttr_attrWord, fun i hi => ⟨?_, ?_⟩,
    fun _ _ => ⟨rfl, rfl⟩, attrWord_leafNode_toNat, attrWord_innerNode_toNat, fun s t e i => ?_⟩
  · exact regionOf_attr_iff.mpr ⟨hi, by rw [BitVec.toNat_ofNat]; omega⟩
  · exact regionOf_weight_iff.mpr ⟨hi, by rw [BitVec.toNat_ofNat]; omega⟩
  · obtain ⟨f, ts, hf, hnm⟩ := (exec_to e).build_nm_grown
    rw [hnm]
    exact hf.canonical_record i

/-! ### The window on CT -/

theorem ctlenWord_toNat (e : CodeEntry) : (ctlenWord e).toNat = e.len.toNat + 2 ^ 31 * e.valid.toNat := by
  simp only [ctlenWord, toNat_concat, BitVec.toNat_ofBool, BitVec.toNat_ofNat]
  omega

theorem bitsValue_cons (c : Bool) (l : List Bool) : bitsValue (c :: l) = Nat.bit c (bitsValue l) := by
  rw [bitsValue, Nat.bit_val, Nat.add_comm]
  cases c <;> rfl

/-- Bit `b` of the number a bit sequence spells is the sequence's bit `b`, and 0 beyond its end. -/
theorem testBit_bitsValue (l : List Bool) (b : Nat) : (bitsValue l).testBit b = l.getD b false := by
  induction l generalizing b with
  | nil => rw [bitsValue, Nat.zero_testBit, List.getD_nil]
  | cons c l ih =>
    cases b with
    | zero => rw [bitsValue_cons, Nat.testBit_bit_zero, List.getD_cons_zero]
    | succ b => rw [bitsValue_cons, Nat.testBit_bit_succ, ih, List.getD_cons_succ]

/-- CTBITSj bit by bit (R49). -/
theorem ctbitsWord_getLsbD (e : CodeEntry) (j : Nat) {b : Nat} (hb : b < 32) :
    (ctbitsWord e j).getLsbD b = (decide (32 * j + b < e.len.toNat) && e.bits.getD (32 * j + b) false) := by
  rw [ctbitsWord, BitVec.getLsbD_ofNat, testBit_bitsValue]
  by_cases hlen : 32 * j + b < e.len.toNat <;>
    simp [hb, hlen, List.getD_eq_getElem?_getD, List.getElem?_drop]

/-- Settles O10: the two words of an entry bit by bit, and where they stand. -/
theorem codeWindowLayout : Obligations.CodeWindowLayout := by
  refine ⟨ctlenWord_toNat, fun e j b _ hb => ctbitsWord_getLsbD e j hb, rfl, fun j => ?_, rfl, fun j hj => ?_,
    fun _ => ⟨rfl, fun _ => rfl⟩⟩
  · simp [ctbitsWord, CodeEntry.invalid, bitsValue]
  · exact regionOf_ctbits_iff.mpr ⟨hj, by rw [BitVec.toNat_ofNat]; omega⟩

end Sys2Proof.Machine
end

section
/-! PROOF. FREQ: its micro-steps on an answering source, the counting of a whole input, and that the order of the
input leaves no trace (40_freq.md R55 to R57). -/

namespace Sys2Proof.Machine

variable {s t u : State} {x : Sym} {xs ys : List Sym} {m m' : Memory Word}

/-! ### The micro-steps -/

/-- A step of a running command with nothing planned (log entry 2). -/
theorem step_of_running (hb : s.ph = .busy) (hp : s.plan = []) : step s = microStep .answer s :=
  (step_of_noPlan hp).trans (engineTurn_of_busy hb)

/-- F0, answered true (R56). -/
theorem microStep_f0_more (hp : s.pt = .f0) (hi : s.si = some (x :: xs)) :
    microStep .answer s = .next (goto .f1 s) := by
  simp only [microStep, hp, stepF0, askMore_eq_got.mpr ⟨rfl, _, hi, rfl⟩, List.isEmpty_cons, Bool.not_false]

/-- F0, answered false (R56). -/
theorem microStep_f0_end (hp : s.pt = .f0) (hi : s.si = some []) : microStep .answer s = .next (complete s) := by
  simp only [microStep, hp, stepF0, askMore_eq_got.mpr ⟨rfl, _, hi, rfl⟩, List.isEmpty_nil, Bool.not_true]

/-- `FT[x] <- FT[x] + 1` (R55). -/
def increment (m : Memory Word) (x : Sym) : Memory Word := ftSet m x.toNat (ftGet m x.toNat + 1)

/-- F1 with a count below `W_MAX` (R55). -/
theorem microStep_f1_counts (hp : s.pt = .f1) (hi : s.si = some (x :: xs))
    (hc : (ftGet s.ft x.toNat).toNat < Config.wMax) :
    microStep .answer s = .next (goto .f0 { s with si := some xs, ft := increment s.ft x }) := by
  simp only [microStep, hp, stepF1, askItem_eq_got.mpr ⟨rfl, hi⟩, countSymbol, if_neg hc.ne, increment]

/-- F1 with the count at `W_MAX`: the symbol has been taken (R55). -/
theorem microStep_f1_overflows (hp : s.pt = .f1) (hi : s.si = some (x :: xs))
    (hc : (ftGet s.ft x.toNat).toNat = Config.wMax) :
    microStep .answer s = .next (raiseFault .countOvf (x.setWidth 16) { s with si := some xs }) := by
  simp only [microStep, hp, stepF1, askItem_eq_got.mpr ⟨rfl, hi⟩, countSymbol, if_pos hc]

/-! ### The counts -/

theorem increment_wf (hw : Memory.wf 0 m) (x : Sym) : Memory.wf 0 (increment m x) := Memory.set_wf _ _ hw

theorem increment_within (hm : Memory.within Config.nSymbols m) (x : Sym) :
    Memory.within Config.nSymbols (increment m x) := Memory.set_within hm x.isLt

/-- Below `W_MAX` the increment does not wrap around. -/
theorem ftGet_increment (hw : Memory.wf 0 m) (hc : (ftGet m x.toNat).toNat < Config.wMax) (y : Nat) :
    (ftGet (increment m x) y).toNat = (ftGet m y).toNat + if y = x.toNat then 1 else 0 := by
  rw [increment, ftGet_ftSet hw]
  split_ifs with hy
  · subst hy
    exact BitVec.toNat_add_of_lt (Nat.succ_lt_succ hc)
  · rfl

/-- Settles O28: the micro-step at each point, and the increment entry by entry. -/
theorem freqMicroSteps : Obligations.FreqMicroSteps := by
  intro s rest h hb hp
  have turn : step s = microStep .answer { s with plan := rest } := (step_of_plan hp).trans (engineTurn_of_busy hb)
  rw [turn]
  refine ⟨fun hf x xs hi => microStep_f0_more hf hi, fun hf hi => microStep_f0_end hf hi,
    fun hf x xs hi hc => ⟨increment s.ft x, microStep_f1_counts hf hi hc, ftGet_increment h.ftWf hc⟩,
    fun hf x xs hi hc => ⟨_, microStep_f1_overflows hf hi hc, ?_, rfl⟩⟩
  have hx : (x.setWidth 16).toNat = x.toNat := BitVec.toNat_setWidth_of_le (by decide)
  exact hx ▸ raiseFault_recorded .countOvf (x.setWidth 16) _

/-! ### A whole input counted -/

/-- FREQ between two symbols, with the counts `m` so far and the symbols `xs` to come. -/
def countingAt (s : State) (m : Memory Word) (xs : List Sym) : State := { s with ft := m, si := some xs, pt := .f0 }

theorem countingAt_end (hb : s.ph = .busy) (hp : s.plan = []) :
    Reaches (countingAt s m []) (complete (countingAt s m [])) := by
  apply Reaches.step
  rw [step_of_running (s := countingAt s m []) hb hp]
  exact microStep_f0_end rfl rfl

/-- F0 and F1 count one symbol. -/
theorem countingAt_next (hb : s.ph = .busy) (hp : s.plan = []) (hc : (ftGet m x.toNat).toNat < Config.wMax) :
    Reaches (countingAt s m (x :: xs)) (countingAt s (increment m x) xs) := by
  have f0 : step (countingAt s m (x :: xs)) = .next (goto .f1 (countingAt s m (x :: xs))) := by
    rw [step_of_running (s := countingAt s m (x :: xs)) hb hp]
    exact microStep_f0_more rfl rfl
  have f1 : step (goto .f1 (countingAt s m (x :: xs))) = .next (countingAt s (increment m x) xs) := by
    rw [step_of_running (s := goto .f1 (countingAt s m (x :: xs))) hb hp]
    exact microStep_f1_counts rfl rfl hc
  exact .head f0 (.step f1)

/-- FREQ adds the occurrences of every symbol to its count, when no count passes `W_MAX`. -/
theorem countingAt_completes (hb : s.ph = .busy) (hp : s.plan = []) (hw : Memory.wf 0 m)
    (hm : Memory.within Config.nSymbols m) (hc : ∀ y : Sym, (ftGet m y.toNat).toNat + xs.count y ≤ Config.wMax) :
    ∃ m', (∀ y : Sym, (ftGet m' y.toNat).toNat = (ftGet m y.toNat).toNat + xs.count y) ∧ Memory.wf 0 m' ∧
      Memory.within Config.nSymbols m' ∧ Reaches (countingAt s m xs) (complete (countingAt s m' [])) := by
  induction xs generalizing m with
  | nil => exact ⟨m, fun y => by simp, hw, hm, countingAt_end hb hp⟩
  | cons x xs ih =>
    have hx : (ftGet m x.toNat).toNat < Config.wMax := by
      have := hc x
      rw [List.count_cons_self] at this
      omega
    have hcount (y : Sym) : (ftGet (increment m x) y.toNat).toNat + xs.count y =
        (ftGet m y.toNat).toNat + (x :: xs).count y := by
      rw [ftGet_increment hw hx, List.count_cons]
      simp only [BitVec.toNat_inj, beq_iff_eq, eq_comm (a := y)]
      omega
    obtain ⟨m', hget, hw', hm', hr⟩ :=
      ih (increment_wf hw x) (increment_within hm x) fun y => (hcount y).trans_le (hc y)
    exact ⟨m', fun y => (hget y).trans (hcount y), hw', hm', (countingAt_next hb hp hx).trans hr⟩

/-- Settles O27: FREQ counts from an FT of zeros. -/
theorem freqCountsTheInput : Obligations.FreqCountsTheInput := by
  intro s xs hb hp hi hc
  obtain ⟨m, hget, hw, hm, hr⟩ :=
    countingAt_completes hb hp (Memory.nil_wf 0) (Memory.nil_within _) (xs := xs) fun y => by simpa using hc y
  refine ⟨rfl, m, fun y => by simpa using hget y, hw, hm, ?_⟩
  rw [countingAt, ← hi] at hr
  exact hr

/-! ### Where a run comes to rest -/

/-- With nothing planned, an engine that is not BUSY waits for good (10_state.md R18). -/
theorem Reaches.eq_of_notBusy (h : Reaches s t) (hb : s.ph ≠ .busy) (hp : s.plan = []) : t = s := by
  obtain ⟨k, hk⟩ := h
  induction k with
  | zero => cases hk; rfl
  | succ k ih => exact ih (by rwa [run_succ k ((step_of_noPlan hp).trans (engineTurn_of_notBusy hb))] at hk)

theorem MicroTo.plan (m : MicroTo s t) : t.plan = s.plan := by
  cases m <;> rfl

/-- The machine adds nothing to the outside's plan: with nothing planned, a step is a turn of the engine. -/
theorem StepTo.noPlan (d : StepTo s t) (hp : s.plan = []) : t.plan = [] := by
  cases d with
  | idles hb => rw [taken_of_noPlan hp, hp]
  | runs hb hm => rw [hm.plan, taken_of_noPlan hp, hp]
  | _ => cases hp.symm.trans ‹s.plan = _ :: _›

theorem Reaches.noPlan (h : Reaches s t) (hp : s.plan = []) : t.plan = [] := by
  obtain ⟨k, hk⟩ := h
  induction k generalizing s with
  | zero => cases hk; exact hp
  | succ k ih =>
    obtain ⟨v, hv, hk⟩ := run_succ_inv k hk
    exact ih ((step_to hv).noPlan hp) hk

/-- The machine is deterministic: of two states it reaches, one lies on the way to the other. -/
theorem Reaches.linear (h : Reaches s t) (h' : Reaches s u) : Reaches t u ∨ Reaches u t := by
  obtain ⟨k, hk⟩ := h
  induction k generalizing s with
  | zero => cases hk; exact .inl h'
  | succ k ih =>
    obtain ⟨v, hv, hk'⟩ := run_succ_inv k hk
    obtain ⟨j, hj⟩ := h'
    cases j with
    | zero => cases hj; exact .inr ⟨_, hk⟩
    | succ j => exact ih ⟨j, by rwa [run_succ j hv] at hj⟩ hk'

/-- With nothing planned, a run comes to rest in one state at most. -/
theorem Reaches.rest_unique (h : Reaches s t) (h' : Reaches s u) (hp : s.plan = []) (ht : t.ph ≠ .busy)
    (hu : u.ph ≠ .busy) : t = u := by
  rcases h.linear h' with hr | hr
  · exact (hr.eq_of_notBusy ht (h.noPlan hp)).symm
  · exact hr.eq_of_notBusy hu (h'.noPlan hp)

/-! ### Equal counts, equal FT -/

/-- The counts of an input decide FT as data, whatever the order of the input (R57). -/
theorem CountsInput.eq_of_perm (h : CountsInput m xs) (h' : CountsInput m' ys) (hxy : xs.Perm ys) (hw : Memory.wf 0 m)
    (hw' : Memory.wf 0 m') (hm : Memory.within Config.nSymbols m) (hm' : Memory.within Config.nSymbols m') :
    m = m' := by
  refine Memory.ext_get hw hw' fun k => ?_
  by_cases hk : k < 256
  · have hx := (h (BitVec.ofNat 8 k)).trans ((hxy.count_eq _).trans (h' (BitVec.ofNat 8 k)).symm)
    rw [BitVec.toNat_ofNat, Nat.mod_eq_of_lt hk] at hx
    exact BitVec.eq_of_toNat_eq hx
  · rw [Memory.get_of_bound 0 hm (Nat.le_of_not_lt hk), Memory.get_of_bound 0 hm' (Nat.le_of_not_lt hk)]

/-- Settles O29: both runs come to rest with the counts of their inputs, which are equal. -/
theorem freqForgetsTheOrder : Obligations.FreqForgetsTheOrder := by
  intro s xs ys t t' u u' hb hp hxy hc ht ht' hu hiu hu' hiu'
  obtain ⟨e, m, hx, hw, hm, hr⟩ := freqCountsTheInput { s with si := some xs } xs hb hp rfl hc
  obtain ⟨e', m', hy, hw', hm', hr'⟩ :=
    freqCountsTheInput { s with si := some ys } ys hb hp rfl fun y => (hxy.count_eq y).symm.trans_le (hc y)
  cases e.symm.trans ht
  cases e'.symm.trans ht'
  rw [hu.rest_unique hr hp (by simp [hiu]) (by simp), hu'.rest_unique hr' hp (by simp [hiu']) (by simp)]
  exact hx.eq_of_perm hy hxy hw hw' hm hm'

end Sys2Proof.Machine
end

section
/-! PROOF. What each command leaves unchanged from its acceptance on: the 'Written' and 'Not written' lines of the
commands' rules. -/

namespace Sys2Proof.Machine

variable {s t : State}

/-- BUILD (41_tree_build.md R58). -/
theorem CommandTo.build_frame (c : CommandTo s .build t) : t = { s with
    nm := t.nm, ts := t.ts, root := t.root, nsym := t.nsym, ct := [], pq := t.pq, next := t.next,
    ph := t.ph, done := t.done, err := t.err, pt := t.pt } := by
  cases c <;> rfl

/-- GEN (42_code_table.md R68). -/
theorem CommandTo.gen_frame (c : CommandTo s .gen t) :
    t = { s with ct := t.ct, ph := t.ph, done := t.done, err := t.err, pt := t.pt } := by
  cases c <;> rfl

/-- DEC (44_decoder.md R78). -/
theorem CommandTo.dec_frame (c : CommandTo s .dec t) :
    t = { s with cur := t.cur, ph := t.ph, err := t.err, pt := t.pt } := by
  cases c <;> rfl

/-- FIN (41_tree_build.md R65). -/
theorem CommandTo.fin_frame {idx : Nat} (c : CommandTo s (.fin idx) t) : t = { s with
    ts := t.ts, root := t.root, nsym := t.nsym, ct := [], ph := t.ph, done := t.done, err := t.err, pt := t.pt } := by
  cases c <;> rfl

/-- Settles O57: CLR, FREQ and ENC have one end each; the others' ends are read off `CommandTo`. -/
theorem commandFrames : Obligations.CommandFrames := by
  intro s t idx
  refine ⟨fun h => ?_, fun h => ?_, fun h => (exec_to h).build_frame, fun h => (exec_to h).gen_frame, fun h => ?_,
    fun h => (exec_to h).dec_frame, fun h => (exec_to h).fin_frame⟩
  · cases exec_to h; rfl
  · cases exec_to h; rfl
  · cases exec_to h; rfl

end Sys2Proof.Machine
end

section
/-! PROOF. BUILD: the queue, the leaves, the overflow fault, and the finished tree (41_tree_build.md R58 to R64). -/

namespace Sys2Proof.Machine

variable {s : State} {ft : Memory Word} {f g : Forest} {ts : List Shape}

/-! ### The queue -/

/-- Settles O30: `removeMin` answers on a non-empty queue, and its answer comes before all others. -/
theorem removeMinFollowsTheOrder : Obligations.RemoveMinFollowsTheOrder := by
  intro nm pq hne
  obtain ⟨⟨a, q⟩, hm⟩ := Option.ne_none_iff_exists'.mp (mt removeMin_eq_none.mp hne)
  obtain ⟨hmem, hq, hbefore⟩ := removeMin_spec hm
  refine ⟨a, q, hm, hmem, hq, fun y hy hya => ?_⟩
  rcases comesBefore_iff.mp (hbefore y hy hya) with hlt | ⟨heq, hgt⟩
  · exact .inl hlt
  · exact .inr ⟨BitVec.eq_of_toNat_eq heq, hgt⟩

/-! ### The leaves -/

/-- BUILD always answers with a next state. -/
theorem execBuild_next (s : State) : ∃ t, exec .build s = .next t := by
  rcases execBuild_cases s with ⟨g, -, e⟩ | ⟨g, -, e⟩
  · exact ⟨_, e⟩
  · exact ⟨_, e⟩

theorem presentSymbols_ascending (ft : Memory Word) : (presentSymbols ft).Pairwise (· < ·) :=
  List.pairwise_lt_range.filter _

/-- Settles O31: NM after BUILD is that of a grown forest, however BUILD ends, and a grown forest keeps the leaves. -/
theorem buildSeedsLeavesInOrder : Obligations.BuildSeedsLeavesInOrder := by
  intro s
  obtain ⟨t, e⟩ := execBuild_next s
  obtain ⟨f, ts, hf, hnm⟩ := (exec_to e).build_nm_grown
  exact ⟨t, e, presentSymbols_ascending s.ft, fun x => mem_presentSymbols, hnm ▸ hf.leaves⟩

/-! ### The end of merging -/

/-- In a tree no node is numbered above the root (41_tree_build.md R66, c7). -/
theorem Shape.le_root {nm : Memory Node} {t : Shape} (ht : t.In nm) {i : Nat} (hi : i ∈ t.indices) : i ≤ t.root := by
  induction t with
  | leaf j x => exact (List.mem_singleton.mp hi).le
  | node j l r ihl ihr =>
    obtain ⟨-, -, -, -, -, -, hl, hr, -, hlIn, hrIn⟩ := ht
    simp only [Shape.indices, List.mem_cons, List.mem_append] at hi
    rcases hi with rfl | hi | hi
    · exact le_rfl
    · exact (ihl hlIn hi).trans hl.le
    · exact (ihr hrIn hi).trans hr.le

/-- Every node of a tree is reached from the root. -/
theorem Shape.reachable_of_mem {nm : Memory Node} {t : Shape} (ht : t.In nm) {i : Nat} (hi : i ∈ t.indices) :
    Reachable nm t.root i := by
  induction t with
  | leaf j x => exact ⟨[], congrArg some (List.mem_singleton.mp hi).symm⟩
  | node j l r ihl ihr =>
    have ⟨_, _, _, _, _, _, _, _, _, hlIn, hrIn⟩ := ht
    simp only [Shape.indices, List.mem_cons, List.mem_append] at hi
    rcases hi with rfl | hi | hi
    · exact ⟨[], rfl⟩
    · obtain ⟨p, hp⟩ := ihl hlIn hi
      exact ⟨false :: p, (follow_node ht false p).trans hp⟩
    · obtain ⟨p, hp⟩ := ihr hrIn hi
      exact ⟨true :: p, (follow_node ht true p).trans hp⟩

/-- The one tree merging leaves: its root is the node made last (41_tree_build.md R62), and it has every record below
`n` as a node (R64). -/
theorem Grown.last_is_root {r : Nat} (h : Grown ft f ts) (hq : f.pq = [r]) :
    r + 1 = f.next ∧ ∀ i, i < f.next → Reachable f.nm r i := by
  obtain ⟨t, rfl, rfl⟩ := List.map_eq_singleton_iff.mp (List.perm_singleton.mp (hq ▸ h.roots))
  have ht : t.In f.nm := h.inNm t (List.mem_singleton_self t)
  have hmem : ∀ i, i ∈ t.indices ↔ i < f.next := fun i => by
    rw [← List.mem_range, ← h.indices.mem_iff, List.flatMap_singleton]
  have hroot : t.root < f.next := (hmem _).mp t.root_mem_indices
  have hlast : f.next - 1 ≤ t.root := Shape.le_root ht ((hmem _).mpr (by omega))
  exact ⟨by omega, fun i hi => Shape.reachable_of_mem ht ((hmem i).mpr hi)⟩

/-- The root of the one tree left weighs as much as all counts together (41_tree_build.md R64 (a)). -/
theorem Grown.root_weight {r : Nat} (h : Grown ft f ts) (hq : f.pq = [r]) : weightOf f.nm r = totalCount ft := by
  simpa [hq] using h.weight

/-- A tree is left only when the counts fit (41_tree_build.md R63). -/
theorem Grown.total_le {r : Nat} (h : Grown ft f ts) (hq : f.pq = [r]) : totalCount ft ≤ Config.wMax :=
  h.root_weight hq ▸ Nat.le_of_lt_succ (nmGet f.nm r).weight.isLt

/-- The records from `n` on are 0. -/
theorem Grown.zero_above (h : Grown ft f ts) {i : Nat} (hi : f.next ≤ i) : nmGet f.nm i = Node.zero :=
  Memory.get_of_bound _ h.within hi

/-- An overflow takes the two least nodes out of the queue and puts none in (41_tree_build.md R63). -/
theorem mergeOnce_overflow_queue (hm : mergeOnce f = .overflow g) : g.pq.length + 2 = f.pq.length := by
  unfold mergeOnce at hm
  cases h1 : removeMin f.nm f.pq with
  | none => simp [h1] at hm
  | some aq =>
    obtain ⟨a, q⟩ := aq
    cases h2 : removeMin f.nm q with
    | none => simp [h1, h2] at hm
    | some bq =>
      obtain ⟨b, q'⟩ := bq
      have hlen := ((removeMin_perm h1).trans ((removeMin_perm h2).cons a)).length_eq
      simp only [h1, h2] at hm
      split at hm
      · cases hm
        exact hlen.symm
      · cases hm

/-! ### The ends of BUILD -/

/-- BUILD ends with no tree, with the one tree merging has left, or at the first sum past `W_MAX`
(41_tree_build.md R62, R63). -/
theorem execBuild_ends (s : State) :
    (presentSymbols s.ft = [] ∧ exec .build s = .next (complete (clearForBuild s))) ∨
    (∃ g ts r, Grown s.ft g ts ∧ g.pq = [r] ∧ exec .build s = .next (complete (finaliseTree r
      (presentSymbols s.ft).length (withForest { g with pq := [] } (clearForBuild s))))) ∨
    (∃ f ts g, Grown s.ft f ts ∧ mergeOnce f = .overflow g ∧ exec .build s =
      .next (raiseFault .weightOvf (BitVec.ofNat 16 g.next) (withForest g (clearForBuild s)))) := by
  rw [← (seed_seeded s.ft).next]
  obtain ⟨t, e⟩ := execBuild_next s
  cases exec_to e with
  | @buildTree g r hm hq =>
    obtain ⟨ts, hg, -⟩ := mergeAll_done hm
    exact .inr (.inl ⟨g, ts, r, hg, hq, e⟩)
  | @buildNone g hm hq =>
    obtain ⟨ts, hg, hl⟩ := mergeAll_done hm
    obtain ⟨hpq, hnm⟩ := hg.empty hl hq
    have hnext := hg.next_of_empty hpq
    have hk : (presentSymbols s.ft).length = 0 := by
      have := hg.bound
      rw [hpq, hnext] at this
      simp only [List.length_nil] at this
      omega
    obtain ⟨nm, pq, next⟩ := g
    obtain ⟨rfl, rfl, rfl⟩ := And.intro hpq (And.intro hnm hnext)
    exact .inl ⟨List.length_eq_zero_iff.mp hk, e⟩
  | @buildOverflow g hm =>
    rcases mergeAll_grown (seed_grown s.ft) le_rfl with ⟨g', ts, e', -, -⟩ | ⟨f, ts, g', e', hf, ho⟩
    · cases e'.symm.trans hm
    · obtain rfl := MergeEnd.overflow.inj (e'.symm.trans hm)
      exact .inr (.inr ⟨f, ts, g', hf, ho, e⟩)

/-- When some symbol is present and the counts fit, BUILD finalises the one tree merging has left; its `k` leaves and
`k - 1` inner nodes take the first `2k - 1` records, and its root is the last of them (41_tree_build.md R61, R62). -/
theorem execBuild_tree (hne : presentSymbols s.ft ≠ [])
    (hfit : (presentSymbols s.ft).length < 2 ∨ totalCount s.ft ≤ Config.wMax) :
    ∃ g ts, Grown s.ft g ts ∧ g.next = 2 * (presentSymbols s.ft).length - 1 ∧
      g.pq = [2 * (presentSymbols s.ft).length - 2] ∧
      exec .build s = .next (complete (finaliseTree (2 * (presentSymbols s.ft).length - 2) (presentSymbols s.ft).length
        (withForest ⟨g.nm, [], 2 * (presentSymbols s.ft).length - 1⟩ (clearForBuild s)))) := by
  rcases execBuild_ends s with ⟨hnil, -⟩ | ⟨g, ts, r, hg, hq, e⟩ | ⟨f, ts, g, hf, ho, -⟩
  · exact absurd hnil hne
  · have hb := hg.bound
    have hr := (hg.last_is_root hq).1
    rw [hq, List.length_singleton] at hb
    have hnext : g.next = 2 * (presentSymbols s.ft).length - 1 := by omega
    obtain rfl : r = 2 * (presentSymbols s.ft).length - 2 := by omega
    exact ⟨g, ts, hg, hnext, hq, hnext ▸ e⟩
  · obtain ⟨-, -, hsum, hk, -⟩ := mergeOnce_overflow hf ho
    omega

/-- Settles O32: an overflow needs two symbols and a sum past `W_MAX`; each of the other ends excludes one of them. -/
theorem buildFaultsExactlyOnOverflow : Obligations.BuildFaultsExactlyOnOverflow := by
  intro s
  rcases execBuild_ends s with ⟨hnil, e⟩ | ⟨g, ts, r, hg, hq, e⟩ | ⟨f, ts, g, hf, ho, e⟩
  · exact ⟨fun ⟨hk, _⟩ => by simp [hnil] at hk, fun _ => ⟨_, e, rfl, rfl, rfl⟩⟩
  · exact ⟨fun ⟨_, hsum⟩ => absurd (hg.total_le hq) (Nat.not_le.mpr hsum), fun _ => ⟨_, e, rfl, rfl, rfl⟩⟩
  · obtain ⟨hnm, hnext, hsum, hk, hn⟩ := mergeOnce_overflow hf ho
    have hb := hf.bound
    have hlen := mergeOnce_overflow_queue ho
    rw [← hnext] at hn hb
    have hinfo : (BitVec.ofNat 16 g.next).toNat = g.next := by
      rw [BitVec.toNat_ofNat]; simp only [Config.nodeMax] at hn; omega
    refine ⟨fun _ => ⟨_, e, ?_, hn, fun i hi => ?_, ?_, rfl, rfl, rfl, rfl⟩, fun hno => absurd ⟨hk, hsum⟩ hno⟩
    · have := raiseFault_recorded .weightOvf (BitVec.ofNat 16 g.next) (withForest g (clearForBuild s))
      rwa [hinfo] at this
    · show nmGet g.nm i = Node.zero
      rw [hnm]
      exact hf.zero_above (hnext ▸ hi)
    · show g.next + g.pq.length + 2 = _
      omega

/-- Settles O33: BUILD's ends other than the overflow. -/
theorem buildEndsWithTheTree : Obligations.BuildEndsWithTheTree := by
  intro s hfit
  refine ⟨fun hnil => ?_, fun x hx => ?_, fun hk => ?_⟩
  · rcases execBuild_ends s with ⟨-, e⟩ | ⟨g, ts, r, hg, hq, -⟩ | ⟨f, ts, g, hf, ho, -⟩
    · exact e
    · have := hg.bound
      simp [hnil, hq] at this
    · obtain ⟨-, -, -, hk, -⟩ := mergeOnce_overflow hf ho
      simp [hnil] at hk
  · obtain ⟨g, ts, hg, hnext, -, e⟩ := execBuild_tree (by simp [hx]) hfit
    simp only [hx, List.length_singleton] at hnext e
    exact ⟨g.nm, e, by simpa [hx] using hg.leaves 0 (by simp [hx]), fun i hi => hg.zero_above (hnext ▸ hi)⟩
  · obtain ⟨g, ts, -, -, -, e⟩ := execBuild_tree (List.ne_nil_of_length_pos (by omega)) hfit
    exact ⟨g.nm, e⟩

/-- Settles O34: the tree is that of a grown forest with one tree left, whose root fits ROOT. -/
theorem builtTreesSatisfyTheirLaws : Obligations.BuiltTreesSatisfyTheirLaws := by
  intro s hne hfit
  obtain ⟨g, ts, hg, hnext, hq, e⟩ := execBuild_tree hne hfit
  have hcheck := hg.check_root hq
  have hroot : (BitVec.ofNat 9 (2 * (presentSymbols s.ft).length - 2)).toNat = 2 * (presentSymbols s.ft).length - 2 := by
    have hr := check_root_lt hcheck
    rw [BitVec.toNat_ofNat]
    exact Nat.mod_eq_of_lt (hr.trans (by decide))
  refine ⟨_, e, rfl, ?_⟩
  simp only [complete_nm, complete_root, finaliseTree_nm, finaliseTree_root, withForest_nm, hroot, ← hnext]
  exact ⟨hcheck, hg.root_weight hq, (hg.last_is_root hq).2, fun i hi => hg.zero_above hi, hg.inner⟩

/-! ### BUILD reads FT alone -/

theorem execBuild_of_done (hm : mergeAll (seed s.ft).pq.length (seed s.ft) = .done g) :
    exec .build s = .next (finishBuild (seed s.ft).next g (clearForBuild s)) := by
  simp only [exec, execBuild, hm]

theorem execBuild_of_overflow (hm : mergeAll (seed s.ft).pq.length (seed s.ft) = .overflow g) :
    exec .build s = .next (raiseFault .weightOvf (BitVec.ofNat 16 g.next) (withForest g (clearForBuild s))) := by
  simp only [exec, execBuild, hm]

/-- Settles O35: merging sees FT alone, and after the clearing BUILD's end sees the forest alone. -/
theorem buildDependsOnFtAlone : Obligations.BuildDependsOnFtAlone := by
  intro s s' hft
  cases hm : mergeAll (seed s.ft).pq.length (seed s.ft) with
  | done g =>
    refine ⟨_, _, execBuild_of_done hm, execBuild_of_done (hft ▸ hm), ?_⟩
    rw [hft]
    unfold finishBuild
    split
    · exact ⟨rfl, rfl, rfl, rfl, rfl, hft⟩
    · exact ⟨rfl, rfl, rfl, rfl, rfl, hft⟩
  | overflow g =>
    exact ⟨_, _, execBuild_of_overflow hm, execBuild_of_overflow (hft ▸ hm), rfl, rfl, rfl, rfl, rfl, rfl⟩

end Sys2Proof.Machine
end

section
/-! PROOF. FIN: the check's answer in terms of paths, and what the command makes of it (41_tree_build.md R65, R66). -/

namespace Sys2Proof.Machine

variable {nm : Memory Node} {r n x : Nat}

/-! ### The check's report -/

/-- At the root the walk has seen nothing. -/
theorem seenBefore_root (nm : Memory Node) (r : Nat) :
    SeenBefore nm r (VisitedBefore · []) { visited := [], symbols := [] } := by
  constructor <;> simp

/-- The node the check reports is the first that fails a test (41_tree_build.md R66). -/
theorem firstFailure_of_check (h : check nm r = .error x) : FirstFailure nm r x := by
  unfold check at h
  cases hv : visit nm (r + 1) r { visited := [], symbols := [] } with
  | ok v => rw [hv] at h; cases h
  | error y =>
    rw [hv] at h
    cases h
    exact (visit_spec (Nat.lt_succ_self r) rfl (seenBefore_root nm r)).2 x hv

/-- A node comes before its children. -/
theorem visitedBefore_append_singleton (q : List Bool) (b : Bool) : VisitedBefore q (q ++ [b]) := by
  cases b
  · exact (visitedBefore_left q q).mpr (.inr rfl)
  · exact (visitedBefore_right q q).mpr (.inr (.inl rfl))

theorem not_visitedBefore_self (p : List Bool) : ¬VisitedBefore p p := by
  induction p with
  | nil => simp
  | cons b p ih => simpa using ih

/-- A node reached below the root is the child of an inner node. -/
theorem follow_append_singleton {q : List Bool} {b : Bool} (h : follow nm r (q ++ [b]) = some x) :
    ∃ j, follow nm r q = some j ∧ (nmGet nm j).isLeaf = false ∧ ((nmGet nm j).child b).toNat = x := by
  rw [follow_append, Option.bind_eq_some_iff] at h
  obtain ⟨j, hj, hx⟩ := h
  simpa [follow, hj] using hx

/-- The children of a node that passes the tests name records (41_tree_build.md R66: c1 can fail only at the root). -/
theorem PassesTests.child_lt {p : List Bool} {i : Nat} (h : PassesTests nm r p i) (hl : (nmGet nm i).isLeaf = false)
    (b : Bool) : ((nmGet nm i).child b).toNat < Config.nodeMax := by
  have hL : (nmGet nm i).hasLeft = true := by
    have h3 := h.c3
    cases hL : (nmGet nm i).hasLeft with
    | true => rfl
    | false => simp [Node.isLeaf, hL, ← h3] at hl
  have h1 := h.c1
  obtain ⟨hleft, hright⟩ := h.c7 hL
  simp only [Config.nodeMax]
  cases b
  · exact (show (nmGet nm i).left.toNat < 511 by omega)
  · exact (show (nmGet nm i).right.toNat < 511 by omega)

/-- The first failure is the root, which may name no record, or a record. -/
theorem FirstFailure.root_or_record (h : FirstFailure nm r x) : x = r ∨ (r < Config.nodeMax ∧ x < Config.nodeMax) := by
  obtain ⟨p, hp, -, hbefore⟩ := h
  cases p using List.reverseRecOn with
  | nil => exact .inl (Option.some.inj hp).symm
  | append_singleton q b _ =>
    obtain ⟨j, hj, hl, rfl⟩ := follow_append_singleton hp
    have hroot : PassesTests nm r [] r := hbefore [] r (by cases q <;> trivial) rfl
    exact .inr ⟨Nat.lt_succ_of_le hroot.c1, (hbefore q j (visitedBefore_append_singleton q b) hj).child_lt hl b⟩

/-- Settles O38: the walk's report is the first failure, and only the root can name no record. -/
theorem checkReportsAReachedNode : Obligations.CheckReportsAReachedNode := by
  intro nm r x h
  have hf := firstFailure_of_check h
  have hx := hf.root_or_record
  simp only [Config.nodeMax] at hx
  obtain ⟨p, hp, -⟩ := id hf
  exact ⟨hf, ⟨p, hp⟩, by omega, by omega⟩

/-! ### The check accepts exactly the trees -/

/-- In a tree that meets the invariants every node passes the tests (10_state.md R13, 41_tree_build.md R66). -/
theorem TreeConditions.passesTests (h : TreeConditions nm r n) {p : List Bool} {i : Nat} (hp : follow nm r p = some i) :
    PassesTests nm r p i := by
  have hi : Reachable nm r i := ⟨p, hp⟩
  have leaf_of (hl : (nmGet nm i).hasLeft = false) : (nmGet nm i).isLeaf = true := by
    simp [Node.isLeaf, ← h.pairs i hi, hl]
  have inner_of (hl : (nmGet nm i).hasLeft = true) := h.inner i hi (by simp [Node.isLeaf, hl])
  constructor
  case c1 => exact Nat.le_of_lt_succ (h.records i hi)
  case c2 => exact fun q hq hqi => not_visitedBefore_self p (h.noSharing q p i hqi hp ▸ hq)
  case c3 => exact h.pairs i hi
  case c4 => exact fun hl => h.leaves i hi (leaf_of hl)
  case c5 =>
    intro hl q j hq hqj hjl hsym
    have hqp : q = p := h.distinct q p _ ⟨j, hqj, hjl, hsym⟩ ⟨i, hp, leaf_of hl, rfl⟩
    exact not_visitedBefore_self p (hqp ▸ hq)
  case c6 => exact fun hl => (inner_of hl).1
  case c7 =>
    intro hl
    obtain ⟨-, hleft, hright, -⟩ := inner_of hl
    exact ⟨hleft, hright⟩
  case c8 =>
    intro hl
    obtain ⟨-, -, -, hw⟩ := inner_of hl
    exact hw

/-- A tree has one number of symbols. -/
theorem TreeConditions.count_unique {m : Nat} (h : TreeConditions nm r n) (h' : TreeConditions nm r m) : n = m := by
  obtain ⟨l, hl, rfl, hmem⟩ := h.count
  obtain ⟨l', hl', rfl, hmem'⟩ := h'.count
  exact ((List.perm_ext_iff_of_nodup hl hl').mpr fun x => (hmem x).trans (hmem' x).symm).length_eq

/-- Settles O37: on a tree that meets the invariants the check has no first failure to report. -/
theorem checkAcceptsExactlyTheTrees : Obligations.CheckAcceptsExactlyTheTrees := by
  refine fun nm r n => ⟨treeConditions_of_check, fun h => ?_⟩
  cases hc : check nm r with
  | ok m => rw [h.count_unique (treeConditions_of_check hc)]
  | error x =>
    obtain ⟨p, hp, hfail, -⟩ := firstFailure_of_check hc
    exact absurd (h.passesTests hp) hfail

/-! ### The command -/

/-- Settles O36: FIN's two ends; the root, the number of leaves and the failing node fit their fields. -/
theorem finFinalisesOrReports : Obligations.FinFinalisesOrReports := by
  intro s idx hidx
  constructor
  · intro n hc
    have hn := check_leaves_le hc
    refine ⟨?_, ?_, ?_⟩
    · simp only [exec, execFin, hc]; rfl
    · rw [BitVec.toNat_ofNat]; omega
    · rw [BitVec.toNat_ofNat]; omega
  · intro x hc
    have hx := (firstFailure_of_check hc).root_or_record
    simp only [Config.nodeMax] at hx
    have hinfo : (BitVec.ofNat 16 x).toNat = x := by rw [BitVec.toNat_ofNat]; omega
    refine ⟨raiseFault .treeMalformed (BitVec.ofNat 16 x) (reopenTree s), ?_, ?_, rfl⟩
    · simp only [exec, execFin, hc]
    · simpa only [hinfo] using raiseFault_recorded .treeMalformed (BitVec.ofNat 16 x) (reopenTree s)

end Sys2Proof.Machine
end

section
/-! PROOF. GEN: the table of a checked tree, its codes as paths, no code extending another, their number and their
lengths (42_code_table.md R68 to R72). -/

namespace Sys2Proof.Machine

variable {nm : Memory Node} {s : State} {t : Shape} {x y : Sym} {p q : List Bool}

/-! ### The table of a tree -/

/-- The table that holds a tree's codes and no other entry. -/
def Shape.table (t : Shape) : Memory CodeEntry := recordPaths [] t.codes

theorem Shape.exists_code_of_mem (h : x ∈ t.symbols) : ∃ p, (x, p) ∈ t.codes := by
  rw [← t.codes_symbols] at h
  simpa using h

theorem Shape.mem_symbols_of_code (h : (x, p) ∈ t.codes) : x ∈ t.symbols :=
  t.codes_symbols ▸ List.mem_map_of_mem (f := Prod.fst) h

theorem Shape.table_get_of_mem (hs : t.symbols.Nodup) (h : (x, p) ∈ t.codes) : ctGet t.table x.toNat = codeOf p :=
  recordPaths_get_of_mem (Memory.nil_wf _) (by rwa [Shape.codes_symbols]) h

theorem Shape.table_get_of_notMem (h : x ∉ t.symbols) : ctGet t.table x.toNat = CodeEntry.invalid :=
  recordPaths_get_of_notMem (by rwa [Shape.codes_symbols])

/-- Exactly the tree's symbols have codes. -/
theorem Shape.hasCode_table_iff (hs : t.symbols.Nodup) : HasCode t.table x ↔ x ∈ t.symbols := by
  constructor
  · intro h
    by_contra hx
    rw [HasCode, Shape.table_get_of_notMem hx] at h
    cases h
  · intro hx
    obtain ⟨p, hp⟩ := Shape.exists_code_of_mem hx
    rw [HasCode, Shape.table_get_of_mem hs hp]
    rfl

/-- The codes the table holds are the tree's. -/
theorem Shape.mem_codes_iff (hs : t.symbols.Nodup) :
    (x, p) ∈ t.codes ↔ HasCode t.table x ∧ codeBits t.table x = p := by
  constructor
  · intro h
    refine ⟨(Shape.hasCode_table_iff hs).mpr (Shape.mem_symbols_of_code h), ?_⟩
    rw [codeBits, Shape.table_get_of_mem hs h]
    rfl
  · rintro ⟨hx, rfl⟩
    obtain ⟨q, hq⟩ := Shape.exists_code_of_mem ((Shape.hasCode_table_iff hs).mp hx)
    rw [codeBits, Shape.table_get_of_mem hs hq]
    exact hq

/-- Below an inner root a symbol's code is the path to its leaf (42_code_table.md R69). -/
theorem Shape.mem_codes_iff_path (ht : t.In nm) (hl : (nmGet nm t.root).isLeaf = false) :
    (x, p) ∈ t.codes ↔ PathToSymbol nm t.root p x := by
  cases t with
  | leaf i y => rw [Shape.root_leaf, Shape.isLeaf_leaf ht] at hl; cases hl
  | node i l r => simpa [Shape.codes] using Shape.mem_paths ht [] p x

/-- A tree that is one leaf has the one code "0" (42_code_table.md R70). -/
theorem Shape.mem_codes_iff_of_isLeaf (ht : t.In nm) (hl : (nmGet nm t.root).isLeaf = true) :
    (x, p) ∈ t.codes ↔ x = (nmGet nm t.root).sym ∧ p = [false] := by
  cases t with
  | leaf i y =>
    obtain ⟨-, -, -, -, hy⟩ := ht
    simp [Shape.codes, hy]
  | node i l r => rw [Shape.root_node, Shape.isLeaf_node ht] at hl; cases hl

/-- No symbol's code extends another's (42_code_table.md R72 (b)). -/
theorem Shape.codes_prefix_eq (ht : t.In nm) (hp : (x, p) ∈ t.codes) (hq : (y, q) ∈ t.codes) (h : p <+: q) : x = y := by
  cases hl : (nmGet nm t.root).isLeaf with
  | true =>
    rw [Shape.mem_codes_iff_of_isLeaf ht hl] at hp hq
    exact hp.1.trans hq.1.symm
  | false =>
    rw [Shape.mem_codes_iff_path ht hl] at hp hq
    exact (hp.prefix_eq hq h).2

/-- The table's codes have the lengths their entries say (42_code_table.md R72 (c)). -/
theorem Shape.codesConsistent_table (ht : t.In nm) (hs : t.symbols.Nodup) : CodesConsistent t.table := by
  intro k
  by_cases hk : k < 2 ^ 8
  · obtain ⟨x, rfl⟩ : ∃ x : Sym, x.toNat = k := ⟨BitVec.ofNatLT k hk, rfl⟩
    by_cases hx : x ∈ t.symbols
    · obtain ⟨p, hp⟩ := Shape.exists_code_of_mem hx
      obtain ⟨hpos, hle⟩ := Shape.codes_length ht hs hp
      rw [Shape.table_get_of_mem hs hp]
      exact .inr ⟨rfl, hpos, hle, Nat.mod_eq_of_lt (Nat.lt_succ_of_le hle)⟩
    · exact .inl (Shape.table_get_of_notMem hx)
  · exact .inl (Memory.get_of_bound _ (recordPaths_within (Memory.nil_within _) _) (Nat.le_of_not_lt hk))

/-! ### The command -/

theorem exec_gen_of_noTree (hts : s.ts = .noTree) : exec .gen s = .next (complete { s with ct := [] }) := by
  simp only [exec, execGen, hts]

theorem exec_gen_of_openTree (hts : s.ts = .openTree) : exec .gen s = .next (raiseFault .treeOpen 0 s) := by
  simp only [exec, execGen, hts]

/-- On a tree without repeated symbols GEN completes with the tree's table. -/
theorem exec_gen_of_finalTree (hts : s.ts = .finalTree) (ht : t.In s.nm) (hs : t.symbols.Nodup)
    (hr : t.root = s.root.toNat) : exec .gen s = .next (complete { s with ct := t.table }) := by
  have hc : codeTable s.nm s.root.toNat = .ok t.table := hr ▸ codeTable_tree ht hs
  simp only [exec, execGen, hts, hc]

/-- Settles O39: the two ends of GEN that do not read the node memory. -/
theorem genWithoutAFinalTree : Obligations.GenWithoutAFinalTree := fun s =>
  ⟨exec_gen_of_noTree, fun hts => ⟨_, exec_gen_of_openTree hts, raiseFault_recorded .treeOpen 0 s, rfl⟩⟩

/-- Settles O40: the table's codes are the tree's, which are its paths or the one-bit code. -/
theorem genRecordsThePaths : Obligations.GenRecordsThePaths := by
  intro s hts hwf
  obtain ⟨t, ht, hr, -, hs⟩ := hwf.shape
  refine ⟨t.table, exec_gen_of_finalTree hts ht hs hr, fun hl x => ?_, fun hl x p => ?_, fun x hx => ?_⟩
  · rw [rootIsLeaf, ← hr] at hl
    rw [← hr]
    have hcode (p : List Bool) :
        HasCode t.table x ∧ codeBits t.table x = p ↔ x = (nmGet s.nm t.root).sym ∧ p = [false] :=
      (Shape.mem_codes_iff hs).symm.trans (Shape.mem_codes_iff_of_isLeaf ht hl)
    exact ⟨⟨fun hx => ((hcode _).mp ⟨hx, rfl⟩).1, fun hx => ((hcode _).mpr ⟨hx, rfl⟩).1⟩,
      fun hx => ((hcode _).mp ⟨hx, rfl⟩).2⟩
  · rw [rootIsLeaf, ← hr] at hl
    rw [← hr, ← Shape.mem_codes_iff hs, Shape.mem_codes_iff_path ht hl]
  · exact Shape.table_get_of_notMem fun hmem => hx ((Shape.hasCode_table_iff hs).mpr hmem)

/-- Settles O41: of two codes of one tree neither extends the other. -/
theorem generatedCodesArePrefixFree : Obligations.GeneratedCodesArePrefixFree := by
  intro s u hts hwf hu x y hne hx hy hpre
  obtain ⟨t, ht, hr, -, hs⟩ := hwf.shape
  cases (exec_gen_of_finalTree hts ht hs hr).symm.trans hu
  have hx' := (Shape.mem_codes_iff hs).mpr ⟨hx, rfl⟩
  have hy' := (Shape.mem_codes_iff hs).mpr ⟨hy, rfl⟩
  exact hne (Shape.codes_prefix_eq ht hx' hy' hpre)

/-- Settles O42: the symbols with codes are those of the tree's leaves. -/
theorem generatedCodeCountAndLengths : Obligations.GeneratedCodeCountAndLengths := by
  intro s n hts hc
  obtain ⟨t, ht, hr, -, hs, hn⟩ := check_ok_iff.mp hc
  exact ⟨_, exec_gen_of_finalTree hts ht hs hr, Shape.codesConsistent_table ht hs, t.symbols, hs, hn,
    fun _ => (Shape.hasCode_table_iff hs).symm⟩

end Sys2Proof.Machine
end

section
/-! PROOF. ENC: its micro-steps on answering ports, the codes of a whole input sent, the first symbol without a
code, and that the tree is not looked at (43_encoder.md R73 to R76). -/

namespace Sys2Proof.Machine

variable {r : Reply} {s t : State} {ct : Memory CodeEntry} {x : Sym} {e : BitVec 8} {bs : List Bool} {xs ys : List Sym}

/-! ### The entries of a consistent table -/

/-- An entry's `len` is the length of its bits, 0 for the invalid entry (10_state.md R16). -/
theorem CodesConsistent.len_eq (hc : CodesConsistent ct) (x : Sym) :
    (ctGet ct x.toNat).len.toNat = (codeBits ct x).length := by
  rcases hc x.toNat with h | ⟨-, -, -, h⟩
  · rw [codeBits, h]; rfl
  · exact h

/-- No code is empty (10_state.md R16). -/
theorem CodesConsistent.code_pos (hc : CodesConsistent ct) (hx : HasCode ct x) : 0 < (codeBits ct x).length := by
  rcases hc x.toNat with h | ⟨-, h, -⟩
  · rw [HasCode, h] at hx; cases hx
  · exact h

/-- EPOS does not wrap around inside a code. -/
theorem CodesConsistent.epos_succ (hc : CodesConsistent ct) (he : e.toNat < (codeBits ct x).length) :
    (e + 1).toNat = e.toNat + 1 := by
  rw [← hc.len_eq] at he
  exact BitVec.toNat_add_of_lt ((Nat.succ_le_of_lt he).trans_lt (ctGet ct x.toNat).len.isLt)

/-! ### The micro-steps -/

/-- The loop test, over a consistent table (R73). -/
theorem encLoop_eq_goto (hc : CodesConsistent s.ct) :
    encLoop s = goto (if s.epos.toNat < (codeBits s.ct s.esym).length then .e2 else .e0) s := by
  rw [encLoop, encEntry, hc.len_eq]
  split_ifs <;> rfl

theorem microStep_e0 (hp : s.pt = .e0) : microStep r s = .next (stepE0 r s) := by
  simp only [microStep, hp]

theorem microStep_e1 (hp : s.pt = .e1) : microStep r s = .next (stepE1 r s) := by
  simp only [microStep, hp]

theorem microStep_e2 (hp : s.pt = .e2) : microStep r s = .next (stepE2 r s) := by
  simp only [microStep, hp]

/-- E0, answered true (R74). -/
theorem microStep_e0_more (hp : s.pt = .e0) (hi : s.si = some (x :: xs)) :
    microStep .answer s = .next (goto .e1 s) := by
  rw [microStep_e0 hp, stepE0, askMore_eq_got.mpr ⟨rfl, _, hi, rfl⟩]; rfl

/-- E0, answered false (R74). -/
theorem microStep_e0_end (hp : s.pt = .e0) (hi : s.si = some []) : microStep .answer s = .next (complete s) := by
  rw [microStep_e0 hp, stepE0, askMore_eq_got.mpr ⟨rfl, _, hi, rfl⟩]; rfl

/-- E1, answered with a symbol (R74). -/
theorem microStep_e1_takes (hp : s.pt = .e1) (hi : s.si = some (x :: xs)) :
    microStep .answer s = .next (startSymbol x { s with si := some xs }) := by
  rw [microStep_e1 hp, stepE1, askItem_eq_got.mpr ⟨rfl, hi⟩]

/-- E1 with a code: its first bit is due (R74). -/
theorem microStep_e1_starts (hc : CodesConsistent s.ct) (hp : s.pt = .e1) (hi : s.si = some (x :: xs))
    (hx : HasCode s.ct x) :
    microStep .answer s = .next (goto .e2 { s with si := some xs, esym := x, epos := 0 }) := by
  rw [microStep_e1_takes hp hi]
  rcases startSymbol_cases x { s with si := some xs } with ⟨-, h⟩ | ⟨hv, -⟩
  · rw [h, encLoop_eq_goto (by exact hc), if_pos (by exact hc.code_pos hx)]
  · cases hx.symm.trans hv

/-- E1 without a code: the symbol has been taken (R75). -/
theorem microStep_e1_noCode (hp : s.pt = .e1) (hi : s.si = some (x :: xs)) (hx : ¬HasCode s.ct x) :
    microStep .answer s =
      .next (raiseFault .noCode (x.setWidth 16) { s with si := some xs, esym := x, epos := 0 }) := by
  rw [microStep_e1_takes hp hi]
  rcases startSymbol_cases x { s with si := some xs } with ⟨hv, -⟩ | ⟨-, h⟩
  · exact absurd hv hx
  · rw [h]

/-- E2 inside a code: the bit at EPOS is sent, and the loop test follows (R74). -/
theorem microStep_e2_sends (hc : CodesConsistent s.ct) (hp : s.pt = .e2) (ho : s.bo = some bs)
    (he : s.epos.toNat < (codeBits s.ct s.esym).length) :
    microStep .answer s = .next { s with
      bo := some (bs ++ [(codeBits s.ct s.esym)[s.epos.toNat]])
      epos := s.epos + 1
      pt := if (s.epos + 1).toNat < (codeBits s.ct s.esym).length then .e2 else .e0 } := by
  have hbit : encBit s = (codeBits s.ct s.esym)[s.epos.toNat] := (List.getElem_eq_getD false).symm
  rw [microStep_e2 hp, stepE2, askPut_eq_got.mpr ⟨rfl, bs, ho, rfl⟩, hbit]
  exact congrArg _ (encLoop_eq_goto (by exact hc))

/-- NO_CODE records the symbol. -/
theorem noCode_recorded (x : Sym) (s : State) :
    FaultRecorded (raiseFault .noCode (x.setWidth 16) s) .noCode x.toNat := by
  have hx : (x.setWidth 16).toNat = x.toNat := BitVec.toNat_setWidth_of_le (by decide)
  exact hx ▸ raiseFault_recorded .noCode (x.setWidth 16) s

/-- Settles O46: the micro-step at each point. -/
theorem encMicroSteps : Obligations.EncMicroSteps := by
  intro s rest hc hb hp
  have turn : step s = microStep .answer { s with plan := rest } := (step_of_plan hp).trans (engineTurn_of_busy hb)
  rw [turn]
  exact ⟨fun h0 x xs hi => microStep_e0_more h0 hi, fun h0 hi => microStep_e0_end h0 hi,
    fun h1 x xs hi hx => microStep_e1_starts hc h1 hi hx,
    fun h1 x xs hi hx => ⟨_, microStep_e1_noCode h1 hi hx, noCode_recorded x _, rfl⟩,
    fun h2 bs ho he => ⟨s.epos + 1, _, hc.epos_succ he, List.getElem?_eq_getElem he,
      microStep_e2_sends (s := { s with plan := rest }) hc h2 ho he⟩⟩

/-- Settles O45: the one question of an empty source completes ENC. -/
theorem encodeOfNothingSendsNothing : Obligations.EncodeOfNothingSendsNothing := fun s hb hp hi =>
  ⟨goto .e0 s, rfl, (step_of_running (s := goto .e0 s) hb hp).trans (microStep_e0_end rfl hi)⟩

/-! ### A whole input sent -/

/-- ENC at the point `p`, with ESYM and EPOS, the bits `bs` sent and the symbols `xs` to come. -/
def encodingAt (s : State) (p : Point) (x : Sym) (e : BitVec 8) (bs : List Bool) (xs : List Sym) : State :=
  { s with si := some xs, bo := some bs, esym := x, epos := e, pt := p }

section

variable (hb : s.ph = .busy) (hp : s.plan = [])
include hb hp

theorem encodingAt_reaches {p : Point} (h : microStep .answer (encodingAt s p x e bs xs) = .next t) :
    Reaches (encodingAt s p x e bs xs) t :=
  .step ((step_of_running (s := encodingAt s p x e bs xs) hb hp).trans h)

/-- E0 finds a symbol to send (R74). -/
theorem encodingAt_finds_symbol {y : Sym} :
    Reaches (encodingAt s .e0 y e bs (x :: xs)) (encodingAt s .e1 y e bs (x :: xs)) :=
  encodingAt_reaches hb hp (microStep_e0_more (s := encodingAt s .e0 y e bs (x :: xs)) rfl rfl)

/-- E0 and E1 on a symbol without a code (R75). -/
theorem encodingAt_noCode {y : Sym} (hx : ¬HasCode s.ct x) :
    Reaches (encodingAt s .e0 y e bs (x :: xs)) (raiseFault .noCode (x.setWidth 16) (encodingAt s .e1 x 0 bs xs)) :=
  (encodingAt_finds_symbol hb hp).trans
    (encodingAt_reaches hb hp (microStep_e1_noCode (s := encodingAt s .e1 y e bs (x :: xs)) rfl rfl hx))

/-- E0 at the end of the input (R74). -/
theorem encodingAt_completes : Reaches (encodingAt s .e0 x e bs []) (complete (encodingAt s .e0 x e bs [])) :=
  encodingAt_reaches hb hp (microStep_e0_end (s := encodingAt s .e0 x e bs []) rfl rfl)

variable (hc : CodesConsistent s.ct)
include hc

/-- E2 sends the bit at EPOS (R74). -/
theorem encodingAt_sends_bit (he : e.toNat < (codeBits s.ct x).length) :
    Reaches (encodingAt s .e2 x e bs xs)
      (encodingAt s (if e.toNat + 1 < (codeBits s.ct x).length then .e2 else .e0) x (e + 1)
        (bs ++ [(codeBits s.ct x)[e.toNat]]) xs) := by
  rw [← hc.epos_succ he]
  exact encodingAt_reaches hb hp (microStep_e2_sends (s := encodingAt s .e2 x e bs xs) hc rfl rfl he)

/-- E2 sends what is left of a code, bit after bit (R73). -/
theorem encodingAt_sends_rest {k : Nat} (hk : e.toNat + 1 + k = (codeBits s.ct x).length) :
    ∃ e', Reaches (encodingAt s .e2 x e bs xs) (encodingAt s .e0 x e' (bs ++ (codeBits s.ct x).drop e.toNat) xs) := by
  induction k generalizing e bs with
  | zero =>
    have he : e.toNat < (codeBits s.ct x).length := hk.le
    have hbit := encodingAt_sends_bit hb hp hc he (bs := bs) (xs := xs)
    rw [if_neg hk.not_lt] at hbit
    rw [List.drop_eq_getElem_cons he, List.drop_eq_nil_of_le hk.ge]
    exact ⟨e + 1, hbit⟩
  | succ k ih =>
    have he : e.toNat < (codeBits s.ct x).length := by omega
    have hbit := encodingAt_sends_bit hb hp hc he (bs := bs) (xs := xs)
    rw [if_pos (by omega)] at hbit
    obtain ⟨e', hrest⟩ :=
      ih (e := e + 1) (bs := bs ++ [(codeBits s.ct x)[e.toNat]]) (by rw [hc.epos_succ he]; omega)
    rw [hc.epos_succ he, List.append_assoc, List.singleton_append, ← List.drop_eq_getElem_cons] at hrest
    exact ⟨e', hbit.trans hrest⟩

/-- E0, E1 and the E2s of one symbol send its code. -/
theorem encodingAt_sends_code {y : Sym} (hx : HasCode s.ct x) :
    ∃ e', Reaches (encodingAt s .e0 y e bs (x :: xs)) (encodingAt s .e0 x e' (bs ++ codeBits s.ct x) xs) := by
  have e1 := encodingAt_reaches hb hp (microStep_e1_starts (s := encodingAt s .e1 y e bs (x :: xs)) hc rfl rfl hx)
  obtain ⟨k, hk⟩ := Nat.exists_eq_add_of_le (hc.code_pos hx)
  obtain ⟨e', e2⟩ := encodingAt_sends_rest hb hp hc (e := 0) (bs := bs) (xs := xs) hk.symm
  exact ⟨e', ((encodingAt_finds_symbol hb hp).trans e1).trans e2⟩

/-- ENC sends the codes of the symbols `xs` in order and goes on with the rest of the input (30_encoding.md R52). -/
theorem encodingAt_sends_codes (hxs : ∀ y ∈ xs, HasCode s.ct y) :
    ∃ x' e', Reaches (encodingAt s .e0 x e bs (xs ++ ys)) (encodingAt s .e0 x' e' (bs ++ encodedBits s.ct xs) ys) := by
  induction xs generalizing x e bs with
  | nil => exact ⟨x, e, by simpa [encodedBits] using Reaches.refl _⟩
  | cons y xs ih =>
    obtain ⟨hy, hxs⟩ := List.forall_mem_cons.mp hxs
    obtain ⟨e', hcode⟩ := encodingAt_sends_code hb hp hc hy (y := x) (e := e) (bs := bs) (xs := xs ++ ys)
    obtain ⟨x'', e'', hrest⟩ := ih hxs (x := y) (e := e') (bs := bs ++ codeBits s.ct y)
    rw [List.append_assoc] at hrest
    exact ⟨x'', e'', hcode.trans hrest⟩

end

/-- The start of ENC, with SI and BO attached. -/
theorem exec_enc_eq_encodingAt (hi : s.si = some xs) (ho : s.bo = some bs) :
    exec .enc s = .next (encodingAt s .e0 s.esym s.epos bs xs) := by
  rw [encodingAt, ← hi, ← ho]; rfl

/-- Settles O43: after the last code the source is empty. -/
theorem encodeEmitsTheCodes : Obligations.EncodeEmitsTheCodes := by
  intro s xs bs hb hp hi ho hc hxs
  obtain ⟨x, e, hcodes⟩ := encodingAt_sends_codes hb hp hc hxs (x := s.esym) (e := s.epos) (bs := bs) (ys := [])
  rw [List.append_nil, encodingAt, ← hi, ← ho] at hcodes
  exact ⟨rfl, x, e, hcodes.trans (encodingAt_completes hb hp)⟩

/-- Settles O44: after the codes of the earlier symbols, E1 takes the symbol without one. -/
theorem encodeFaultsAtTheFirstMissingCode : Obligations.EncodeFaultsAtTheFirstMissingCode := by
  intro s xs ys x bs hb hp hi ho hc hxs hx
  obtain ⟨y, e, hcodes⟩ := encodingAt_sends_codes hb hp hc hxs (x := s.esym) (e := s.epos) (bs := bs) (ys := x :: ys)
  exact ⟨_, _, exec_enc_eq_encodingAt hi ho, hcodes.trans (encodingAt_noCode hb hp hx), noCode_recorded x _, rfl⟩

/-! ### The tree -/

/-- The state with other contents of NM, TS, ROOT and NSYM. -/
def withTree (nm : Memory Node) (ts : TreeState) (root : Idx) (nsym : BitVec 9) (s : State) : State :=
  { s with nm := nm, ts := ts, root := root, nsym := nsym }

section

variable (nm : Memory Node) (ts : TreeState) (root : Idx) (nsym : BitVec 9)

theorem encLoop_withTree (s : State) : encLoop (withTree nm ts root nsym s) = withTree nm ts root nsym (encLoop s) := by
  unfold encLoop
  rw [apply_ite (withTree nm ts root nsym)]
  rfl

theorem startSymbol_withTree (x : Sym) (s : State) :
    startSymbol x (withTree nm ts root nsym s) = withTree nm ts root nsym (startSymbol x s) := by
  unfold startSymbol
  rw [apply_ite (withTree nm ts root nsym), ← encLoop_withTree]
  rfl

theorem stepE0_withTree (r : Reply) (s : State) :
    stepE0 r (withTree nm ts root nsym s) = withTree nm ts root nsym (stepE0 r s) := by
  have hi : (withTree nm ts root nsym s).si = s.si := rfl
  rw [stepE0, stepE0, hi]
  cases askMore r s.si with
  | waiting | err => rfl
  | got b => cases b <;> rfl

theorem stepE1_withTree (r : Reply) (s : State) :
    stepE1 r (withTree nm ts root nsym s) = withTree nm ts root nsym (stepE1 r s) := by
  have hi : (withTree nm ts root nsym s).si = s.si := rfl
  rw [stepE1, stepE1, hi]
  cases askItem r s.si with
  | waiting | err => rfl
  | got a => exact startSymbol_withTree nm ts root nsym a.1 { s with si := some a.2 }

theorem stepE2_withTree (r : Reply) (s : State) :
    stepE2 r (withTree nm ts root nsym s) = withTree nm ts root nsym (stepE2 r s) := by
  have ho : askPut r (withTree nm ts root nsym s).bo (encBit (withTree nm ts root nsym s)) =
    askPut r s.bo (encBit s) := rfl
  rw [stepE2, stepE2, ho]
  cases askPut r s.bo (encBit s) with
  | waiting | err => rfl
  | got bits => exact encLoop_withTree nm ts root nsym { s with bo := some bits, epos := s.epos + 1 }

/-- A turn of ENC does the same on another tree. -/
theorem microStep_withTree (hop : s.pt.opcode = 0x05) (h : microStep r s = .next t) :
    microStep r (withTree nm ts root nsym s) = .next (withTree nm ts root nsym t) := by
  cases hp : s.pt with
  | e0 =>
    cases (microStep_e0 hp).symm.trans h
    exact (microStep_e0 (by exact hp)).trans (congrArg _ (stepE0_withTree ..))
  | e1 =>
    cases (microStep_e1 hp).symm.trans h
    exact (microStep_e1 (by exact hp)).trans (congrArg _ (stepE1_withTree ..))
  | e2 =>
    cases (microStep_e2 hp).symm.trans h
    exact (microStep_e2 (by exact hp)).trans (congrArg _ (stepE2_withTree ..))
  | rest | f0 | f1 | dNoTree | d0 | d1 | d2 => rw [hp] at hop; exact absurd hop (by decide)

end

/-- Settles O47: OP names the command of the point, and the micro-steps of ENC do not read the tree. -/
theorem encIgnoresTheTree : Obligations.EncIgnoresTheTree := by
  intro s t r nm ts root nsym
  refine ⟨fun h => by cases h; rfl, fun h hb ho e => ?_⟩
  rw [engineTurn_of_busy hb] at e
  rw [engineTurn_of_busy (by exact hb)]
  exact microStep_withTree nm ts root nsym ((h.op_eq hb).symm.trans ho) e

end Sys2Proof.Machine
end

section
/-! PROOF. DEC: its start by tree state, its micro-steps on answering ports, the stream without a tree, and that the
table is not looked at (44_decoder.md R78 to R82). -/

namespace Sys2Proof.Machine

variable {r : Reply} {s t : State} {b : Bool} {bs : List Bool} {ys : List Sym}

/-! ### The start -/

theorem exec_dec_of_openTree (hts : s.ts = .openTree) : exec .dec s = .next (raiseFault .treeOpen 0 s) := by
  simp only [exec, execDec, hts]

theorem exec_dec_of_noTree (hts : s.ts = .noTree) : exec .dec s = .next (goto .dNoTree s) := by
  simp only [exec, execDec, hts]

theorem exec_dec_of_finalTree (hts : s.ts = .finalTree) : exec .dec s = .next (goto .d0 (setCur s.root s)) := by
  simp only [exec, execDec, hts]

/-- Settles O48: one equation per tree state. -/
theorem decStartsByTreeState : Obligations.DecStartsByTreeState := fun s =>
  ⟨fun hts => ⟨_, exec_dec_of_openTree hts, raiseFault_recorded .treeOpen 0 s, rfl⟩, exec_dec_of_noTree,
    exec_dec_of_finalTree⟩

/-! ### The micro-steps -/

theorem microStep_dNoTree (hp : s.pt = .dNoTree) : microStep r s = .next (stepDNoTree r s) := by
  simp only [microStep, hp]

theorem microStep_d0 (hp : s.pt = .d0) : microStep r s = .next (stepD0 r s) := by
  simp only [microStep, hp]

theorem microStep_d1 (hp : s.pt = .d1) : microStep r s = stepD1 r s := by
  simp only [microStep, hp]

theorem microStep_d2 (hp : s.pt = .d2) : microStep r s = stepD2 r s := by
  simp only [microStep, hp]

/-- The one question with no tree, answered true (R82). -/
theorem microStep_dNoTree_more (hp : s.pt = .dNoTree) (hi : s.bi = some (b :: bs)) :
    microStep .answer s = .next (raiseFault .noTreeBits 0 s) := by
  rw [microStep_dNoTree hp, stepDNoTree, askMore_eq_got.mpr ⟨rfl, _, hi, rfl⟩]; rfl

/-- The one question with no tree, answered false (R82). -/
theorem microStep_dNoTree_end (hp : s.pt = .dNoTree) (hi : s.bi = some []) :
    microStep .answer s = .next (complete s) := by
  rw [microStep_dNoTree hp, stepDNoTree, askMore_eq_got.mpr ⟨rfl, _, hi, rfl⟩]; rfl

/-- Settles O51: the one question of DEC with no tree, on each answer. -/
theorem decodeWithoutATree : Obligations.DecodeWithoutATree := by
  intro s hb hp hts
  have turn : step (goto .dNoTree s) = microStep .answer (goto .dNoTree s) := step_of_running hb hp
  exact ⟨_, exec_dec_of_noTree hts, rfl, fun hi => turn.trans (microStep_dNoTree_end rfl hi),
    fun b bs hi => ⟨_, turn.trans (microStep_dNoTree_more rfl hi), raiseFault_recorded .noTreeBits 0 _, rfl⟩⟩

/-- D0, answered true (R79). -/
theorem microStep_d0_more (hp : s.pt = .d0) (hi : s.bi = some (b :: bs)) :
    microStep .answer s = .next (goto .d1 s) := by
  rw [microStep_d0 hp, stepD0, askMore_eq_got.mpr ⟨rfl, _, hi, rfl⟩]; rfl

/-- D0, answered false with CUR at ROOT (R80). -/
theorem microStep_d0_end (hp : s.pt = .d0) (hi : s.bi = some []) (hc : s.cur = s.root) :
    microStep .answer s = .next (complete s) := by
  rw [microStep_d0 hp, stepD0, askMore_eq_got.mpr ⟨rfl, _, hi, rfl⟩]
  exact congrArg _ (if_pos hc)

/-- D0, answered false inside a code (R80). -/
theorem microStep_d0_truncated (hp : s.pt = .d0) (hi : s.bi = some []) (hc : s.cur ≠ s.root) :
    microStep .answer s = .next (raiseFault .truncated (s.cur.setWidth 16) s) := by
  rw [microStep_d0 hp, stepD0, askMore_eq_got.mpr ⟨rfl, _, hi, rfl⟩]
  exact congrArg _ (if_neg hc)

/-- TRUNCATED records the node at CUR. -/
theorem truncated_recorded (i : Idx) (s : State) :
    FaultRecorded (raiseFault .truncated (i.setWidth 16) s) .truncated i.toNat := by
  have hi : (i.setWidth 16).toNat = i.toNat := BitVec.toNat_setWidth_of_le (by decide)
  exact hi ▸ raiseFault_recorded .truncated (i.setWidth 16) s

/-- D1, answered with a bit (R79). -/
theorem microStep_d1_takes (hp : s.pt = .d1) (hi : s.bi = some (b :: bs)) :
    microStep .answer s = decodeBit b { s with bi := some bs } := by
  rw [microStep_d1 hp, stepD1, askItem_eq_got.mpr ⟨rfl, hi⟩]

/-- A bit on a single-leaf tree: the root's symbol is due (R81). -/
theorem decodeBit_of_leafRoot (hr : rootIsLeaf s = true) (hrec : isRecord s.root.toNat = true) :
    decodeBit b s = .next (goto .d2 s) := by
  rw [decodeBit, if_pos hr, decodeBitLeaf, if_pos hrec]

/-- Where DEC stands with CUR at a node below an inner root: at a leaf its symbol is due, else the next bit (R79). -/
def pointAt (nm : Memory Node) (i : Idx) : Point := if (nmGet nm i.toNat).isLeaf then .d2 else .d0

theorem pointAt_of_leaf {nm : Memory Node} {i : Idx} (h : (nmGet nm i.toNat).isLeaf = true) : pointAt nm i = .d2 :=
  if_pos h

theorem pointAt_of_inner {nm : Memory Node} {i : Idx} (h : (nmGet nm i.toNat).isLeaf = false) : pointAt nm i = .d0 :=
  if_neg (by simp [h])

/-- A bit below an inner root: CUR moves to the child (R79). -/
theorem decodeBit_of_innerRoot (hr : rootIsLeaf s = false) (hcur : isRecord s.cur.toNat = true)
    (hnext : isRecord (nextNode b s).toNat = true) :
    decodeBit b s = .next (goto (pointAt s.nm (nextNode b s)) (setCur (nextNode b s) s)) := by
  rw [decodeBit, hr, if_neg Bool.false_ne_true, decodeBitInner, hcur, hnext, if_neg (by decide), pointAt]
  split_ifs <;> rfl

/-- D1 below an inner root (R79). -/
theorem microStep_d1_innerRoot (hp : s.pt = .d1) (hi : s.bi = some (b :: bs)) (hr : rootIsLeaf s = false)
    (hcur : isRecord s.cur.toNat = true) (hnext : isRecord (nextNode b s).toNat = true) :
    microStep .answer s =
      .next { s with bi := some bs, cur := nextNode b s, pt := pointAt s.nm (nextNode b s) } :=
  (microStep_d1_takes hp hi).trans (decodeBit_of_innerRoot (s := { s with bi := some bs }) hr hcur hnext)

/-- D2: the symbol is given and CUR returns to ROOT (R79). -/
theorem microStep_d2_gives (hp : s.pt = .d2) (ho : s.so = some ys) (hrec : isRecord (emitIndex s).toNat = true) :
    microStep .answer s =
      .next { s with so := some (ys ++ [(nmGet s.nm (emitIndex s).toNat).sym]), cur := s.root, pt := .d0 } := by
  rw [microStep_d2 hp, stepD2, hrec, askPut_eq_got.mpr ⟨rfl, ys, ho, rfl⟩]; rfl

/-- Below an inner root the symbol due is that of the leaf at CUR (R78). -/
theorem emitIndex_of_innerRoot (hr : rootIsLeaf s = false) : emitIndex s = s.cur := by
  rw [emitIndex, hr]; rfl

/-- D2 below an inner root (R79). -/
theorem microStep_d2_innerRoot (hp : s.pt = .d2) (ho : s.so = some ys) (hr : rootIsLeaf s = false)
    (hcur : isRecord s.cur.toNat = true) :
    microStep .answer s =
      .next { s with so := some (ys ++ [(nmGet s.nm s.cur.toNat).sym]), cur := s.root, pt := .d0 } := by
  have hemit := emitIndex_of_innerRoot hr
  rw [microStep_d2_gives hp ho (by rwa [hemit]), hemit]

/-- The nodes of a checked tree are records (41_tree_build.md R66, c1). -/
theorem WellFormedTree.isRecord {nm : Memory Node} {root i : Nat} (h : WellFormedTree nm root)
    (hi : Reachable nm root i) : isRecord i = true :=
  let ⟨_, hn⟩ := h
  decide_eq_true ((treeConditions_of_check hn).records i hi)

/-- A record's index fits CUR (10_state.md R12). -/
theorem exists_idx_of_isRecord {k : Nat} (h : isRecord k = true) : ∃ i : Idx, i.toNat = k :=
  ⟨BitVec.ofNatLT k ((of_decide_eq_true h).trans (by decide)), rfl⟩

/-- Settles O49: the micro-step at each point; consistency keeps CUR and its child on the checked tree. -/
theorem decMicroSteps : Obligations.DecMicroSteps := by
  intro s rest h hb hr hp
  have turn : step s = microStep .answer { s with plan := rest } := (step_of_plan hp).trans (engineTurn_of_busy hb)
  rw [turn]
  refine ⟨fun h0 b bs hi => microStep_d0_more h0 hi, fun h0 hi hc => microStep_d0_end h0 hi hc,
    fun h0 hi hc => ⟨_, microStep_d0_truncated h0 hi hc, truncated_recorded _ _, rfl⟩,
    fun h1 b bs hi => ?_, fun h2 ys ho => ?_⟩
  · have hwf : WellFormedTree s.nm s.root.toNat := ⟨_, h.tree.finalChecked (h.points.treeAtBits (.inr (.inl h1)))⟩
    obtain ⟨⟨p, hcur⟩, hl⟩ := (h.points.cursorBetween (.inr h1)).2 hr
    exact microStep_d1_innerRoot (s := { s with plan := rest }) h1 hi hr (hwf.isRecord ⟨p, hcur⟩)
      (hwf.isRecord ⟨p ++ [b], follow_child hcur hl b⟩)
  · exact microStep_d2_innerRoot (s := { s with plan := rest }) h2 ho hr
      (emitIndex_of_innerRoot hr ▸ h.isRecord_emitIndex h2)

/-! ### The table -/

/-- The state with another content of CT. -/
def withTable (ct : Memory CodeEntry) (s : State) : State := { s with ct := ct }

section

variable (ct : Memory CodeEntry)

theorem stepDNoTree_withTable (r : Reply) (s : State) :
    stepDNoTree r (withTable ct s) = withTable ct (stepDNoTree r s) := by
  have hi : (withTable ct s).bi = s.bi := rfl
  rw [stepDNoTree, stepDNoTree, hi]
  cases askMore r s.bi with
  | waiting | err => rfl
  | got b => cases b <;> rfl

theorem stepD0_withTable (r : Reply) (s : State) : stepD0 r (withTable ct s) = withTable ct (stepD0 r s) := by
  have hi : (withTable ct s).bi = s.bi := rfl
  rw [stepD0, stepD0, hi]
  cases askMore r s.bi with
  | waiting | err => rfl
  | got b =>
    cases b with
    | true => rfl
    | false =>
      dsimp only
      rw [apply_ite (withTable ct)]
      rfl

theorem decodeBit_withTable (h : decodeBit b s = .next t) :
    decodeBit b (withTable ct s) = .next (withTable ct t) := by
  rcases decodeBit_cases b s with ⟨hr, hrec, e⟩ | ⟨hr, hcur, hnext, hl, e⟩ | ⟨hr, hcur, hnext, hl, e⟩ | ⟨e, -⟩ <;>
    cases e.symm.trans h
  · exact decodeBit_of_leafRoot hr hrec
  · refine (decodeBit_of_innerRoot (s := withTable ct s) hr hcur hnext).trans ?_
    rw [pointAt_of_leaf (by exact hl)]; rfl
  · refine (decodeBit_of_innerRoot (s := withTable ct s) hr hcur hnext).trans ?_
    rw [pointAt_of_inner (by exact hl)]; rfl

theorem stepD1_withTable (h : stepD1 r s = .next t) : stepD1 r (withTable ct s) = .next (withTable ct t) := by
  have hi : (withTable ct s).bi = s.bi := rfl
  rw [stepD1] at h ⊢
  rw [hi]
  cases ha : askItem r s.bi with
  | waiting | err => rw [ha] at h; cases h; rfl
  | got a => rw [ha] at h; exact decodeBit_withTable ct h

theorem stepD2_withTable (h : stepD2 r s = .next t) : stepD2 r (withTable ct s) = .next (withTable ct t) := by
  have hi : emitIndex (withTable ct s) = emitIndex s := rfl
  have ho : (withTable ct s).so = s.so := rfl
  have hn : (withTable ct s).nm = s.nm := rfl
  rw [stepD2] at h ⊢
  rw [hi, ho, hn]
  cases hrec : isRecord (emitIndex s).toNat with
  | false => rw [hrec] at h; cases h
  | true =>
    rw [hrec] at h
    cases ha : askPut r s.so (nmGet s.nm (emitIndex s).toNat).sym with
    | waiting | err | got xs => rw [ha] at h; cases h; rfl

/-- A turn of DEC does the same with another table. -/
theorem microStep_withTable (hop : s.pt.opcode = 0x06) (h : microStep r s = .next t) :
    microStep r (withTable ct s) = .next (withTable ct t) := by
  cases hp : s.pt with
  | dNoTree =>
    cases (microStep_dNoTree hp).symm.trans h
    exact (microStep_dNoTree (by exact hp)).trans (congrArg _ (stepDNoTree_withTable ..))
  | d0 =>
    cases (microStep_d0 hp).symm.trans h
    exact (microStep_d0 (by exact hp)).trans (congrArg _ (stepD0_withTable ..))
  | d1 => exact (microStep_d1 (by exact hp)).trans (stepD1_withTable ct ((microStep_d1 hp).symm.trans h))
  | d2 => exact (microStep_d2 (by exact hp)).trans (stepD2_withTable ct ((microStep_d2 hp).symm.trans h))
  | rest | f0 | f1 | e0 | e1 | e2 => rw [hp] at hop; exact absurd hop (by decide)

end

/-- Settles O54: DEC starts by the tree state, and its micro-steps do not read the table. -/
theorem decIgnoresTheTable : Obligations.DecIgnoresTheTable := by
  intro s t r ct
  refine ⟨fun h => ?_, fun h hb ho e => ?_⟩
  · cases exec_to h with
    | decOpen hts => exact exec_dec_of_openTree hts
    | decNone hts => exact exec_dec_of_noTree hts
    | decTree hts => exact exec_dec_of_finalTree hts
  · rw [engineTurn_of_busy hb] at e
    rw [engineTurn_of_busy (by exact hb)]
    exact microStep_withTable ct ((h.op_eq hb).symm.trans ho) e

end Sys2Proof.Machine
end

section
/-! PROOF. DEC on whole bit streams: the codes of a symbol sequence, a stream cut inside a code, and the single-leaf
tree (44_decoder.md R79 to R81, R84). -/

namespace Sys2Proof.Machine

variable {s t : State} {p : Point} {b : Bool} {bs q : List Bool} {x : Sym} {xs ys : List Sym} {c i : Idx}

/-- DEC at the point `p`, with CUR at `c`, the bits `bs` to come and the symbols `ys` given. -/
def decodingAt (s : State) (p : Point) (c : Idx) (bs : List Bool) (ys : List Sym) : State :=
  { s with cur := c, bi := some bs, so := some ys, pt := p }

/-- The start of DEC on a finalised tree, with BI and SO attached. -/
theorem exec_dec_eq_decodingAt (hts : s.ts = .finalTree) (hi : s.bi = some bs) (ho : s.so = some ys) :
    exec .dec s = .next (decodingAt s .d0 s.root bs ys) := by
  rw [exec_dec_of_finalTree hts, decodingAt, ← hi, ← ho]; rfl

section

variable (hb : s.ph = .busy) (hp : s.plan = [])
include hb hp

theorem decodingAt_reaches (h : microStep .answer (decodingAt s p c bs ys) = .next t) :
    Reaches (decodingAt s p c bs ys) t :=
  .step ((step_of_running (s := decodingAt s p c bs ys) hb hp).trans h)

/-- D0 finds a bit to read (R79). -/
theorem decodingAt_finds_bit : Reaches (decodingAt s .d0 c (b :: bs) ys) (decodingAt s .d1 c (b :: bs) ys) :=
  decodingAt_reaches hb hp (microStep_d0_more (s := decodingAt s .d0 c (b :: bs) ys) rfl rfl)

/-- D0 at the end of the bits, CUR at ROOT (R80). -/
theorem decodingAt_completes :
    Reaches (decodingAt s .d0 s.root [] ys) (complete (decodingAt s .d0 s.root [] ys)) :=
  decodingAt_reaches hb hp (microStep_d0_end (s := decodingAt s .d0 s.root [] ys) rfl rfl rfl)

/-- D0 at the end of the bits, CUR inside a code (R80). -/
theorem decodingAt_truncated (hc : c ≠ s.root) :
    Reaches (decodingAt s .d0 c [] ys) (raiseFault .truncated (c.setWidth 16) (decodingAt s .d0 c [] ys)) :=
  decodingAt_reaches hb hp (microStep_d0_truncated (s := decodingAt s .d0 c [] ys) rfl rfl hc)

variable (hwf : WellFormedTree s.nm s.root.toNat)
include hwf

/-- D0, D1 and D2 on a single-leaf tree: whatever the bit, the root's symbol is given (R81). -/
theorem decodingAt_leafRoot_gives (hr : rootIsLeaf s = true) :
    Reaches (decodingAt s .d0 s.root (b :: bs) ys)
      (decodingAt s .d0 s.root bs (ys ++ [(nmGet s.nm s.root.toNat).sym])) := by
  have hrec : isRecord s.root.toNat = true := hwf.isRecord ⟨[], rfl⟩
  have hemit : emitIndex (decodingAt s .d2 s.root bs ys) = s.root := if_pos hr
  have d1 : microStep .answer (decodingAt s .d1 s.root (b :: bs) ys) = .next (decodingAt s .d2 s.root bs ys) :=
    (microStep_d1_takes rfl rfl).trans (decodeBit_of_leafRoot (s := decodingAt s .d1 s.root bs ys) hr hrec)
  have d2 := microStep_d2_gives (s := decodingAt s .d2 s.root bs ys) rfl rfl (by rw [hemit]; exact hrec)
  rw [hemit] at d2
  exact ((decodingAt_finds_bit hb hp).trans (decodingAt_reaches hb hp d1)).trans (decodingAt_reaches hb hp d2)

/-- On a single-leaf tree `m` bits give the root's symbol `m` times (R81). -/
theorem decodingAt_leafRoot_gives_all (hr : rootIsLeaf s = true) :
    Reaches (decodingAt s .d0 s.root bs ys)
      (decodingAt s .d0 s.root [] (ys ++ List.replicate bs.length (nmGet s.nm s.root.toNat).sym)) := by
  induction bs generalizing ys with
  | nil => simpa using Reaches.refl _
  | cons b bs ih =>
    have hrest := ih (ys := ys ++ [(nmGet s.nm s.root.toNat).sym])
    rw [List.append_assoc, List.singleton_append, ← List.replicate_succ] at hrest
    exact (decodingAt_leafRoot_gives hb hp hwf hr).trans hrest

variable (hr : rootIsLeaf s = false)
include hr

/-- D0 and D1 below an inner root: the bit leads from an inner node to its child (R79). -/
theorem decodingAt_descends (hreach : Reachable s.nm s.root.toNat c.toNat) (hl : (nmGet s.nm c.toNat).isLeaf = false) :
    Reaches (decodingAt s .d0 c (b :: bs) ys)
      (decodingAt s (pointAt s.nm ((nmGet s.nm c.toNat).child b)) ((nmGet s.nm c.toNat).child b) bs ys) := by
  obtain ⟨q, hq⟩ := hreach
  exact (decodingAt_finds_bit hb hp).trans (decodingAt_reaches hb hp
    (microStep_d1_innerRoot (s := decodingAt s .d1 c (b :: bs) ys) rfl rfl hr (hwf.isRecord ⟨q, hq⟩)
      (hwf.isRecord ⟨q ++ [b], follow_child hq hl b⟩)))

/-- Bits that spell a path lead CUR down it, no symbol being given on the way (R79). -/
theorem decodingAt_follows (hreach : Reachable s.nm s.root.toNat c.toNat) (hq : follow s.nm c.toNat q = some i.toNat) :
    Reaches (decodingAt s (pointAt s.nm c) c (q ++ bs) ys) (decodingAt s (pointAt s.nm i) i bs ys) := by
  induction q generalizing c with
  | nil =>
    obtain rfl : c = i := BitVec.eq_of_toNat_eq (Option.some.inj hq)
    exact .refl _
  | cons b q ih =>
    obtain ⟨hl, hq'⟩ : (nmGet s.nm c.toNat).isLeaf = false ∧
        follow s.nm ((nmGet s.nm c.toNat).child b).toNat q = some i.toNat := by
      rw [follow] at hq
      simpa using hq
    obtain ⟨u, hu⟩ := hreach
    rw [pointAt_of_inner hl]
    exact (decodingAt_descends hb hp hwf hr ⟨u, hu⟩ hl).trans (ih ⟨u ++ [b], follow_child hu hl b⟩ hq')

/-- From the root, to an inner node or to a leaf. -/
theorem decodingAt_follows_from_root (hq : follow s.nm s.root.toNat q = some i.toNat) :
    Reaches (decodingAt s .d0 s.root (q ++ bs) ys) (decodingAt s (pointAt s.nm i) i bs ys) := by
  have hroot : pointAt s.nm s.root = .d0 := pointAt_of_inner hr
  rw [← hroot]
  exact decodingAt_follows hb hp hwf hr ⟨[], rfl⟩ hq

/-- The path to a leaf gives the leaf's symbol and CUR is back at ROOT (R79). -/
theorem decodingAt_gives (hq : PathToSymbol s.nm s.root.toNat q x) :
    Reaches (decodingAt s .d0 s.root (q ++ bs) ys) (decodingAt s .d0 s.root bs (ys ++ [x])) := by
  obtain ⟨k, hk, hl, rfl⟩ := hq
  have hrec := hwf.isRecord ⟨q, hk⟩
  obtain ⟨i, rfl⟩ := exists_idx_of_isRecord hrec
  have hfollow := decodingAt_follows_from_root hb hp hwf hr hk (bs := bs) (ys := ys)
  rw [pointAt_of_leaf hl] at hfollow
  exact hfollow.trans (decodingAt_reaches hb hp
    (microStep_d2_innerRoot (s := decodingAt s .d2 i bs ys) rfl rfl hr hrec))

end

/-! ### The codes of a symbol sequence -/

/-- GEN's table of a checked tree is the tree's (42_code_table.md R68). -/
theorem WellFormedTree.shape_of_codeTable {nm : Memory Node} {root : Nat} {ct : Memory CodeEntry}
    (h : WellFormedTree nm root) (hct : codeTable nm root = .ok ct) :
    ∃ t : Shape, t.In nm ∧ t.root = root ∧ t.symbols.Nodup ∧ t.table = ct := by
  obtain ⟨t, ht, rfl, -, hs⟩ := h.shape
  exact ⟨t, ht, rfl, hs, Except.ok.inj ((codeTable_tree ht hs).symm.trans hct)⟩

section

variable {ct : Memory CodeEntry} (hb : s.ph = .busy) (hp : s.plan = []) (hwf : WellFormedTree s.nm s.root.toNat)
  (hct : codeTable s.nm s.root.toNat = .ok ct)
include hb hp hwf hct

/-- The code of a symbol gives the symbol: it is the one-bit code of the root, or the path to the symbol's leaf
(R79, R81). -/
theorem decodingAt_decodes_code (hx : HasCode ct x) :
    Reaches (decodingAt s .d0 s.root (codeBits ct x ++ bs) ys) (decodingAt s .d0 s.root bs (ys ++ [x])) := by
  obtain ⟨t, ht, hroot, hs, rfl⟩ := hwf.shape_of_codeTable hct
  have hcode := (Shape.mem_codes_iff hs).mpr ⟨hx, rfl⟩
  cases hr : rootIsLeaf s with
  | true =>
    rw [rootIsLeaf, ← hroot] at hr
    obtain ⟨rfl, hbits⟩ := (Shape.mem_codes_iff_of_isLeaf ht hr).mp hcode
    rw [hroot] at hr hbits ⊢
    rw [hbits]
    exact decodingAt_leafRoot_gives hb hp hwf hr
  | false =>
    refine decodingAt_gives hb hp hwf hr ?_
    rw [rootIsLeaf, ← hroot] at hr
    rw [← hroot]
    exact (Shape.mem_codes_iff_path ht hr).mp hcode

/-- The codes of the symbols `xs` give `xs`, whatever bits follow (R84). -/
theorem decodingAt_decodes_codes (hxs : ∀ x ∈ xs, HasCode ct x) :
    Reaches (decodingAt s .d0 s.root (encodedBits ct xs ++ bs) ys) (decodingAt s .d0 s.root bs (ys ++ xs)) := by
  induction xs generalizing ys with
  | nil => simpa [encodedBits] using Reaches.refl _
  | cons x xs ih =>
    obtain ⟨hx, hxs⟩ := List.forall_mem_cons.mp hxs
    have hcode := decodingAt_decodes_code hb hp hwf hct hx (bs := encodedBits ct xs ++ bs) (ys := ys)
    have hrest := ih hxs (ys := ys ++ [x])
    rw [List.append_assoc] at hrest
    rw [encodedBits, List.flatMap_cons, List.append_assoc]
    exact hcode.trans hrest

end

/-- Settles O52: after the last code BI is empty and CUR is at ROOT. -/
theorem decodeInvertsEncode : Obligations.DecodeInvertsEncode := by
  intro s ct xs ys hb hp hts hwf hct hxs hi ho
  have hcodes := decodingAt_decodes_codes hb hp hwf hct hxs (bs := []) (ys := ys)
  rw [List.append_nil, decodingAt, ← hi, ← ho] at hcodes
  exact ⟨exec_dec_of_finalTree hts, hcodes.trans (decodingAt_completes hb hp)⟩

/-- Settles O53: after the whole codes the rest leads CUR to an inner node below the root, and there the bits end. -/
theorem cutStreamsAreTruncated : Obligations.CutStreamsAreTruncated := by
  intro s ct xs ys q k hb hp hts hwf hr hct hxs hne hq hl hi ho
  obtain ⟨i, rfl⟩ := exists_idx_of_isRecord (hwf.isRecord ⟨q, hq⟩)
  have hroot : i ≠ s.root := by
    rintro rfl
    obtain ⟨n, hn⟩ := hwf
    exact hne ((treeConditions_of_check hn).noSharing q [] _ hq rfl)
  have hcodes := decodingAt_decodes_codes hb hp hwf hct hxs (bs := q) (ys := ys)
  have hrest := decodingAt_follows_from_root hb hp hwf hr hq (bs := []) (ys := ys ++ xs)
  rw [List.append_nil, pointAt_of_inner hl] at hrest
  exact ⟨_, _, exec_dec_eq_decodingAt hts hi ho, (hcodes.trans hrest).trans (decodingAt_truncated hb hp hroot),
    truncated_recorded i _, rfl, rfl⟩

/-- Settles O50: every bit gives the root's symbol, and the bits end with CUR at ROOT. -/
theorem singleLeafDecodesEveryBit : Obligations.SingleLeafDecodesEveryBit := by
  intro s bs ys hb hp hts hwf hr hi ho
  have hall := decodingAt_leafRoot_gives_all hb hp hwf hr (bs := bs) (ys := ys)
  rw [decodingAt, ← hi, ← ho] at hall
  exact ⟨exec_dec_of_finalTree hts, hall.trans (decodingAt_completes hb hp)⟩

end Sys2Proof.Machine
end

section
/-! PROOF. The round trip: FREQ, BUILD, GEN and ENC on an input, then DEC on the bits they give (44_decoder.md R84,
30_encoding.md R54). -/

namespace Sys2Proof.Machine

variable {s t : State} {v : Word} {i : Instr} {m : Memory Word} {xs : List Sym}

/-! ### Consistency along a run -/

theorem Consistent.with_plan (h : Consistent s) (es : List Event) : Consistent { s with plan := es } :=
  ⟨h.arrays.congr rfl rfl rfl, h.run.congr rfl rfl rfl rfl rfl, h.tree.congr id rfl rfl rfl rfl rfl rfl,
    h.points.congr rfl⟩

theorem Consistent.reaches (h : Consistent s) (h' : Reaches s t) : Consistent t := by
  obtain ⟨k, hk⟩ := h'
  induction k generalizing s with
  | zero => cases hk; exact h
  | succ k ih =>
    obtain ⟨u, hu, hk⟩ := run_succ_inv k hk
    exact ih (consistencyIsKept s u h hu) hk

/-! ### The host's part -/

/-- The state at the acceptance of the word `v`, with nothing planned after it (45_control.md R88). -/
def accepted (v : Word) (s : State) : State := accept v { s with plan := [], resp := .done }

/-- A command issued in IDLE goes on as its meaning says. -/
theorem issue_reaches (hi : s.ph = .idle) (hd : decode v = .ok i) (he : exec i (accepted v s) = .next t) :
    Reaches { s with plan := [.write 0 v] } t := by
  apply Reaches.step
  rw [step_write_cmd (s := { s with plan := [.write 0 v] }) rfl rfl (.inl hi), issue, hd]
  exact he

/-- In IDLE a stream can be attached (10_state.md R24). -/
theorem attach_reaches {e : Event} {es : List Event} (hi : s.ph = .idle)
    (he : happen e { s with plan := es } = attach t { s with plan := es }) :
    Reaches { s with plan := e :: es } t := by
  apply Reaches.step
  rw [step_of_plan (s := { s with plan := e :: es }) rfl, he, attach, hi]

/-! ### FREQ -/

/-- FREQ on an input of at most `W_MAX` symbols leaves their counts in FT. -/
theorem freq_counts (hi : s.ph = .idle) (hlen : xs.length ≤ Config.wMax) :
    ∃ t, Reaches { s with plan := [.attachSI xs, .write 0 0x00000002] } t ∧ t.ph = .idle ∧ t.plan = [] ∧
      CountsInput t.ft xs := by
  obtain ⟨e, m, hm, -, -, hr⟩ := freqCountsTheInput (accepted 0x00000002 { s with si := some xs }) xs rfl rfl rfl
    fun x => List.count_le_length.trans hlen
  have issued := issue_reaches (s := { s with si := some xs }) hi rfl e
  exact ⟨_, ((attach_reaches hi rfl).trans issued).trans hr, rfl, rfl, hm⟩

/-! ### BUILD -/

/-- The numbers of occurrences of all numbers below a bound of the list sum up to the list's length. -/
theorem sum_count_range {l : List Nat} {n : Nat} (h : ∀ k ∈ l, k < n) :
    ((List.range n).map fun k => l.count k).sum = l.length := by
  have hsum := Multiset.sum_count_eq_card (s := Finset.range n) (m := (l : Multiset Nat)) fun k hk =>
    Finset.mem_range.mpr (h k hk)
  simpa [Finset.sum, Multiset.range] using hsum

/-- The counts of an input sum up to its length. -/
theorem CountsInput.totalCount_eq (h : CountsInput m xs) : totalCount m = xs.length := by
  have hcount : ∀ k ∈ List.range Config.nSymbols, (ftGet m k).toNat = (xs.map BitVec.toNat).count k := by
    intro k hk
    obtain ⟨x, rfl⟩ : ∃ x : Sym, x.toNat = k := ⟨BitVec.ofNatLT k (List.mem_range.mp hk), rfl⟩
    rw [h x, List.count_map_of_injective xs BitVec.toNat fun _ _ => BitVec.eq_of_toNat_eq]
  rw [totalCount, List.map_congr_left hcount, sum_count_range, List.length_map]
  intro k hk
  obtain ⟨x, -, rfl⟩ := List.mem_map.mp hk
  exact x.isLt

/-- The symbols of an input are the present ones. -/
theorem CountsInput.mem_presentSymbols (h : CountsInput m xs) {x : Sym} (hx : x ∈ xs) :
    x.toNat ∈ presentSymbols m := by
  refine Machine.mem_presentSymbols.mpr ⟨x.isLt, fun h0 => ?_⟩
  have hc := h x
  rw [h0] at hc
  exact (List.count_pos_iff.mpr hx).ne hc

/-- NM holds a tree of the input: a finalised one with every symbol of the input at a leaf, or none when the input is
empty. -/
inductive HoldsTreeOf (s : State) (xs : List Sym) : Prop where
  | none (hts : s.ts = .noTree) (hxs : xs = [])
  | tree (hts : s.ts = .finalTree) (hwf : WellFormedTree s.nm s.root.toNat)
      (hsym : ∀ x ∈ xs, ∃ p, PathToSymbol s.nm s.root.toNat p x)

/-- The one tree merging leaves has every present symbol at a leaf. -/
theorem Grown.path_to_present {f : Forest} {ts : List Shape} {r k : Nat} (h : Grown m f ts) (hq : f.pq = [r])
    (hk : k ∈ presentSymbols m) : ∃ p, PathToSymbol f.nm r p (BitVec.ofNat 8 k) := by
  obtain ⟨t, rfl, rfl⟩ := List.map_eq_singleton_iff.mp (List.perm_singleton.mp (hq ▸ h.roots))
  rw [← Shape.mem_symbols_iff (h.inNm t (List.mem_singleton_self t)), ← List.flatMap_singleton Shape.symbols t,
    h.symbols.mem_iff]
  exact List.mem_map_of_mem hk

/-- BUILD on the counts of an input of at most `W_MAX` symbols completes with its tree. -/
theorem exec_build_of_counts (h : CountsInput s.ft xs) (hlen : xs.length ≤ Config.wMax) :
    ∃ t, exec .build s = .next t ∧ t.ph = .idle ∧ t.plan = s.plan ∧ HoldsTreeOf t xs := by
  rcases execBuild_ends s with ⟨hnil, e⟩ | ⟨g, ts, r, hg, hq, e⟩ | ⟨f, ts, g, hf, ho, -⟩
  · refine ⟨_, e, rfl, rfl, .none rfl (List.eq_nil_iff_forall_not_mem.mpr fun x hx => ?_)⟩
    have := h.mem_presentSymbols hx
    rw [hnil] at this
    cases this
  · have hcheck := hg.check_root hq
    have hroot : (BitVec.ofNat 9 r).toNat = r := by
      rw [BitVec.toNat_ofNat]
      exact Nat.mod_eq_of_lt ((check_root_lt hcheck).trans (by decide))
    refine ⟨_, e, rfl, rfl, .tree rfl ⟨_, hroot.symm ▸ hcheck⟩ fun x hx => ?_⟩
    have hpath := hg.path_to_present hq (h.mem_presentSymbols hx)
    rw [BitVec.ofNat_toNat, BitVec.setWidth_eq] at hpath
    exact hroot.symm ▸ hpath
  · obtain ⟨-, -, hsum, -⟩ := mergeOnce_overflow hf ho
    rw [h.totalCount_eq] at hsum
    omega

/-- BUILD makes the tree of the input whose counts FT holds. -/
theorem build_makes_tree (hi : s.ph = .idle) (h : CountsInput s.ft xs) (hlen : xs.length ≤ Config.wMax) :
    ∃ t, Reaches { s with plan := [.write 0 0x00000003] } t ∧ t.ph = .idle ∧ t.plan = [] ∧ HoldsTreeOf t xs := by
  obtain ⟨t, e, hph, hplan, ht⟩ := exec_build_of_counts (s := accepted 0x00000003 s) h hlen
  exact ⟨t, issue_reaches hi rfl e, hph, hplan, ht⟩

/-! ### GEN -/

/-- NM and CT hold a tree and its codes, every symbol of the input having one; or neither, when the input is empty. -/
inductive HoldsCodesOf (s : State) (xs : List Sym) : Prop where
  | none (hts : s.ts = .noTree) (hxs : xs = []) (hct : s.ct = [])
  | tree (hts : s.ts = .finalTree) (hwf : WellFormedTree s.nm s.root.toNat)
      (hct : codeTable s.nm s.root.toNat = .ok s.ct) (hcode : ∀ x ∈ xs, HasCode s.ct x)

theorem HoldsCodesOf.codesConsistent (h : HoldsCodesOf s xs) : CodesConsistent s.ct := by
  cases h with
  | none hts hxs hct => rw [hct]; exact fun _ => .inl rfl
  | tree hts hwf hct hcode =>
    obtain ⟨t, ht, -, hs, htable⟩ := hwf.shape_of_codeTable hct
    rw [← htable]
    exact Shape.codesConsistent_table ht hs

theorem HoldsCodesOf.hasCode (h : HoldsCodesOf s xs) : ∀ x ∈ xs, HasCode s.ct x := by
  cases h with
  | none hts hxs hct => rw [hxs]; exact fun _ hx => nomatch hx
  | tree hts hwf hct hcode => exact hcode

theorem HoldsCodesOf.congr (h : HoldsCodesOf s xs) (e1 : t.ts = s.ts) (e2 : t.nm = s.nm) (e3 : t.root = s.root)
    (e4 : t.ct = s.ct) : HoldsCodesOf t xs := by
  cases h with
  | none hts hxs hct => exact .none (e1.trans hts) hxs (e4.trans hct)
  | tree hts hwf hct hcode =>
    refine .tree (e1.trans hts) ?_ ?_ ?_
    · rw [e2, e3]; exact hwf
    · rw [e2, e3, e4]; exact hct
    · rw [e4]; exact hcode

/-- GEN makes the codes of the tree. -/
theorem gen_makes_codes (hi : s.ph = .idle) (h : HoldsTreeOf s xs) :
    ∃ t, Reaches { s with plan := [.write 0 0x00000004] } t ∧ t.ph = .idle ∧ t.plan = [] ∧ HoldsCodesOf t xs := by
  cases h with
  | none hts hxs =>
    exact ⟨_, issue_reaches hi rfl (exec_gen_of_noTree hts), rfl, rfl, .none hts hxs rfl⟩
  | tree hts hwf hsym =>
    obtain ⟨t, ht, hroot, -, hs⟩ := hwf.shape
    refine ⟨_, issue_reaches hi rfl (exec_gen_of_finalTree hts ht hs hroot), rfl, rfl,
      .tree hts hwf (hroot ▸ codeTable_tree ht hs) fun x hx => (Shape.hasCode_table_iff hs).mpr ?_⟩
    rw [Shape.mem_symbols_iff ht, hroot]
    exact hsym x hx

/-! ### ENC -/

/-- The state with a symbol source holding `xs` and an empty bit sink attached (10_state.md R24). -/
def attachedForEnc (xs : List Sym) (s : State) : State := { s with si := some xs, bo := some [] }

theorem attachedForEnc_reached (hi : s.ph = .idle) (es : List Event) :
    Reaches { s with plan := .attachSI xs :: .attachBO :: es } { attachedForEnc xs s with plan := es } :=
  (attach_reaches hi rfl).trans (attach_reaches (s := { s with si := some xs }) hi rfl)

/-- ENC on the input sends the codes of its symbols. -/
theorem enc_sends_codes (hi : s.ph = .idle) (h : HoldsCodesOf s xs) :
    ∃ t, Reaches { s with plan := [.attachSI xs, .attachBO, .write 0 0x00000005] } t ∧ t.ph = .idle ∧ t.plan = [] ∧
      HoldsCodesOf t xs ∧ t.bo = some (encodedBits t.ct xs) := by
  obtain ⟨e, x, k, hr⟩ := encodeEmitsTheCodes (accepted 0x00000005 (attachedForEnc xs s)) xs [] rfl rfl rfl rfl
    h.codesConsistent h.hasCode
  have issued := issue_reaches (s := attachedForEnc xs s) hi rfl e
  exact ⟨_, ((attachedForEnc_reached hi _).trans issued).trans hr, rfl, rfl, h.congr rfl rfl rfl rfl, rfl⟩

/-! ### DEC -/

/-- The state with a bit source holding `bs` and an empty symbol sink attached (10_state.md R24). -/
def attachedForDec (bs : List Bool) (s : State) : State := { s with bi := some bs, so := some [] }

theorem attachedForDec_reached {bs : List Bool} (hi : s.ph = .idle) (es : List Event) :
    Reaches { s with plan := .attachBI bs :: .attachSO :: es } { attachedForDec bs s with plan := es } :=
  (attach_reaches hi rfl).trans (attach_reaches (s := { s with bi := some bs }) hi rfl)

/-- DEC on the codes of the input gives the input; with no tree the input and its bits are empty (R82, R84). -/
theorem dec_gives_input (hi : s.ph = .idle) (h : HoldsCodesOf s xs) :
    ∃ t, Reaches { s with plan := [.attachBI (encodedBits s.ct xs), .attachSO, .write 0 0x00000006] } t ∧
      t.ph = .idle ∧ t.plan = [] ∧ t.op = 0x06 ∧ t.done = true ∧ t.so = some xs := by
  have issued {u : State} (e : exec .dec (accepted 0x00000006 (attachedForDec (encodedBits s.ct xs) s)) = .next u) :=
    (attachedForDec_reached hi _).trans (issue_reaches (s := attachedForDec (encodedBits s.ct xs) s) hi rfl e)
  cases h with
  | none hts hxs hct =>
    subst hxs
    obtain ⟨u, e, rfl, hend, -⟩ := decodeWithoutATree (accepted 0x00000006 (attachedForDec [] s)) rfl rfl hts
    exact ⟨_, (issued e).trans (.step (hend rfl)), rfl, rfl, rfl, rfl, rfl⟩
  | tree hts hwf hct hcode =>
    obtain ⟨e, hr⟩ := decodeInvertsEncode (accepted 0x00000006 (attachedForDec (encodedBits s.ct xs) s)) s.ct xs []
      rfl rfl hts hwf hct hcode rfl rfl
    exact ⟨_, (issued e).trans hr, rfl, rfl, rfl, rfl, rfl⟩

/-- Settles O60: each command leaves what the next one needs; consistency at the end says that ERR is 0. -/
theorem roundTripGivesTheInputBack : Obligations.RoundTripGivesTheInputBack := by
  intro s xs hs hi hlen
  obtain ⟨s1, r1, i1, p1, hcounts⟩ := freq_counts hi hlen
  obtain ⟨s2, r2, i2, p2, htree⟩ := build_makes_tree i1 hcounts hlen
  obtain ⟨s3, r3, i3, p3, hcodes⟩ := gen_makes_codes i2 htree
  obtain ⟨s4, r4, i4, p4, hcodes', hbo⟩ := enc_sends_codes i3 hcodes
  obtain ⟨s5, r5, i5, p5, hop, hdone, hso⟩ := dec_gives_input i4 hcodes'
  have c1 := (hs.with_plan _).reaches r1
  have c2 := (c1.with_plan _).reaches r2
  have c3 := (c2.with_plan _).reaches r3
  have c4 := (c3.with_plan _).reaches r4
  have c5 := (c4.with_plan _).reaches r5
  exact ⟨s1, s2, s3, s4, s5, _, r1, i1, p1, r2, i2, p2, r3, i3, p3, r4, i4, p4, hbo, r5, i5, p5, hop, hdone,
    c5.run.err_eq_zero (by simp [i5]), hso⟩

end Sys2Proof.Machine
end

section
/-! PROOF. Issue and CLR, and that no step from a consistent state stops the machine (45_control.md R85, R88, R89,
70_reset_and_hazards.md R102, R106). -/

namespace Sys2Proof.Machine

variable {s : State} {v : Word} {rest : List Event} {e : Event} {r : Reply} {b : Bool}

/-! ### Issue -/

/-- Settles O5: CMD takes the word, and `issue` runs what it spells from the state at acceptance. -/
theorem stepRunsTheDecodedCommand : Obligations.StepRunsTheDecodedCommand := by
  intro s v rest i hp hi hd
  rw [step_write_cmd hp rfl hi, issue, hd, ← opcodeField_eq]
  rfl

/-! ### CLR -/

/-- CLR never looks at the state: the block's part is the reset state, the rest stands (45_control.md R85). -/
theorem exec_clr (s : State) : exec .clr s = .next { State.reset with
    op := 0x01, done := true, si := s.si, bo := s.bo, bi := s.bi, so := s.so, resp := s.resp, plan := s.plan } := rfl

/-- While BUSY every write is refused (20_memory.md R31). -/
theorem writeRefusedAt_busy (a : Nat) (v : Word) : WriteRefusedAt .busy a v :=
  .inr (.inr (.inr (.inr (.inl rfl))))

/-- In FAULT, CMD takes no word but CLR (20_memory.md R31). -/
theorem writeRefusedAt_fault_cmd (hv : v ≠ 0x00000001) : WriteRefusedAt .fault 0x000 v :=
  .inr (.inr (.inr (.inr (.inr ⟨rfl, by decide, fun ⟨_, h1⟩ => hv h1⟩))))

/-- Settles O14: CLR's word is issued unless BUSY, and the table of R31 refuses the other writes. -/
theorem clrGivesTheResetState : Obligations.ClrGivesTheResetState := by
  refine ⟨exec_clr, fun s rest hp => ⟨fun hb => ?_, fun hb => ?_⟩, fun s v rest hf hp hv => ?_⟩
  · have hi : s.ph = .idle ∨ (s.ph = .fault ∧ (0x00000001 : Word) = 0x00000001) := by
      cases h : s.ph with
      | idle => exact .inl rfl
      | busy => exact absurd h hb
      | fault => exact .inr ⟨rfl, rfl⟩
    rw [stepRunsTheDecodedCommand s _ rest .clr hp hi decode_one, exec_clr]
  · exact step_write_refused hp (hb ▸ writeRefusedAt_busy _ _)
  · exact step_write_refused hp (hf ▸ writeRefusedAt_fault_cmd hv)

/-! ### Commands answer -/

/-- Every command answers; GEN does because the tree it walks has passed the check (42_code_table.md R68). -/
theorem exec_next (i : Instr) (h : s.ts = .finalTree → WellFormedTree s.nm s.root.toNat) : ∃ t, exec i s = .next t := by
  cases i with
  | clr | freq | enc => exact ⟨_, rfl⟩
  | build => exact execBuild_next s
  | gen =>
    cases hts : s.ts with
    | noTree => exact ⟨_, exec_gen_of_noTree hts⟩
    | openTree => exact ⟨_, exec_gen_of_openTree hts⟩
    | finalTree =>
      obtain ⟨t, ht, hroot, -, hs⟩ := (h hts).shape
      exact ⟨_, exec_gen_of_finalTree hts ht hs hroot⟩
  | dec =>
    cases hts : s.ts with
    | noTree => exact ⟨_, exec_dec_of_noTree hts⟩
    | openTree => exact ⟨_, exec_dec_of_openTree hts⟩
    | finalTree => exact ⟨_, exec_dec_of_finalTree hts⟩
  | fin idx =>
    rcases execFin_cases idx s with ⟨n, -, e⟩ | ⟨x, -, e⟩
    · exact ⟨_, e⟩
    · exact ⟨_, e⟩

/-- Every word written to CMD has a result, an illegal one too (45_control.md R89). -/
theorem issue_next (h : s.ts = .finalTree → WellFormedTree s.nm s.root.toNat) : ∃ t, issue v s = .next t := by
  rcases issue_cases v s with ⟨i, -, e⟩ | ⟨-, e⟩ <;> rw [e]
  · exact exec_next i h
  · exact ⟨_, rfl⟩

theorem hostWrite_next (addr : Addr) (h : s.ts = .finalTree → WellFormedTree s.nm s.root.toNat) :
    ∃ t, hostWrite addr v s = .next t := by
  rcases hostWrite_cases addr v s with ⟨-, e⟩ | ⟨-, -, e⟩ | ⟨-, -, e⟩ | ⟨x, -, -, e⟩ | ⟨i, -, -, nd, e⟩ <;> rw [e]
  case inr.inl => exact issue_next h
  all_goals exact ⟨_, rfl⟩

/-! ### The running command answers -/

theorem Consistent.wellFormedTree (h : Consistent s) (hts : s.ts = .finalTree) : WellFormedTree s.nm s.root.toNat :=
  ⟨_, h.tree.finalChecked hts⟩

/-- On a checked tree with CUR between bits, a bit leads to a record (44_decoder.md R79, R81). -/
theorem decodeBit_next (hwf : WellFormedTree s.nm s.root.toNat) (hc : CursorAt false s) :
    ∃ t, decodeBit b s = .next t := by
  cases hr : rootIsLeaf s with
  | true => exact ⟨_, decodeBit_of_leafRoot hr (hwf.isRecord ⟨[], rfl⟩)⟩
  | false =>
    obtain ⟨⟨p, hp⟩, hl⟩ := hc.2 hr
    exact ⟨_, decodeBit_of_innerRoot hr (hwf.isRecord ⟨p, hp⟩) (hwf.isRecord ⟨p ++ [b], follow_child hp hl b⟩)⟩

theorem stepD1_next (h : Consistent s) (hp : s.pt = .d1) : ∃ t, stepD1 r s = .next t := by
  rcases stepD1_cases r s with e | ⟨-, e⟩ | ⟨b, bs, -, e⟩ <;> rw [e]
  · exact ⟨_, rfl⟩
  · exact ⟨_, rfl⟩
  · have hcur : CursorAt false s := h.points.cursorBetween (.inr hp)
    exact decodeBit_next (s := { s with bi := some bs }) (h.wellFormedTree (h.points.treeAtBits (.inr (.inl hp)))) hcur

theorem stepD2_next (h : Consistent s) (hp : s.pt = .d2) : ∃ t, stepD2 r s = .next t := by
  rcases stepD2_cases r s with ⟨-, hr⟩ | e | ⟨-, e⟩ | ⟨xs, -, e⟩
  · rw [h.isRecord_emitIndex hp] at hr
    cases hr
  · exact ⟨_, e⟩
  · exact ⟨_, e⟩
  · exact ⟨_, e⟩

/-- The engine has its turn: a BUSY engine is at a point, and only DEC's points could lack a record. -/
theorem engineTurn_next (h : Consistent s) : ∃ t, engineTurn r s = .next t := by
  by_cases hb : s.ph = .busy
  · rw [engineTurn_of_busy hb]
    cases hp : s.pt with
    | rest => exact absurd hp (h.run.pointIffBusy.mp hb)
    | d1 => rw [microStep_d1 hp]; exact stepD1_next h hp
    | d2 => rw [microStep_d2 hp]; exact stepD2_next h hp
    | _ => simp only [microStep, hp]; exact ⟨_, rfl⟩
  · exact ⟨_, engineTurn_of_notBusy hb⟩

/-! ### Every event but an attachment while BUSY answers -/

/-- The events by which the host attaches a stream (10_state.md R24). -/
def IsAttachment (e : Event) : Prop :=
  (∃ xs, e = .attachSI xs) ∨ e = .attachBO ∨ (∃ bs, e = .attachBI bs) ∨ e = .attachSO

theorem attachesOnlyWhenNotBusy_iff (hp : s.plan = e :: rest) :
    AttachesOnlyWhenNotBusy s ↔ (s.ph = .busy → ¬IsAttachment e) := by
  simp [AttachesOnlyWhenNotBusy, IsAttachment, hp]

theorem happen_attachment (he : IsAttachment e) (s : State) : ∃ t, happen e s = attach t s := by
  rcases he with ⟨xs, rfl⟩ | rfl | ⟨bs, rfl⟩ | rfl <;> exact ⟨_, rfl⟩

theorem happen_next (h : Consistent s) (he : ¬IsAttachment e) : ∃ t, happen e s = .next t := by
  cases e with
  | read | rst => exact ⟨_, rfl⟩
  | write addr v => exact hostWrite_next addr h.wellFormedTree
  | turn r => exact engineTurn_next h
  | attachSI xs => exact absurd (.inl ⟨xs, rfl⟩) he
  | attachBO => exact absurd (.inr (.inl rfl)) he
  | attachBI bs => exact absurd (.inr (.inr (.inl ⟨bs, rfl⟩))) he
  | attachSO => exact absurd (.inr (.inr (.inr rfl))) he

/-- Settles O24: an attachment is refused exactly while BUSY; every other event, and the engine's turn with nothing
planned, has a result. -/
theorem noStepStopsFromAConsistentState : Obligations.NoStepStopsFromAConsistentState := by
  intro s h
  rcases step_cases s with ⟨hp, hs⟩ | ⟨e, rest, hp, hs⟩ <;> rw [hs]
  · have hnone : AttachesOnlyWhenNotBusy s := fun _ e rest hp' => by rw [hp] at hp'; cases hp'
    exact ⟨fun _ => engineTurn_next h, absurd hnone⟩
  · rw [attachesOnlyWhenNotBusy_iff hp]
    by_cases he : IsAttachment e
    · obtain ⟨t, ht⟩ := happen_attachment he { s with plan := rest }
      rw [ht]
      rcases attach_cases t { s with plan := rest } with ⟨hb, ha⟩ | ⟨hb, ha⟩
      · exact ⟨fun hn => absurd he (hn hb), fun _ => ha⟩
      · exact ⟨fun _ => ⟨t, ha⟩, fun hn => absurd (fun hb' => absurd hb' hb) hn⟩
    · exact ⟨fun _ => happen_next (h.with_plan rest) he, absurd fun _ => he⟩

end Sys2Proof.Machine
end

section
/-! PROOF. Faults: what entry records, which command can raise what, and what ends a fault (60_exceptions.md R90, R91,
R95, R97). -/

namespace Sys2Proof.Machine

variable {s t : State} {c : Cause} {info : Nat} {op : BitVec 8} {i : Instr}

/-! ### Entry -/

/-- Settles O15: the record is the concatenation of its fields, and an engine that is not BUSY has no turn. -/
theorem faultEntryRecordsAndStops : Obligations.FaultEntryRecordsAndStops :=
  ⟨by decide, fun c info s => ⟨raiseFault_recorded c info s, rfl, fun _ => engineTurn_of_notBusy nofun⟩⟩

/-- STAGE of a recorded fault (60_exceptions.md R92). -/
theorem FaultRecorded.stage (h : FaultRecorded t c info) : t.err.toNat / 256 % 256 = t.op.toNat := by
  obtain ⟨-, he⟩ := h
  have hc := c.code.isLt
  have ho := t.op.isLt
  omega

/-- CAUSE of a recorded fault (60_exceptions.md R92). -/
theorem FaultRecorded.cause (h : FaultRecorded t c info) : t.err.toNat % 256 = c.code.toNat := by
  obtain ⟨-, he⟩ := h
  have hc := c.code.isLt
  omega

/-! ### What each command can raise -/

/-- The causes a command can raise once its word is legal (60_exceptions.md R91). -/
def causesOf : Instr → List Cause
  | .clr => []
  | .freq => [.siErr, .countOvf]
  | .build => [.weightOvf]
  | .gen => [.treeOpen]
  | .enc => [.siErr, .noCode, .boErr]
  | .dec => [.treeOpen, .biErr, .noTreeBits, .truncated, .soErr]
  | .fin _ => [.treeMalformed]

theorem opcodeField_encode_fin (idx : Nat) : opcodeField (encode (.fin idx)) = 0x07 := by
  apply BitVec.eq_of_toNat_eq
  rw [opcodeField_toNat, encode_fin_toNat]
  change _ = 7
  omega

/-- `t` records a fault that a command with the opcode `op` can raise. -/
def RaisedBy (op : BitVec 8) (t : State) : Prop :=
  ∃ i c info, opcodeField (encode i) = op ∧ c ∈ causesOf i ∧ FaultRecorded t c info

theorem raisedBy_raiseFault {info : BitVec 16} (i : Instr) (ho : opcodeField (encode i) = op) (hc : c ∈ causesOf i) :
    RaisedBy op (raiseFault c info s) :=
  ⟨i, c, info.toNat, ho, hc, raiseFault_recorded c info s⟩

/-- A command that faults from its acceptance does so with a cause of its own. -/
theorem CommandTo.raisedBy (k : CommandTo s i t) (hs : s.ph ≠ .fault) (ht : t.ph = .fault) :
    RaisedBy (opcodeField (encode i)) t := by
  cases k with
  | buildOverflow | genOpen | decOpen | finMalformed => exact raisedBy_raiseFault _ rfl (.head _)
  | freq | enc | decNone | decTree => exact absurd ht hs
  | clr | buildTree | buildNone | genNone | genTree | finTree => cases ht

/-- A running command that faults does so with a cause of the command its point belongs to. -/
theorem MicroTo.raisedBy (m : MicroTo s t) (hs : s.ph ≠ .fault) (ht : t.ph = .fault) : RaisedBy s.pt.opcode t := by
  cases m with
  | siErr hp =>
    rcases hp with hp | hp | hp | hp <;> rw [hp]
    · exact raisedBy_raiseFault .freq rfl (by decide)
    · exact raisedBy_raiseFault .freq rfl (by decide)
    · exact raisedBy_raiseFault .enc rfl (by decide)
    · exact raisedBy_raiseFault .enc rfl (by decide)
  | countOverflows hp => rw [hp]; exact raisedBy_raiseFault .freq rfl (by decide)
  | boErr hp | noCode hp => rw [hp]; exact raisedBy_raiseFault .enc rfl (by decide)
  | biErr hp => rcases hp with hp | hp | hp <;> rw [hp] <;> exact raisedBy_raiseFault .dec rfl (by decide)
  | soErr hp | bitsWithoutTree hp | truncated hp => rw [hp]; exact raisedBy_raiseFault .dec rfl (by decide)
  | inputEnds | noBits | bitsEnd => cases ht
  | _ => exact absurd ht hs

theorem MicroTo.op_eq (m : MicroTo s t) : t.op = s.op := by
  cases m.runTo with
  | goesOn _ hop | faults _ hop | completes _ hop => exact hop

theorem RaisedBy.stage (h : RaisedBy op t) : t.err.toNat / 256 % 256 = t.op.toNat := by
  obtain ⟨i, c, info, -, -, hr⟩ := h
  exact hr.stage

/-- The list of 60_exceptions.md R91 as cause codes. -/
theorem RaisedBy.cause (h : RaisedBy op t) :
    (op = 0x02 ∧ t.err.toNat % 256 ∈ [0x40, 0x10]) ∨
    (op = 0x03 ∧ t.err.toNat % 256 ∈ [0x11]) ∨
    (op = 0x04 ∧ t.err.toNat % 256 ∈ [0x51]) ∨
    (op = 0x05 ∧ t.err.toNat % 256 ∈ [0x40, 0x20, 0x41]) ∨
    (op = 0x06 ∧ t.err.toNat % 256 ∈ [0x51, 0x42, 0x31, 0x30, 0x43]) ∨
    (op = 0x07 ∧ t.err.toNat % 256 ∈ [0x12]) := by
  obtain ⟨i, c, info, rfl, hc, hr⟩ := h
  have hm : c.code.toNat ∈ (causesOf i).map (fun c => c.code.toNat) := List.mem_map_of_mem hc
  rw [hr.cause]
  cases i with
  | clr => cases hc
  | freq => exact .inl ⟨rfl, hm⟩
  | build => exact .inr (.inl ⟨rfl, hm⟩)
  | gen => exact .inr (.inr (.inl ⟨rfl, hm⟩))
  | enc => exact .inr (.inr (.inr (.inl ⟨rfl, hm⟩)))
  | dec => exact .inr (.inr (.inr (.inr (.inl ⟨rfl, hm⟩))))
  | fin idx => exact .inr (.inr (.inr (.inr (.inr ⟨opcodeField_encode_fin idx, hm⟩))))

/-- While BUSY only a turn of the engine leads to FAULT: the host's accesses leave PH, and reset ends in IDLE. -/
theorem turn_of_busy_to_fault (h : step s = .next t) (hb : s.ph = .busy) (ht : t.ph = .fault) :
    s.plan = [] ∨ ∃ r rest, s.plan = .turn r :: rest := by
  have hbt : s.ph ≠ t.ph := by rw [hb, ht]; decide
  cases hp : s.plan with
  | nil => exact .inl rfl
  | cons e rest =>
    cases e with
    | turn r => exact .inr ⟨r, rest, rfl⟩
    | read addr =>
      rcases step_read hp with ⟨-, e⟩ | ⟨-, e⟩ <;> rw [e] at h <;> cases h <;> exact absurd rfl hbt
    | write addr v =>
      rw [step_write_refused hp (hb ▸ writeRefusedAt_busy _ _)] at h
      cases h
      exact absurd rfl hbt
    | attachSI | attachBO | attachBI | attachSO =>
      rw [step_of_plan hp] at h
      exact absurd hb (attach_next h).1
    | rst =>
      rw [step_of_plan hp] at h
      cases h
      cases ht

/-- Settles O17: a step into FAULT is an illegal word, a command that faults at once, or a running one's turn. -/
theorem eachCommandRaisesOnlyItsFaults : Obligations.EachCommandRaisesOnlyItsFaults := by
  intro s t h hs e ht
  cases step_to e with
  | @badCommand v _ _ hp hi hd =>
    have hr := raiseFault_recorded .badCmd (v.extractLsb' 16 16) (accept v (answerHost .done (taken s)))
    exact ⟨hr.stage, .inl ⟨_, _, hp, opcodeField_eq _⟩, .inl ⟨hr.cause, _, _, _, hp, hd⟩⟩
  | command hp hi hd hc =>
    have hop := hc.op_eq hd
    have hr : RaisedBy t.op t := by
      rw [hop, opcodeField_of_decode hd]
      exact hc.raisedBy nofun ht
    exact ⟨hr.stage, .inl ⟨_, _, hp, hop.trans (opcodeField_eq _)⟩, .inr hr.cause⟩
  | runs hb hm =>
    have hop : t.op = s.op := hm.op_eq
    have hr : RaisedBy t.op t := by
      rw [hop, h.op_eq hb]
      exact hm.raisedBy hs ht
    exact ⟨hr.stage, .inr ⟨turn_of_busy_to_fault e hb ht, hop⟩, .inr hr.cause⟩
  | reset => cases ht
  | _ => exact absurd ht hs

/-! ### The return from a fault -/

/-- Settles O16: of the cases of a step that FAULT allows, only CLR and reset touch the block beyond CTSEL. -/
theorem faultStaysUntilClrOrReset : Obligations.FaultStaysUntilClrOrReset := by
  intro s t hf e
  cases step_to e with
  | badCommand _ hi | writeFt _ hi | writeNm _ _ hi => rw [hf] at hi; cases hi
  | runs hb => rw [hf] at hb; cases hb
  | command hp hi hd hc =>
    obtain ⟨-, rfl⟩ := hi.resolve_left (by simp [hf])
    rw [decode_one] at hd
    cases hd
    cases hc
    exact .inr (.inl ⟨_, hp, by rw [taken_of_plan hp]; rfl⟩)
  | reset hp => exact .inr (.inr ⟨_, hp, by rw [taken_of_plan hp]; rfl⟩)
  | _ => exact .inl rfl

end Sys2Proof.Machine
end

section
/-! PROOF. Reset, and that a running command ends when every request is answered: a bound on the turns still to come
that every answered turn lowers (70_reset_and_hazards.md R101, R112). -/

namespace Sys2Proof.Machine

variable {s t : State} {b : Bool}

/-! ### Reset -/

/-- Settles O13: the event never looks at the run state. -/
theorem resetAppliesInEveryRunState : Obligations.ResetAppliesInEveryRunState :=
  fun _ _ hp => step_of_plan hp

/-! ### The ports stay attached -/

/-- A stream is attached to each of the four ports (10_state.md R24). -/
def Attached (s : State) : Prop := s.si ≠ none ∧ s.bo ≠ none ∧ s.bi ≠ none ∧ s.so ≠ none

/-- A running command takes items from its sources and gives items to its sinks, and detaches none. -/
theorem MicroTo.attached (m : MicroTo s t) (h : Attached s) : Attached t := by
  obtain ⟨hsi, hbo, hbi, hso⟩ := h
  cases m with
  | countOverflows | counts | noCode | startsCode | emptyCode => exact ⟨nofun, hbo, hbi, hso⟩
  | sendsBit | sendsLastBit => exact ⟨hsi, nofun, hbi, hso⟩
  | bitAtLeafRoot | bitToLeaf | bitToInner => exact ⟨hsi, hbo, nofun, hso⟩
  | givesSymbol => exact ⟨hsi, hbo, hbi, nofun⟩
  | _ => exact ⟨hsi, hbo, hbi, hso⟩

/-! ### The turns still to come -/

/-- The number of items a source still has to give. -/
def itemsLeft {α : Type} (src : Option (List α)) : Nat := (src.getD []).length

@[simp] theorem itemsLeft_some {α : Type} (xs : List α) : itemsLeft (some xs) = xs.length := rfl

/-- A bound on the answered turns until the running command ends: two for each symbol FREQ counts, two and at most 255
bits for each symbol ENC sends, two and at most one symbol for each bit DEC reads, and one for the last question
(70_reset_and_hazards.md R112). -/
def turnsLeft (s : State) : Nat :=
  match s.pt with
  | .rest => 0
  | .f0 => 2 * itemsLeft s.si + 1
  | .f1 => 2 * itemsLeft s.si
  | .e0 => 257 * itemsLeft s.si + 1
  | .e1 => 257 * itemsLeft s.si
  | .e2 => 257 * itemsLeft s.si + 1 + ((encEntry s).len.toNat - s.epos.toNat)
  | .dNoTree => 1
  | .d0 => 3 * itemsLeft s.bi + 1
  | .d1 => 3 * itemsLeft s.bi
  | .d2 => 3 * itemsLeft s.bi + 2

/-- The engine's turn, its request answered, ends the command or brings its end nearer. -/
def EndsOrNears (s : State) : Prop :=
  ∃ t, microStep .answer s = .next t ∧ (t.ph = .busy → turnsLeft t < turnsLeft s)

/-! ### FREQ -/

theorem freq_endsOrNears (h : Consistent s) (hsi : s.si ≠ none) (hp : s.pt = .f0 ∨ s.pt = .f1) : EndsOrNears s := by
  rcases hp with hp | hp
  · obtain ⟨xs, hi⟩ := Option.ne_none_iff_exists'.mp hsi
    cases xs with
    | nil => exact ⟨_, microStep_f0_end hp hi, nofun⟩
    | cons x xs => exact ⟨_, microStep_f0_more hp hi, fun _ => by simp [turnsLeft, goto, hp]⟩
  · obtain ⟨x, xs, hi⟩ := h.points.moreSymbols (.inl hp)
    rcases countSymbol_cases x s with ⟨hc, -⟩ | ⟨hc, -⟩
    · exact ⟨_, microStep_f1_overflows hp hi hc, nofun⟩
    · refine ⟨_, microStep_f1_counts hp hi hc, fun _ => ?_⟩
      simp only [turnsLeft, goto, hp, hi, itemsLeft_some, List.length_cons]
      omega

/-! ### ENC -/

/-- After the loop test at most the rest of the code and the symbols to come are left (43_encoder.md R73). -/
theorem turnsLeft_encLoop (s : State) :
    turnsLeft (encLoop s) ≤ 257 * itemsLeft s.si + 1 + ((encEntry s).len.toNat - s.epos.toNat) := by
  rcases encLoop_cases s with ⟨-, e⟩ | ⟨-, e⟩ <;> rw [e]
  · exact le_rfl
  · exact Nat.le_add_right _ _

theorem enc_endsOrNears (h : Consistent s) (hsi : s.si ≠ none) (hbo : s.bo ≠ none)
    (hp : s.pt = .e0 ∨ s.pt = .e1 ∨ s.pt = .e2) : EndsOrNears s := by
  rcases hp with hp | hp | hp
  · obtain ⟨xs, hi⟩ := Option.ne_none_iff_exists'.mp hsi
    cases xs with
    | nil => exact ⟨_, microStep_e0_end hp hi, nofun⟩
    | cons x xs => exact ⟨_, microStep_e0_more hp hi, fun _ => by simp [turnsLeft, goto, hp]⟩
  · obtain ⟨x, xs, hi⟩ := h.points.moreSymbols (.inr hp)
    refine ⟨_, microStep_e1_takes hp hi, fun hb => ?_⟩
    rcases startSymbol_cases x { s with si := some xs } with ⟨-, e⟩ | ⟨-, e⟩ <;> rw [e] at hb ⊢
    · have hleft := turnsLeft_encLoop { s with si := some xs, esym := x, epos := 0 }
      have hlen := (ctGet s.ct x.toNat).len.isLt
      simp only [turnsLeft, hp, hi, encEntry, itemsLeft_some, List.length_cons] at hleft ⊢
      omega
    · cases hb
  · obtain ⟨bs, ho⟩ := Option.ne_none_iff_exists'.mp hbo
    obtain ⟨-, hpos⟩ := h.points.bitInCode hp
    have hsucc : (s.epos + 1).toNat = s.epos.toNat + 1 :=
      BitVec.toNat_add_of_lt ((Nat.succ_le_of_lt hpos).trans_lt (encEntry s).len.isLt)
    refine ⟨encLoop { s with bo := some (bs ++ [encBit s]), epos := s.epos + 1 }, ?_, fun _ => ?_⟩
    · rw [microStep_e2 hp, stepE2, askPut_eq_got.mpr ⟨rfl, bs, ho, rfl⟩]
    · have hleft := turnsLeft_encLoop { s with bo := some (bs ++ [encBit s]), epos := s.epos + 1 }
      simp only [turnsLeft, hp, encEntry, hsucc] at hleft hpos ⊢
      omega

/-! ### DEC -/

/-- After a bit at most its symbol and the bits to come are left (44_decoder.md R79). -/
theorem turnsLeft_decodeBit (e : decodeBit b s = .next t) : turnsLeft t ≤ 3 * itemsLeft s.bi + 2 := by
  rcases decodeBit_cases b s with ⟨-, -, e'⟩ | ⟨-, -, -, -, e'⟩ | ⟨-, -, -, -, e'⟩ | ⟨e', -⟩ <;>
    rw [e'] at e <;> cases e
  · exact le_rfl
  · exact le_rfl
  · exact Nat.le_succ _

theorem dec_endsOrNears (h : Consistent s) (hbi : s.bi ≠ none) (hso : s.so ≠ none)
    (hp : s.pt = .dNoTree ∨ s.pt = .d0 ∨ s.pt = .d1 ∨ s.pt = .d2) : EndsOrNears s := by
  rcases hp with hp | hp | hp | hp
  · obtain ⟨bs, hi⟩ := Option.ne_none_iff_exists'.mp hbi
    cases bs with
    | nil => exact ⟨_, microStep_dNoTree_end hp hi, nofun⟩
    | cons b bs => exact ⟨_, microStep_dNoTree_more hp hi, nofun⟩
  · obtain ⟨bs, hi⟩ := Option.ne_none_iff_exists'.mp hbi
    cases bs with
    | nil =>
      by_cases hc : s.cur = s.root
      · exact ⟨_, microStep_d0_end hp hi hc, nofun⟩
      · exact ⟨_, microStep_d0_truncated hp hi hc, nofun⟩
    | cons b bs => exact ⟨_, microStep_d0_more hp hi, fun _ => by simp [turnsLeft, goto, hp]⟩
  · obtain ⟨b, bs, hi⟩ := h.points.moreBits hp
    obtain ⟨t, ht⟩ := stepD1_next (r := .answer) h hp
    rw [← microStep_d1 hp] at ht
    have hleft := turnsLeft_decodeBit ((microStep_d1_takes hp hi).symm.trans ht)
    refine ⟨t, ht, fun _ => ?_⟩
    simp only [turnsLeft, hp, hi, itemsLeft_some, List.length_cons] at hleft ⊢
    omega
  · obtain ⟨ys, ho⟩ := Option.ne_none_iff_exists'.mp hso
    exact ⟨_, microStep_d2_gives hp ho (h.isRecord_emitIndex hp), fun _ => by simp [turnsLeft, hp]⟩

/-! ### Every command -/

theorem Consistent.endsOrNears (h : Consistent s) (hb : s.ph = .busy) (ha : Attached s) : EndsOrNears s := by
  obtain ⟨hsi, hbo, hbi, hso⟩ := ha
  cases hp : s.pt with
  | rest => exact absurd hp (h.run.pointIffBusy.mp hb)
  | f0 | f1 => exact freq_endsOrNears h hsi (by simp [hp])
  | e0 | e1 | e2 => exact enc_endsOrNears h hsi hbo (by simp [hp])
  | dNoTree | d0 | d1 | d2 => exact dec_endsOrNears h hbi hso (by simp [hp])

/-- By induction on the turns left: a turn that does not end the command keeps all that is asked of the state. -/
theorem Consistent.reaches_end (h : Consistent s) (hb : s.ph = .busy) (hp : s.plan = []) (ha : Attached s) :
    ∃ u, Reaches s u ∧ u.ph ≠ .busy := by
  induction hn : turnsLeft s using Nat.strong_induction_on generalizing s with
  | _ n ih =>
    obtain ⟨t, ht, hlt⟩ := h.endsOrNears hb ha
    have hstep : step s = .next t := (step_of_running hb hp).trans ht
    have hm : MicroTo s t := microStep_to ht
    by_cases hbt : t.ph = .busy
    · obtain ⟨u, hu, hend⟩ :=
        ih _ (hn ▸ hlt hbt) (consistencyIsKept s t h hstep) hbt (hm.plan.trans hp) (hm.attached ha) rfl
      exact ⟨u, .head hstep hu, hend⟩
    · exact ⟨t, .step hstep, hbt⟩

/-- Settles O59: the bound on the turns left cannot fall for ever. -/
theorem everyCommandEnds : Obligations.EveryCommandEnds :=
  fun _ h hb hp hsi hbo hbi hso => h.reaches_end hb hp ⟨hsi, hbo, hbi, hso⟩

end Sys2Proof.Machine
end
